-- ==== Sys2Proof/Word.lean ====
section
/-!
DEFINITION. The word types of the core: a byte of the image or of VRAM, and the 64-bit pattern of an
`f64` (`spec/00_scope.md` R12). A register, a stack element and a RAM cell hold a whole pattern, because
values are moved bit for bit (`spec/41_arithmetic.md` R134).
-/

namespace Sys2Proof

/-- A byte, 0 to 255 (R12). -/
abbrev Byte := BitVec 8

/-- The 64-bit pattern of a "64-bit floating point" value (R12, R90). What number a pattern stands for is
said in `Machine/Float.lean`. -/
abbrev F64 := BitVec 64

end Sys2Proof
end

