-- ==== Sys2Proof/Config.lean ====
section
/-!
DEFINITION. What an implementation fixes, and the values the spec leaves open (`spec/00_scope.md` R6, R7).
An open value is an `opaque` constant with no body: a claim holds whatever it is. The values the spec itself
chose for its own parameters stand in the files that use them (`Decode.lean`, `Machine/Operands.lean`).
-/

namespace Sys2Proof

namespace Config

/-! ### Parameters fixed by the source (R6) -/

/-- `REGISTER_COUNT` (R6, R20). -/
abbrev registerCount : Nat := 18

/-- `RAM_CELLS` (R6, R38). -/
def ramCells : Nat := 1024

/-- `CELL_BYTES` (R6). -/
def cellBytes : Nat := 8

/-- `VRAM_BASE`, the first data address of the framebuffer (R6, R51). -/
def vramBase : Nat := 1024

/-! ### Values the spec leaves open (R7) -/

/-- `VRAM_BYTES`, OPEN (R7, R203). -/
opaque vramBytes : Nat

/-- `DISPLAY_WIDTH`, OPEN (R7, R203). -/
opaque displayWidth : Nat

/-- `DISPLAY_HEIGHT`, OPEN (R7, R203). -/
opaque displayHeight : Nat

/-- The bits from which the n-th unspecified NaN is made (R134). Log entry 2. -/
opaque nanBits : Nat → F64

/-- The host C library's `sin` where R150 does not settle it. Log entry 4. -/
opaque sinFree : F64 → F64

/-- The host C library's `cos` where R150 does not settle it. Log entry 4. -/
opaque cosFree : F64 → F64

/-- The host C library's `pow` where R150 does not settle it. Log entry 4. -/
opaque powFree : F64 → F64 → F64

/-- Whether the OUT interface fails the n-th transfer that no listed answer covers (R123). Log entry 8. -/
opaque outFails : Nat → Bool

end Config

/-! ### The values a parameter of the spec can take (R7) -/

/-- `ADDR_CONV` (R53, R181; `92_eei_decisions.md` D9, D10). -/
inductive AddrConv where
  /-- Only exact integers convert. -/
  | strict
  /-- The value is first rounded toward zero. -/
  | truncate
deriving DecidableEq, Repr

/-- `POP_REG_CST`: what `pop` does with mode byte 0x06 (R172, D13). -/
inductive PopRegCst where
  /-- Store to the register, the constant has no effect. -/
  | store
  /-- Fault at decode. -/
  | fault
deriving DecidableEq, Repr

/-- `CF_MODE_CHECK`: a control-flow mode byte other than 0x04 (R104, D16). -/
inductive CfModeCheck where
  /-- Fault at decode. -/
  | fault
  /-- The byte is ignored. -/
  | ignore
deriving DecidableEq, Repr

end Sys2Proof
end

