-- ==== Sys2Proof/Machine/Float.lean ====
section
/-!
DEFINITION. IEEE 754 binary64 as the ALU uses it (`spec/41_arithmetic.md` R130 to R132, R134, R143, R145,
R148, R149). A finite value is an exact integer number of UNITS of `2^-1074`, the least positive subnormal;
sums, products, quotients and roots are computed exactly and rounded once, to nearest, ties to even (R131).
An operation answers `none` where the rules say NaN and do not say which (R134).
-/

namespace Sys2Proof

namespace Machine

/-! ### Reading a pattern (R90, R130) -/

/-- `P[63]`, the sign (R90). -/
def signBit (x : F64) : Bool := x.toNat / 2 ^ 63 == 1

/-- `P[62:52]`, the biased exponent (R90). -/
def expField (x : F64) : Nat := x.toNat / 2 ^ 52 % 2 ^ 11

/-- `P[51:0]`, the fraction (R90). -/
def fracField (x : F64) : Nat := x.toNat % 2 ^ 52

/-- The value 1 in units of `2^-1074`. -/
def oneUnits : Nat := 2 ^ 1074

/-- The magnitude of a finite pattern in units of `2^-1074`: a subnormal is its fraction, a normal number has
the leading 1 and the exponent's shift (R130). -/
def magUnits (x : F64) : Nat :=
  if expField x = 0 then fracField x else (2 ^ 52 + fracField x) * 2 ^ (expField x - 1)

/-- What a pattern stands for (R130). -/
inductive FClass where
  /-- A NaN, which one does not matter (R134). -/
  | nan
  /-- An infinity, `neg` its sign. -/
  | inf (neg : Bool)
  /-- A finite value, `neg` its sign (two zeros exist) and `mag` its magnitude in units of `2^-1074`. -/
  | fin (neg : Bool) (mag : Nat)
deriving DecidableEq, Repr

/-- The class of a pattern (R130). -/
def classify (x : F64) : FClass :=
  if expField x = 2047 then
    if fracField x = 0 then .inf (signBit x) else .nan
  else .fin (signBit x) (magUnits x)

/-- The pattern is a NaN (R130). -/
def isNaN (x : F64) : Bool := classify x == .nan

/-- The integer number of units a sign and a magnitude stand for. -/
def signedUnits (neg : Bool) (mag : Nat) : Int := if neg then -(mag : Int) else mag

/-! ### Writing a pattern (R130, R131) -/

/-- The 63 low bits of an infinity. -/
def infBits : Nat := 2047 * 2 ^ 52

/-- The pattern with a sign and 63 low bits; low bits past those of infinity become infinity: "a result too
large in magnitude becomes the infinity of its sign" (R131). -/
def pack (neg : Bool) (bits : Nat) : F64 :=
  BitVec.ofNat 64 (min bits infBits + if neg then 2 ^ 63 else 0)

/-- The zero of a sign. -/
def zeroOf (neg : Bool) : F64 := pack neg 0

/-- The infinity of a sign. -/
def infOf (neg : Bool) : F64 := pack neg infBits

/-- The value `1.0`. -/
def oneF64 : F64 := 0x3FF0000000000000#64

/-- A NaN made from any 64 bits: the exponent is all ones and the fraction is not zero. Every NaN pattern is
made from itself, so a NaN of unspecified bits can be any NaN (R134). -/
def asNaN (bits : F64) : F64 :=
  let x := bits ||| 0x7FF0000000000000#64
  if fracField x = 0 then x ||| 0x0008000000000000#64 else x

/-- One more than `t` when the discarded part calls for it: more than half, or exactly half and `t` odd
(R131: to nearest, ties to even). `twice` is twice the discarded part and `whole` one unit of `t`. -/
def roundUp (t twice whole : Nat) : Nat :=
  if whole < twice ∨ (twice = whole ∧ t % 2 = 1) then 1 else 0

/-- The 63 low bits of `num / den` units rounded to the nearest binary64 value, ties to even (R131). With
`k` the number of low bits that a 53-bit significand drops, the pattern of `t * 2^k` units is
`k * 2^52 + t`, subnormals (`k = 0`) and a carry out of the significand included. -/
def roundQuotient (num den : Nat) : Nat :=
  let k := Nat.log2 (num / den) - 52
  let whole := den * 2 ^ k
  let t := num / whole
  k * 2 ^ 52 + t + roundUp t (2 * (num % whole)) whole

/-- The greatest number of at most `bits` bits above `acc` whose square is at most `n`, bit by bit. -/
def sqrtBits : Nat → Nat → Nat → Nat
  | 0, _, acc => acc
  | bit + 1, n, acc =>
    let c := acc + 2 ^ bit
    sqrtBits bit n (if c * c ≤ n then c else acc)

/-- The 63 low bits of the square root of `n`, in units, rounded to the nearest binary64 value (R131). The
comparison with the midpoint `t + 1/2` is made between the squares. -/
def roundSqrt (n : Nat) : Nat :=
  let k := Nat.log2 n / 2 - 52
  let t := sqrtBits 53 (n / 4 ^ k) 0
  k * 2 ^ 52 + t + roundUp t (4 * n) ((2 * t + 1) * (2 * t + 1) * 4 ^ k)

/-- The value of a quotient of units with a sign, rounded (R131). -/
def roundSigned (neg : Bool) (num den : Nat) : F64 := pack neg (roundQuotient num den)

/-- `FromNat(n)`: the value equal to a natural number, exact up to `2^53` (`spec/00_scope.md` R13). -/
def ofNat (n : Nat) : F64 := roundSigned false (n * oneUnits) 1

/-! ### Sums, products, quotients, roots (R131, R132) -/

/-- The sum of two finite values. An exact zero is `+0.0` unless both operands are negative zeros (R132). -/
def addFinite (p : Bool) (m : Nat) (q : Bool) (n : Nat) : F64 :=
  let z := signedUnits p m + signedUnits q n
  if z = 0 then zeroOf (p && q) else roundSigned (z < 0) z.natAbs 1

/-- `a + b` (R131, R132). -/
def fAdd (a b : F64) : Option F64 :=
  match classify a, classify b with
  | .nan, _ => none
  | _, .nan => none
  | .inf p, .inf q => if p = q then some (infOf p) else none
  | .inf p, .fin _ _ => some (infOf p)
  | .fin _ _, .inf q => some (infOf q)
  | .fin p m, .fin q n => some (addFinite p m q n)

/-- The pattern with its sign bit flipped. -/
def negate (x : F64) : F64 := x ^^^ 0x8000000000000000#64

/-- `a - b`, the sum with the sign of `b` flipped (R131, R132). -/
def fSub (a b : F64) : Option F64 := fAdd a (negate b)

/-- `a * b`: "sign is the exclusive-or of the operand signs, also for zeros and infinities" (R132). -/
def fMul (a b : F64) : Option F64 :=
  match classify a, classify b with
  | .nan, _ => none
  | _, .nan => none
  | .inf p, .inf q => some (infOf (p != q))
  | .inf p, .fin q n => if n = 0 then none else some (infOf (p != q))
  | .fin p m, .inf q => if m = 0 then none else some (infOf (p != q))
  | .fin p m, .fin q n => some (roundSigned (p != q) (m * n) oneUnits)

/-- `a / b` for a divisor that is not zero (R132). A zero divisor never comes here: `div` faults first
(R143); the answer for it stands for nothing. -/
def fDiv (a b : F64) : Option F64 :=
  match classify a, classify b with
  | .nan, _ => none
  | _, .nan => none
  | .inf _, .inf _ => none
  | .inf p, .fin q _ => some (infOf (p != q))
  | .fin p _, .inf q => some (zeroOf (p != q))
  | .fin p m, .fin q n => if n = 0 then none else some (roundSigned (p != q) (m * oneUnits) n)

/-- `sqrt(a)` for an `a` that is not less than zero (R131, R145): the root of a zero is that zero. A negative
operand never comes here: `sqrt` faults first (R145); the answer for it stands for nothing. -/
def fSqrt (a : F64) : Option F64 :=
  match classify a with
  | .nan => none
  | .inf p => if p then none else some (infOf false)
  | .fin p m =>
    if m = 0 then some (zeroOf p) else if p then none else some (pack false (roundSqrt (m * oneUnits)))

/-- `|a|`: "a with its sign bit cleared"; `|NaN|` is a NaN, unspecified which (R148, R134). Log entry 3. -/
def fAbs (a : F64) : Option F64 :=
  if isNaN a then none else some (a &&& 0x7FFFFFFFFFFFFFFF#64)

/-- The magnitude, in whole numbers, of the floor of a finite value: toward zero for a positive value and away
from zero for a negative one (R149). -/
def floorMag (neg : Bool) (mag : Nat) : Nat :=
  if neg then (mag + (oneUnits - 1)) / oneUnits else mag / oneUnits

/-- `floor(a)`, "the largest integer-valued f64 not greater than a"; the sign of a zero is kept, infinities are
unchanged, the floor of a NaN is a NaN, unspecified which (R149, R134). Log entry 3. -/
def fFloor (a : F64) : Option F64 :=
  match classify a with
  | .nan => none
  | .inf p => some (infOf p)
  | .fin p m => some (roundSigned p (floorMag p m * oneUnits) 1)

end Machine

end Sys2Proof
end

