-- ==== Sys2Proof/Machine/Flags.lean ====
section
/-!
DEFINITION. The machine has no flags and no condition codes (`spec/10_state.md` R42); what takes their place
are the comparisons of `spec/41_arithmetic.md` R133, which `div`, `sqrt` and the six comparison jumps make
within the instruction. They are the IEEE 754 quiet comparisons, exact, with no tolerance.
-/

namespace Sys2Proof

namespace Machine

/-- The order of two integers. -/
def compareUnits (x y : Int) : Ordering := if x < y then .lt else if x = y then .eq else .gt

/-- How two values compare, `none` when either is a NaN; infinities are the extremes of the number line and
zeros of either sign are equal (R133). -/
def fCompare (a b : F64) : Option Ordering :=
  match classify a, classify b with
  | .nan, _ => none
  | _, .nan => none
  | .inf p, .inf q => some (if p = q then .eq else if p then .lt else .gt)
  | .inf p, .fin _ _ => some (if p then .lt else .gt)
  | .fin _ _, .inf q => some (if q then .gt else .lt)
  | .fin p m, .fin q n => some (compareUnits (signedUnits p m) (signedUnits q n))

/-- `a < b` (R133). -/
def fLt (a b : F64) : Bool := fCompare a b == some .lt

/-- `a == b` (R133). -/
def fEq (a b : F64) : Bool := fCompare a b == some .eq

/-- `a > b` (R133). -/
def fGt (a b : F64) : Bool := fCompare a b == some .gt

/-- `a <= b` (R133): false when either is a NaN. -/
def fLe (a b : F64) : Bool := fLt a b || fEq a b

/-- `a >= b` (R133): false when either is a NaN. -/
def fGe (a b : F64) : Bool := fGt a b || fEq a b

/-- `a != b` (R133): true when either is a NaN. -/
def fNe (a b : F64) : Bool := !fEq a b

end Machine

end Sys2Proof
end

