-- ==== Sys2Proof/Machine/Libm.lean ====
section
/-!
DEFINITION. `FSin`, `FCos` and `FPow`, the configuration functions of `spec/41_arithmetic.md` R144, R146,
R147 with the properties R150 gives every conforming C library. Each is an opaque constant of `Config`
wherever R150 does not settle it. P-exact, which R150 says is NOT guaranteed, is not built in: it is the
hypothesis `PExact` of `Safety.lean`. Log entry 4.
-/

namespace Sys2Proof

namespace Machine

/-- The value is a zero of either sign. -/
def isZero (x : F64) : Bool := fEq x 0#64

/-- The value is finite and an integer. -/
def isInteger (x : F64) : Bool :=
  match classify x with
  | .fin _ m => m % oneUnits == 0
  | .nan | .inf _ => false

/-- The value is an odd integer. -/
def isOddInteger (x : F64) : Bool :=
  match classify x with
  | .fin _ m => m % oneUnits == 0 && m / oneUnits % 2 == 1
  | .nan | .inf _ => false

/-- A free value kept within `-1.0` and `1.0` (R150, P-range): every value in the range is itself. -/
def withinOne (x : F64) : F64 := if fLe (negate oneF64) x && fLe x oneF64 then x else 0#64

/-- `FSin` (R146; R150 P-sin0, P-trig-inf, P-nan, P-range). -/
def fSin (a : F64) : F64 :=
  match classify a with
  | .nan | .inf _ => asNaN (Config.sinFree a)
  | .fin _ m => if m = 0 then a else withinOne (Config.sinFree a)

/-- `FCos` (R147; R150 P-cos0, P-trig-inf, P-nan, P-range). -/
def fCos (a : F64) : F64 :=
  match classify a with
  | .nan | .inf _ => asNaN (Config.cosFree a)
  | .fin _ m => if m = 0 then oneF64 else withinOne (Config.cosFree a)

/-- `FPow` when the exponent is an infinity of sign `neg` and the base is no NaN and not `1.0` (R150,
P-pow-inf). -/
def powToInf (a : F64) (neg : Bool) : F64 :=
  match classify a with
  | .fin _ m => if m = oneUnits then oneF64 else if decide (m < oneUnits) == neg then infOf false else zeroOf false
  | .nan | .inf _ => if neg then zeroOf false else infOf false

/-- `FPow` of a zero or an infinity of sign `p` for a finite exponent that is not zero: `vanish` says that the
result is a zero and not an infinity. Its sign is the base's for an odd integer exponent, else plus (R150,
P-pow-zero, P-pow-inf). -/
def powExtreme (p : Bool) (b : F64) (vanish : Bool) : F64 :=
  let sign := p && isOddInteger b
  if vanish then zeroOf sign else infOf sign

/-- `FPow` (R144; R150 P-pow-one, P-nan, P-pow-neg, P-pow-zero, P-pow-inf). -/
def fPow (a b : F64) : F64 :=
  if isZero b || a == oneF64 then oneF64
  else
    match classify a, classify b with
    | .nan, _ => asNaN (Config.powFree a b)
    | _, .nan => asNaN (Config.powFree a b)
    | _, .inf q => powToInf a q
    | .inf p, .fin q _ => powExtreme p b q
    | .fin p m, .fin q _ =>
      if m = 0 then powExtreme p b (!q)
      else if p && !isInteger b then asNaN (Config.powFree a b)
      else Config.powFree a b

end Machine

end Sys2Proof
end

