-- ==== Sys2Proof/Syntax.lean ====
section
/-!
DEFINITION. The instruction set as syntax: one constructor of `Instr` per row of `spec/opcode_table.json`
(`spec/30_encoding.md` R96), with the operand the decoder delivers (R91, R92). The row `in` is the
constructor `inp`, because `in` is a word of Lean.
-/

namespace Sys2Proof

/-- A general register. The number `k` stands for `x[k+1]`: register indices are 1 to 18 and there is no
`x[0]` (`spec/10_state.md` R20). -/
abbrev Reg := Fin Config.registerCount

/-- What the mode bits REG and CST select: the three shapes of the effective value
(`spec/42_push_pop.md` R161). -/
inductive EaForm where
  /-- REG without CST: `x[r]`. -/
  | reg (r : Reg)
  /-- CST without REG: the constant. -/
  | cst (c : F64)
  /-- REG and CST: `x[r] + c`. -/
  | regCst (r : Reg) (c : F64)
deriving DecidableEq, Repr

/-- The addressed operand of `push` and `pop`: the mode bit RAM says whether the effective value is an
address (R160, R162). -/
inductive Operand where
  /-- RAM clear: the effective value itself. -/
  | direct (e : EaForm)
  /-- RAM set: the data-memory location the effective value addresses. -/
  | memory (e : EaForm)
deriving DecidableEq, Repr

/-- The three instruction formats (R81). -/
inductive Format where
  /-- No operand: one byte. -/
  | f0
  /-- One addressed operand: `push`, `pop`. -/
  | fa
  /-- One target operand: the control-flow instructions. -/
  | ft
deriving DecidableEq, Repr

/-- The 26 instructions (R96), in the table's order. -/
inductive Instr where
  | inp
  | out
  | add
  | sub
  | mul
  | div
  | pow
  | sqrt
  | sin
  | cos
  | push (a : Operand)
  | pop (a : Operand)
  | call (t : F64)
  | ret
  | jmp (t : F64)
  | jae (t : F64)
  | ja (t : F64)
  | jb (t : F64)
  | jbe (t : F64)
  | je (t : F64)
  | jne (t : F64)
  | upd
  | clr
  | abs
  | flr
  | hlt
deriving DecidableEq, Repr

end Sys2Proof
end

