-- ==== Sys2Proof/WellFormed.lean ====
section
/-!
DEFINITION. Which terms of `Instr` the encoding can express. Register indices are in range by their type
and every 64-bit pattern is a legal constant (`spec/30_encoding.md` R90), so one check remains: the
destination of `pop` (R102).
-/

namespace Sys2Proof

/-- A destination `pop` can store to: "`pop` into neither REG nor RAM is an encoding error"
(`spec/30_encoding.md` R102). -/
def Operand.isDestination : Operand → Bool
  | .direct (.cst _) => false
  | .direct (.reg _) => true
  | .direct (.regCst _ _) => true
  | .memory _ => true

/-- The check on a whole instruction: every instruction but `pop` is well formed as it stands (R101, R102). -/
def Instr.wf : Instr → Bool
  | .pop a => a.isDestination
  | .inp | .out | .add | .sub | .mul | .div | .pow | .sqrt | .sin | .cos | .push _ | .call _ | .ret
  | .jmp _ | .jae _ | .ja _ | .jb _ | .jbe _ | .je _ | .jne _ | .upd | .clr | .abs | .flr | .hlt => true

end Sys2Proof
end

