-- ==== Sys2Proof/Decode.lean ====
section
/-!
DEFINITION. The bytecode instruction decoder and, after it, the encoder, both written from the formats of
`spec/30_encoding.md` (R80 to R105). The decoder is total: it answers an instruction or says by name why
the bytes at hand are none.
-/

namespace Sys2Proof

/-! ### The mode byte (R88) and the parameters of the decoder (R7) -/

/-- The mode bit REG: "REG=2" (R88). -/
def modeReg : Byte := 0x02#8

/-- The mode bit CST: "CST=4" (R88). -/
def modeCst : Byte := 0x04#8

/-- The mode bit RAM, `MODE_RAM = 1` (R88; the spec's decision D1). Log entry 10. -/
def modeRam : Byte := 0x01#8

/-- `POP_REG_CST = store` (R172; the spec's decision D13). Log entry 12. -/
def popRegCst : PopRegCst := .store

/-- `CF_MODE_CHECK = fault` (R104; the spec's decision D16). Log entry 12. -/
def cfModeCheck : CfModeCheck := .fault

/-- REG is set in a mode byte. -/
def hasReg (m : Byte) : Bool := m &&& modeReg != 0#8

/-- CST is set in a mode byte. -/
def hasCst (m : Byte) : Bool := m &&& modeCst != 0#8

/-- RAM is set in a mode byte. -/
def hasRam (m : Byte) : Bool := m &&& modeRam != 0#8

/-- A mode byte that names no operand: a bit outside the mask is set, or neither REG nor CST (R101). -/
def modeIllegal (m : Byte) : Bool :=
  m &&& ~~~(modeRam ||| modeReg ||| modeCst) != 0#8 || !(hasReg m || hasCst m)

/-- A mode byte that `push` accepts and `pop` does not: RAM clear and no register to store to (R102), or
the form REG and CST where `POP_REG_CST` is `fault` (R172). -/
def popModeIllegal (m : Byte) : Bool :=
  !hasRam m && (!hasReg m || (hasCst m && popRegCst == .fault))

/-! ### Bytes and constants (R90) -/

/-- The number whose bytes, least significant first, are given. -/
def leValue : List Byte → Nat
  | [] => 0
  | b :: bs => b.toNat + 256 * leValue bs

/-- The `n` low bytes of a number, least significant first. -/
def leBytes : Nat → Nat → List Byte
  | 0, _ => []
  | n + 1, v => BitVec.ofNat 8 v :: leBytes n (v / 256)

/-- `F64LE`: the pattern of a constant field, the byte at the lowest offset least significant (R90). -/
def f64OfBytes (bs : List Byte) : F64 := BitVec.ofNat 64 (leValue bs)

/-- The 8 bytes of a constant field (R90). -/
def f64Bytes (c : F64) : List Byte := leBytes 8 c.toNat

/-- The register a register index byte names: 1 to 18, other values name none (R89, R103). -/
def regOfByte (b : Byte) : Option Reg :=
  if h : 1 ≤ b.toNat ∧ b.toNat ≤ Config.registerCount then some ⟨b.toNat - 1, by omega⟩ else none

/-- The register index byte of a register (R89). -/
def regByte (r : Reg) : Byte := BitVec.ofNat 8 (r.val + 1)

/-! ### The decoder (R95) -/

/-- Why bytes are no instruction. What the machine raises for each is `Machine.decodeFault`. -/
inductive DecodeError where
  /-- No byte is left where the opcode should be (R95). -/
  | pastEnd
  /-- An opcode byte 26 to 255 (R100). -/
  | unknownOpcode (op : Byte)
  /-- The mode byte lies past the end of the image (R83). -/
  | missingMode
  /-- A mode byte of `push` or `pop` that names no operand (R101). -/
  | illegalMode (m : Byte)
  /-- A mode byte with which `pop` has no destination (R102). -/
  | popWithoutTarget (m : Byte)
  /-- The register index lies past the end of the image (R83). -/
  | missingRegister
  /-- A register index of 0 or above 18 (R103). -/
  | illegalRegister (b : Byte)
  /-- The constant crosses the end of the image (R83). -/
  | missingConstant
  /-- The mode byte of a control-flow instruction is not 0x04 (R104). -/
  | illegalTargetMode (m : Byte)
  /-- The target crosses the end of the image (R83). -/
  | missingTarget
deriving DecidableEq, Repr

/-- Fetch and check the register index byte (R84, R103). -/
def takeReg : List Byte → Except DecodeError (Reg × List Byte)
  | [] => .error .missingRegister
  | b :: bs =>
    match regOfByte b with
    | some r => .ok (r, bs)
    | none => .error (.illegalRegister b)

/-- Fetch the 8 bytes of a constant or target field (R83, R84, R90). -/
def takeF64 (e : DecodeError) (bs : List Byte) : Except DecodeError F64 :=
  if bs.length < 8 then .error e else .ok (f64OfBytes (bs.take 8))

/-- The fields that a legal mode byte announces, in stream order: register index, then constant (R84). -/
def takeForm (m : Byte) (bs : List Byte) : Except DecodeError EaForm :=
  if hasReg m then
    match takeReg bs with
    | .error e => .error e
    | .ok (r, rest) => if hasCst m then (takeF64 .missingConstant rest).map (.regCst r) else .ok (.reg r)
  else (takeF64 .missingConstant bs).map .cst

/-- The addressed operand of `push` (`isPop` false) or `pop`: mode byte, its checks, then the fields (R95). -/
def decodeOperand (isPop : Bool) : List Byte → Except DecodeError Operand
  | [] => .error .missingMode
  | m :: bs =>
    if modeIllegal m then .error (.illegalMode m)
    else if isPop && popModeIllegal m then .error (.popWithoutTarget m)
    else (takeForm m bs).map (if hasRam m then .memory else .direct)

/-- The target operand of a control-flow instruction: mode byte, its check, then 8 bytes (R87, R95, R104). -/
def decodeTarget : List Byte → Except DecodeError F64
  | [] => .error .missingMode
  | m :: bs =>
    if m != modeCst && cfModeCheck == .fault then .error (.illegalTargetMode m)
    else takeF64 .missingTarget bs

/-- The instruction whose first byte is the first of `bytes`, the bytes of the image from `pc` to its end
(R95, R96). -/
def decode : List Byte → Except DecodeError Instr
  | [] => .error .pastEnd
  | op :: bs =>
    match op.toNat with
    | 0 => .ok .inp
    | 1 => .ok .out
    | 2 => .ok .add
    | 3 => .ok .sub
    | 4 => .ok .mul
    | 5 => .ok .div
    | 6 => .ok .pow
    | 7 => .ok .sqrt
    | 8 => .ok .sin
    | 9 => .ok .cos
    | 10 => (decodeOperand false bs).map .push
    | 11 => (decodeOperand true bs).map .pop
    | 12 => (decodeTarget bs).map .call
    | 13 => .ok .ret
    | 14 => (decodeTarget bs).map .jmp
    | 15 => (decodeTarget bs).map .jae
    | 16 => (decodeTarget bs).map .ja
    | 17 => (decodeTarget bs).map .jb
    | 18 => (decodeTarget bs).map .jbe
    | 19 => (decodeTarget bs).map .je
    | 20 => (decodeTarget bs).map .jne
    | 21 => .ok .upd
    | 22 => .ok .clr
    | 23 => .ok .abs
    | 24 => .ok .flr
    | 25 => .ok .hlt
    | _ => .error (.unknownOpcode op)

/-! ### Opcode, format and length of an instruction (R81, R94, R96, R97) -/

/-- The opcode number (R96). -/
def Instr.opcode : Instr → Nat
  | .inp => 0
  | .out => 1
  | .add => 2
  | .sub => 3
  | .mul => 4
  | .div => 5
  | .pow => 6
  | .sqrt => 7
  | .sin => 8
  | .cos => 9
  | .push _ => 10
  | .pop _ => 11
  | .call _ => 12
  | .ret => 13
  | .jmp _ => 14
  | .jae _ => 15
  | .ja _ => 16
  | .jb _ => 17
  | .jbe _ => 18
  | .je _ => 19
  | .jne _ => 20
  | .upd => 21
  | .clr => 22
  | .abs => 23
  | .flr => 24
  | .hlt => 25

/-- The format, chosen by the opcode alone (R81, R96). -/
def Instr.format : Instr → Format
  | .push _ | .pop _ => .fa
  | .call _ | .jmp _ | .jae _ | .ja _ | .jb _ | .jbe _ | .je _ | .jne _ => .ft
  | .inp | .out | .add | .sub | .mul | .div | .pow | .sqrt | .sin | .cos | .ret | .upd | .clr | .abs
  | .flr | .hlt => .f0

/-- The operand count of the descriptor (R97). -/
def Format.operandCount : Format → Nat
  | .f0 => 0
  | .fa | .ft => 1

/-- The control-flow flag of the descriptor; `ret` has it clear (R97). -/
def Instr.isControlFlow (i : Instr) : Bool := i.format == .ft

/-- The mode byte of the bits REG and CST (R86). -/
def EaForm.mode : EaForm → Byte
  | .reg _ => modeReg
  | .cst _ => modeCst
  | .regCst _ _ => modeReg ||| modeCst

/-- The mode byte of an addressed operand (R86). -/
def Operand.mode : Operand → Byte
  | .direct e => e.mode
  | .memory e => modeRam ||| e.mode

/-- The shape of the effective value under an operand. -/
def Operand.form : Operand → EaForm
  | .direct e => e
  | .memory e => e

/-- The length of `push` and `pop`: 2, plus 1 if REG, plus 8 if CST (R94). -/
def Operand.instrLength (a : Operand) : Nat :=
  2 + (if hasReg a.mode then 1 else 0) + (if hasCst a.mode then 8 else 0)

/-- The length of a format-`FT` instruction (R94). -/
def targetInstrLength : Nat := 10

/-- The instruction length `len` (R94). -/
def Instr.length : Instr → Nat
  | .push a | .pop a => a.instrLength
  | .call _ | .jmp _ | .jae _ | .ja _ | .jb _ | .jbe _ | .je _ | .jne _ => targetInstrLength
  | .inp | .out | .add | .sub | .mul | .div | .pow | .sqrt | .sin | .cos | .ret | .upd | .clr | .abs
  | .flr | .hlt => 1

/-! ### The encoder (R84 to R87) -/

/-- The fields after the mode byte: register index, then constant (R84). -/
def EaForm.fields : EaForm → List Byte
  | .reg r => [regByte r]
  | .cst c => f64Bytes c
  | .regCst r c => regByte r :: f64Bytes c

/-- The mode byte and the fields of an addressed operand (R86). -/
def Operand.bytes (a : Operand) : List Byte := a.mode :: a.form.fields

/-- The mode byte 0x04 and the target field of a control-flow instruction (R87). -/
def targetBytes (t : F64) : List Byte := modeCst :: f64Bytes t

/-- The bytes after the opcode. -/
def Instr.operandBytes : Instr → List Byte
  | .push a | .pop a => a.bytes
  | .call t | .jmp t | .jae t | .ja t | .jb t | .jbe t | .je t | .jne t => targetBytes t
  | .inp | .out | .add | .sub | .mul | .div | .pow | .sqrt | .sin | .cos | .ret | .upd | .clr | .abs
  | .flr | .hlt => []

/-- The bytes of an instruction in stream order (R81). -/
def encode (i : Instr) : List Byte := BitVec.ofNat 8 i.opcode :: i.operandBytes

/-! ### Words of the opcode table -/

/-- The length in bytes of the longest instruction (R81). -/
def maxLength : Nat := 11

/-- An instruction whose low `nbits` bits are `w` and whose other bits are 0, as bytes in stream order: bit 0
is the least significant bit of the first byte. -/
def tableBytes (nbits w : Nat) : List Byte := leBytes maxLength (w % 2 ^ nbits)

/-- The instruction the decoder reads from a word of `spec/opcode_table.json`, none where it refuses. -/
def decodeTableWord (nbits w : Nat) : Option Instr :=
  match decode (tableBytes nbits w) with
  | .ok i => some i
  | .error _ => none

end Sys2Proof
end

