-- ==== Sys2Proof/Machine/State.lean ====
section
/-!
DEFINITION. The state of the core as the spec lists it (`spec/10_state.md` R46, R41), what a run is given
(R40, `spec/00_scope.md` R7, R9), the reasons a step can stop, and reset (`spec/70_reset_and_hazards.md`
R260).
-/

namespace Sys2Proof

namespace Machine

/-- The six kinds of fault, by the source's names (`spec/60_exceptions.md` R220). -/
inductive FaultKind where
  | reachedEndNotHalted
  | invalidCommand
  | mathError
  | notEnoughValuesForOperation
  | ioError
  | invalidCmdArgument
deriving DecidableEq, Repr

/-- `STATUS` (R30). -/
inductive Status where
  | running
  | halted
  | faulted (k : FaultKind)
deriving DecidableEq, Repr

/-- What the host answers to one request of `in` (`spec/40_io.md` R121). -/
inductive InAnswer where
  /-- `Value(v)`: any f64, infinities and NaN included. -/
  | value (v : F64)
  /-- `Fail`. -/
  | fail
  /-- The host never answers this request: "blocks ... no timeout or cancellation" (R272). Log entry 9. -/
  | silent
deriving DecidableEq, Repr

/-- What the host answers to one transfer of `out` (R123). -/
inductive OutAnswer where
  | ok
  | fail
deriving DecidableEq, Repr

/-- One `DISP.present` transaction: the arguments of `present(buffer, width, height)` (`spec/00_scope.md` R9,
`spec/44_display.md` R200). Log entry 14. -/
structure Frame where
  pixels : List Byte
  width : Nat
  height : Nat
deriving DecidableEq, Repr

/-- The constants of the platform around the core (R7, R203). No instruction writes them. Log entry 7. -/
structure Platform where
  /-- `VRAM_BYTES`, what `DISP.size` answers. -/
  vramBytes : Nat
  /-- `DISPLAY_WIDTH`. -/
  width : Nat
  /-- `DISPLAY_HEIGHT`. -/
  height : Nat
deriving DecidableEq, Repr

/-- Data memory as the source's design note has it, "one contiguous byte buffer" (`spec/20_memory.md` R51):
the bytes that are not 0, by offset in the backing storage. RAM cell `i` is bytes `8*i` to `8*i+7`, VRAM byte
`j` is byte `8192+j`. -/
abbrev Memory := List Host.Cell

/-- Everything the core holds, the host-side traces and oracles of a run, and what the run was given. -/
structure State where
  /-- `STATUS` (R30). -/
  status : Status
  /-- The program counter, a byte offset into the image, unbounded (R25). -/
  pc : Nat
  /-- `x[1]` to `x[18]`, in this order (R20). -/
  regs : Vector F64 Config.registerCount
  /-- The value stack `VS`, its TOP FIRST (R31). -/
  vs : List F64
  /-- The call stack `CS`, its TOP FIRST (R35). -/
  cs : List F64
  /-- RAM and VRAM (R38, R39). -/
  mem : Memory
  /-- The bytecode image `Prog`; `PB` is its length (R40). -/
  prog : List Byte
  /-- `INPUT`: the answers of the IN interface still to come, in order (R41). That the sequence is finite is a
  DESIGN CHOICE: the spec does not say that it is (R41, R121). Log entry 21. -/
  input : List InAnswer
  /-- The answers of the OUT interface still to come, in order (R123). -/
  outAnswers : List OutAnswer
  /-- `OUTPUT`, oldest first (R41). -/
  output : List F64
  /-- `FRAMES`, oldest first (R41). -/
  frames : List Frame
  /-- The platform's constants (R7). -/
  platform : Platform
  /-- The MODEL's own field: how many unspecified NaNs have been drawn (R134). Log entry 2. -/
  nanDraws : Nat
deriving DecidableEq, Repr

/-- Why there is no further step. A fault of the SPEC is not one of these: it is a next state whose STATUS is
`Faulted(k)` (R225). These are the states in which the spec has no step. -/
inductive Fault where
  /-- `step` at `STATUS = Halted`: "A step exists only while STATUS = Running" (R30). Safe: the spec has no
  step here either. -/
  | halted
  /-- `step` at `STATUS = Faulted(k)`: faults are terminal (R226). Safe, for the same reason. -/
  | faulted (k : FaultKind)
  /-- `in` when the host never answers: a stuck core (R272). Safe: the spec has no step here either. -/
  | awaitingInput
deriving DecidableEq, Repr

/-- Why an instruction has no meaning in the model. -/
inductive Refusal where
  /-- An instruction that has no meaning yet, by its mnemonic. Raised by no arm: every instruction has its
  meaning. Safe: the run stops. -/
  | notModelled (mnemonic : String)
deriving DecidableEq, Repr

/-- What a meaning answers. -/
abbrev Result := Host.Outcome State Fault Refusal

/-- The bytes `VRAM_BYTES`, width and height that the spec leaves OPEN (R7). -/
def openPlatform : Platform :=
  ⟨Config.vramBytes, Config.displayWidth, Config.displayHeight⟩

/-- The state right after `RESET` in a run that was given an image, the answers of the two interfaces and a
platform (R46, R260, R261). -/
def State.boot (image : List Byte) (input : List InAnswer) (outAnswers : List OutAnswer)
    (platform : Platform) : State where
  status := .running
  pc := 0
  regs := Vector.replicate Config.registerCount 0#64
  vs := []
  cs := []
  mem := []
  prog := image
  input := input
  outAnswers := outAnswers
  output := []
  frames := []
  platform := platform
  nanDraws := 0

/-- The machine right after reset with nothing loaded (R46). Log entry 6. -/
def State.reset : State := State.boot [] [] [] openPlatform

/-! ### Updates of one field -/

/-- Write `STATUS`. -/
def State.setStatus (s : State) (x : Status) : State := { s with status := x }

/-- Write `pc`. -/
def State.setPc (s : State) (n : Nat) : State := { s with pc := n }

/-- `pc <- pc + n` (R27, R28: no wrap-around). -/
def State.advance (s : State) (n : Nat) : State := { s with pc := s.pc + n }

/-- Replace the value stack. -/
def State.setVs (s : State) (l : List F64) : State := { s with vs := l }

/-- Replace the call stack. -/
def State.setCs (s : State) (l : List F64) : State := { s with cs := l }

/-- Write one general register. -/
def State.setReg (s : State) (r : Reg) (v : F64) : State := { s with regs := s.regs.set r v }

/-- Replace data memory. -/
def State.setMem (s : State) (m : Memory) : State := { s with mem := m }

/-- Replace the answers of IN still to come. -/
def State.setInput (s : State) (l : List InAnswer) : State := { s with input := l }

/-- Replace the answers of OUT still to come. -/
def State.setOutAnswers (s : State) (l : List OutAnswer) : State := { s with outAnswers := l }

/-- Append one value to `OUTPUT`. -/
def State.addOutput (s : State) (v : F64) : State := { s with output := s.output ++ [v] }

/-- Append one frame to `FRAMES`. -/
def State.addFrame (s : State) (f : Frame) : State := { s with frames := s.frames ++ [f] }

/-- Count one unspecified NaN as drawn. -/
def State.countDraw (s : State) : State := { s with nanDraws := s.nanDraws + 1 }

end Machine

end Sys2Proof
end

