-- ==== Sys2Proof/Machine/Ops.lean ====
section
/-!
DEFINITION. The named operations over the state: raising a fault, the registers, the value stack, data memory,
the image. Every meaning is written over these.
-/

namespace Sys2Proof

namespace Machine

/-! ### Faults (R225) -/

/-- `raise Fault(k)`: "`STATUS <- Faulted(k)`", nothing else changes, the run is over
(`spec/60_exceptions.md` R225). There is no return from a fault (R226). Log entry 1. -/
def raise (k : FaultKind) (s : State) : Result := .next (s.setStatus (.faulted k))

/-- The kind raised for bytes that are no instruction (R83, R95, R100 to R104). -/
def decodeFault : DecodeError → FaultKind
  | .pastEnd | .missingMode | .missingRegister | .missingConstant | .missingTarget => .reachedEndNotHalted
  | .unknownOpcode _ => .invalidCommand
  | .illegalMode _ | .popWithoutTarget _ | .illegalRegister _ | .illegalTargetMode _ => .invalidCmdArgument

/-! ### Registers and the value stack (R20, R31) -/

/-- `x[r]` (R22). -/
def readReg (s : State) (r : Reg) : F64 := s.regs[r]

/-- `push(VS, v)`. -/
def pushValue (s : State) (v : F64) : State := s.setVs (v :: s.vs)

/-- The NaN that the n-th draw yields: any NaN (`spec/41_arithmetic.md` R134). Log entry 2. -/
def drawnNaN (n : Nat) : F64 := asNaN (Config.nanBits n)

/-- Push the result of an operation; where the rules say NaN and not which, a freshly drawn one (R134). -/
def pushResult (s : State) : Option F64 → State
  | some v => pushValue s v
  | none => (pushValue s (drawnNaN s.nanDraws)).countDraw

/-! ### Data memory (R51, R55 to R58) -/

/-- What a byte that is not listed reads as: RAM and VRAM are zeroed at reset (R38, R39). -/
def unlistedByte : Byte := 0#8

/-- The byte at an offset of the backing storage. -/
def readByte : Memory → Nat → Byte
  | [], _ => unlistedByte
  | (k, v) :: m, a => if a = k then v else readByte m a

/-- Put an entry in front, unless it says what an unlisted byte says. -/
def consByte (a : Nat) (v : Byte) (m : Memory) : Memory := if v = unlistedByte then m else (a, v) :: m

/-- Write the byte at an offset of the backing storage, keeping the list canonical. -/
def writeByte : Memory → Nat → Byte → Memory
  | [], a, v => consByte a v []
  | (k, w) :: m, a, v =>
    if a < k then consByte a v ((k, w) :: m)
    else if a = k then consByte a v m
    else (k, w) :: writeByte m a v

/-- The canonical form: offsets strictly rising, no entry that says what an unlisted byte says. -/
abbrev Memory.wf (m : Memory) : Prop :=
  m.Pairwise (fun c d => c.1 < d.1) ∧ ∀ c ∈ m, c.2 ≠ unlistedByte

/-- `n` bytes from an offset on. -/
def readBytes (m : Memory) (a n : Nat) : List Byte := (List.range n).map (fun j => readByte m (a + j))

/-- Write bytes from an offset on. -/
def writeBytes : Memory → Nat → List Byte → Memory
  | m, _, [] => m
  | m, a, b :: bs => writeBytes (writeByte m a b) (a + 1) bs

/-- The offset of RAM cell `i` in the backing storage (R51). -/
def cellOffset (i : Nat) : Nat := Config.cellBytes * i

/-- The offset of VRAM byte `j` in the backing storage: `1024 * sizeof(double)` and on (R51). -/
def vramOffset (j : Nat) : Nat := Config.cellBytes * Config.ramCells + j

/-- `RAM[i]` (R55). The order of a cell's bytes in the storage is not observable (R60). Log entry 5. -/
def readCell (m : Memory) (i : Nat) : F64 := f64OfBytes (readBytes m (cellOffset i) Config.cellBytes)

/-- `RAM[i] <- v` (R57). Log entry 5. -/
def writeCell (m : Memory) (i : Nat) (v : F64) : Memory := writeBytes m (cellOffset i) (f64Bytes v)

/-- `VRAM[j]` (R56). -/
def readVram (m : Memory) (j : Nat) : Byte := readByte m (vramOffset j)

/-- `VRAM[j] <- b` (R58). -/
def writeVram (m : Memory) (j : Nat) (b : Byte) : Memory := writeByte m (vramOffset j) b

/-- The value at a data address: a RAM cell below 1024, else a VRAM byte as `0.0` to `255.0` (R55, R56). -/
def readData (m : Memory) (n : Nat) : F64 :=
  if n < Config.vramBase then readCell m n else ofNat (readVram m (n - Config.vramBase)).toNat

/-- All `size` bytes of VRAM, in order (R200). -/
def vramBytes (m : Memory) (size : Nat) : List Byte := readBytes m (vramOffset 0) size

/-- Zero the `size` bytes of VRAM and nothing else (R201). -/
def clearVram (m : Memory) (size : Nat) : Memory :=
  m.filter (fun c => !(vramOffset 0 ≤ c.1 && c.1 < vramOffset size))

/-! ### Interfaces (R9) -/

/-- The answer OUT gives to the next transfer: the next listed one, or a free one (R123). Log entry 8. -/
def nextOutAnswer (s : State) : OutAnswer :=
  match s.outAnswers with
  | a :: _ => a
  | [] => if Config.outFails s.output.length then .fail else .ok

/-! ### The image (R40, R83) -/

/-- The bytes of the image from `pc` to its end: none when `pc >= PB` (R83, R95). -/
def fetchBytes (s : State) : List Byte := s.prog.drop s.pc

/-- A list with the bytes `bs` stored from index `a` on, filled up with zeros where it is too short. -/
def overlay (l : List Byte) (a : Nat) (bs : List Byte) : List Byte :=
  l.take a ++ List.replicate (a - l.length) 0#8 ++ bs ++ l.drop (a + bs.length)

end Machine

end Sys2Proof
end

