-- ==== Sys2Proof/Machine/Operands.lean ====
section
/-!
DEFINITION. The operands: the effective value of `push` and `pop` (`spec/42_push_pop.md` R161) and the
conversions from a double to a data address, an image offset and a VRAM byte (`spec/20_memory.md` R53, R59;
`spec/43_control_flow.md` R181). A conversion that the rules fault on answers `none`.
-/

namespace Sys2Proof

namespace Machine

/-- `ADDR_CONV = strict` (R53, R181; the spec's decisions D9, D10). Log entry 11. -/
def addrConv : AddrConv := .strict

/-- `ea(mode, r, c)`, with the register as it is before the instruction changes anything (R161). A sum that is
NaN is `none`: which NaN is not specified (R134). A value that is only moved keeps its bits. -/
def effectiveValue (s : State) : EaForm → Option F64
  | .reg r => some (readReg s r)
  | .cst c => some c
  | .regCst r c => fAdd (readReg s r) c

/-- The natural number a double converts to: none for NaN, infinities and negative values, and under `strict`
for values that are not integers; `-0.0` is 0 (R53, R181). -/
def toNatural (conv : AddrConv) (v : F64) : Option Nat :=
  match classify v with
  | .nan | .inf _ => none
  | .fin neg m =>
    if conv == .strict && m % oneUnits != 0 then none
    else if neg && m / oneUnits != 0 then none
    else some (m / oneUnits)

/-- `ToAddr(v)` with `VRAM_BYTES = size` (R53). -/
def toAddr (size : Nat) (v : F64) : Option Nat :=
  match toNatural addrConv v with
  | some n => if n < Config.vramBase + size then some n else none
  | none => none

/-- `ToOffset(v)`: there is no upper bound (R181). -/
def toOffset (v : F64) : Option Nat := toNatural addrConv v

/-- `ToByte(v)`, `BYTE_CONV = trunc-or-fault`: rounded toward zero, then 0 to 255 or none (R59). Log
entry 11. -/
def toByte (v : F64) : Option Byte :=
  match classify v with
  | .nan | .inf _ => none
  | .fin neg m =>
    let t := m / oneUnits
    if (neg && t != 0) || 255 < t then none else some (BitVec.ofNat 8 t)

/-- The data address of an operand with RAM set: `ToAddr(ea)` (R165, R170). -/
def dataAddress (s : State) (e : EaForm) : Option Nat :=
  match effectiveValue s e with
  | some v => toAddr s.platform.vramBytes v
  | none => none

end Machine

end Sys2Proof
end

