-- ==== Sys2Proof/Machine/Arith.lean ====
section
/-!
DEFINITION. The meanings of the arithmetic instructions (`spec/41_arithmetic.md` R136 to R149).
-/

namespace Sys2Proof

namespace Machine

/-- The shape of a binary instruction: depth check, domain check, then "pop b, pop a, push a OP b" (R136).
`domain a b` is false where the instruction raises `MathError` (R135). -/
def binary (domain : F64 → F64 → Bool) (op : F64 → F64 → Option F64) (s : State) : Result :=
  match s.vs with
  | b :: a :: rest =>
    if domain a b then .next ((pushResult (s.setVs rest) (op a b)).advance 1)
    else raise .mathError s
  | [_] | [] => raise .notEnoughValuesForOperation s

/-- The shape of a unary instruction: depth check, domain check, then "pop a, push f(a)" (R137). -/
def unary (domain : F64 → Bool) (op : F64 → Option F64) (s : State) : Result :=
  match s.vs with
  | a :: rest =>
    if domain a then .next ((pushResult (s.setVs rest) (op a)).advance 1)
    else raise .mathError s
  | [] => raise .notEnoughValuesForOperation s

/-- `add` (R140). -/
def execAdd (s : State) : Result := binary (fun _ _ => true) fAdd s

/-- `sub` (R141). -/
def execSub (s : State) : Result := binary (fun _ _ => true) fSub s

/-- `mul` (R142). -/
def execMul (s : State) : Result := binary (fun _ _ => true) fMul s

/-- `div`: "error if b==0" (R143). -/
def execDiv (s : State) : Result := binary (fun _ b => !fEq b 0#64) fDiv s

/-- `pow` (R144). -/
def execPow (s : State) : Result := binary (fun _ _ => true) (fun a b => some (fPow a b)) s

/-- `sqrt`: "error if a<0" (R145). -/
def execSqrt (s : State) : Result := unary (fun a => !fLt a 0#64) fSqrt s

/-- `sin` (R146). -/
def execSin (s : State) : Result := unary (fun _ => true) (fun a => some (fSin a)) s

/-- `cos` (R147). -/
def execCos (s : State) : Result := unary (fun _ => true) (fun a => some (fCos a)) s

/-- `abs` (R148). -/
def execAbs (s : State) : Result := unary (fun _ => true) fAbs s

/-- `flr` (R149). -/
def execFlr (s : State) : Result := unary (fun _ => true) fFloor s

end Machine

end Sys2Proof
end

