-- ==== Sys2Proof/Machine/Control.lean ====
section
/-!
DEFINITION. The meanings of the control-transfer instructions (`spec/43_control_flow.md` R180 to R194).
-/

namespace Sys2Proof

namespace Machine

/-- `call`: "push return address (address of next instruction) onto call stack, jump to target"; the target is
converted before the push (R183). -/
def execCall (t : F64) (s : State) : Result :=
  match toOffset t with
  | some n => .next ((s.setCs (ofNat (s.pc + targetInstrLength) :: s.cs)).setPc n)
  | none => raise .invalidCmdArgument s

/-- `ret`: "pop call stack, jump there" (R184). -/
def execRet (s : State) : Result :=
  match s.cs with
  | v :: rest =>
    match toOffset v with
    | some n => .next ((s.setCs rest).setPc n)
    | none => raise .invalidCmdArgument s
  | [] => raise .notEnoughValuesForOperation s

/-- `jmp`: "unconditional jump to target" (R182). -/
def execJmp (t : F64) (s : State) : Result :=
  match toOffset t with
  | some n => .next (s.setPc n)
  | none => raise .invalidCmdArgument s

/-- The shared rule of the comparison jumps: both values are popped either way, the target is converted only
when the jump is taken (R185). -/
def compareJump (rel : F64 → F64 → Bool) (t : F64) (s : State) : Result :=
  match s.vs with
  | b :: a :: rest =>
    if rel a b then
      match toOffset t with
      | some n => .next ((s.setVs rest).setPc n)
      | none => raise .invalidCmdArgument s
    else .next ((s.setVs rest).advance targetInstrLength)
  | [_] | [] => raise .notEnoughValuesForOperation s

/-- `jae` (R186). -/
def execJae (t : F64) (s : State) : Result := compareJump fGe t s

/-- `ja` (R187). -/
def execJa (t : F64) (s : State) : Result := compareJump fGt t s

/-- `jb` (R188). -/
def execJb (t : F64) (s : State) : Result := compareJump fLt t s

/-- `jbe` (R189). -/
def execJbe (t : F64) (s : State) : Result := compareJump fLe t s

/-- `je` (R190). -/
def execJe (t : F64) (s : State) : Result := compareJump fEq t s

/-- `jne` (R191). -/
def execJne (t : F64) (s : State) : Result := compareJump fNe t s

end Machine

end Sys2Proof
end

