-- ==== Sys2Proof/Machine/Display.lean ====
section
/-!
DEFINITION. The meanings of `upd` and `clr` (`spec/44_display.md` R200 to R203).
-/

namespace Sys2Proof

namespace Machine

/-- The `present` transaction of this moment (R200, R203). -/
def presentedFrame (s : State) : Frame :=
  ⟨vramBytes s.mem s.platform.vramBytes, s.platform.width, s.platform.height⟩

/-- `upd`: "present framebuffer to display sink"; never faults (R200). -/
def execUpd (s : State) : Result := .next ((s.addFrame (presentedFrame s)).advance 1)

/-- `clr`: "zero the framebuffer region"; never faults (R201). -/
def execClr (s : State) : Result := .next ((s.setMem (clearVram s.mem s.platform.vramBytes)).advance 1)

end Machine

end Sys2Proof
end

