-- ==== Sys2Proof/Machine/Halt.lean ====
section
/-!
DEFINITION. The meaning of `hlt` (`spec/45_halt.md` R210).
-/

namespace Sys2Proof

namespace Machine

/-- `hlt`: "stop execution"; `pc` moves past it (R210). -/
def execHlt (s : State) : Result := .next ((s.advance 1).setStatus .halted)

end Machine

end Sys2Proof
end

