-- ==== Sys2Proof/Machine/Io.lean ====
section
/-!
DEFINITION. The meanings of `in` and `out` (`spec/40_io.md` R120 to R123).
-/

namespace Sys2Proof

namespace Machine

/-- `in`: "read one float from input, push" (R120). An exhausted input source is `Fail` (R121); a request that
the host never answers has no step (R272). The answer is consumed also when it is `Fail` (R120). The answers are
a finite list, so a run that repeats `in` for ever ends here in `Fail` or waits: DESIGN CHOICE, log entry 21. -/
def execIn (s : State) : Result :=
  match s.input with
  | .value v :: rest => .next ((pushValue (s.setInput rest) v).advance 1)
  | .fail :: rest => raise .ioError (s.setInput rest)
  | .silent :: _ => .fault .awaitingInput
  | [] => raise .ioError s

/-- `out`: "pop, write to output" (R122). -/
def execOut (s : State) : Result :=
  match s.vs with
  | [] => raise .notEnoughValuesForOperation s
  | v :: rest =>
    match nextOutAnswer s with
    | .fail => raise .ioError s
    | .ok => .next ((((s.setVs rest).setOutAnswers s.outAnswers.tail).addOutput v).advance 1)

end Machine

end Sys2Proof
end

