-- ==== Sys2Proof/Machine/PushPop.lean ====
section
/-!
DEFINITION. The meanings of `push` and `pop` (`spec/42_push_pop.md` R160 to R173), the machine's only loads
and stores and the only instructions that touch the registers.
-/

namespace Sys2Proof

namespace Machine

/-- `push`: "compute addressed value, push" (R165). -/
def execPush (a : Operand) (s : State) : Result :=
  match a with
  | .direct e => .next ((pushResult s (effectiveValue s e)).advance a.instrLength)
  | .memory e =>
    match dataAddress s e with
    | some n => .next ((pushValue s (readData s.mem n)).advance a.instrLength)
    | none => raise .invalidCmdArgument s

/-- `pop` to a register: "`pop(VS); x[r] <- v`" (R170). -/
def popToReg (r : Reg) (len : Nat) (s : State) : Result :=
  match s.vs with
  | v :: rest => .next (((s.setVs rest).setReg r v).advance len)
  | [] => raise .notEnoughValuesForOperation s

/-- Data memory with `v` stored at data address `n`: a whole RAM cell below 1024, else the VRAM byte
`ToByte(v)`, none where that faults (R57, R58, R170). -/
def storeData (m : Memory) (n : Nat) (v : F64) : Option Memory :=
  if n < Config.vramBase then some (writeCell m n v)
  else
    match toByte v with
    | some b => some (writeVram m (n - Config.vramBase) b)
    | none => none

/-- `pop` to data memory: depth check, then `ToAddr`, then `ToByte` for a VRAM target (R163, R170). -/
def popToMemory (e : EaForm) (len : Nat) (s : State) : Result :=
  match s.vs with
  | v :: rest =>
    match dataAddress s e with
    | some n =>
      match storeData s.mem n v with
      | some m => .next (((s.setVs rest).setMem m).advance len)
      | none => raise .invalidCmdArgument s
    | none => raise .invalidCmdArgument s
  | [] => raise .notEnoughValuesForOperation s

/-- `pop`: "pop value, store to addressed register/RAM" (R170, R171). With REG and CST the value goes to the
register and the constant has no effect (R172). A destination that is neither register nor memory is
`InvalidCmdArgument` before the depth check (R102, R230); the decoder never delivers one. -/
def execPop (a : Operand) (s : State) : Result :=
  match a with
  | .direct (.reg r) => popToReg r a.instrLength s
  | .direct (.regCst r _) => popToReg r a.instrLength s
  | .direct (.cst _) => raise .invalidCmdArgument s
  | .memory e => popToMemory e a.instrLength s

end Machine

end Sys2Proof
end

