-- ==== Sys2Proof/Machine/Dispatch.lean ====
section
/-!
DEFINITION. The instruction dispatcher: "a single exhaustive match/switch" over the 26 instructions
(`spec/30_encoding.md` R95, R96).
-/

namespace Sys2Proof

namespace Machine

def exec (i : Instr) (s : State) : Host.Outcome State Fault Refusal :=
  match i with
  | .inp => Sys2Proof.Machine.execIn s
  | .out => Sys2Proof.Machine.execOut s
  | .add => Sys2Proof.Machine.execAdd s
  | .sub => Sys2Proof.Machine.execSub s
  | .mul => Sys2Proof.Machine.execMul s
  | .div => Sys2Proof.Machine.execDiv s
  | .pow => Sys2Proof.Machine.execPow s
  | .sqrt => Sys2Proof.Machine.execSqrt s
  | .sin => Sys2Proof.Machine.execSin s
  | .cos => Sys2Proof.Machine.execCos s
  | .push a => Sys2Proof.Machine.execPush a s
  | .pop a => Sys2Proof.Machine.execPop a s
  | .call t => Sys2Proof.Machine.execCall t s
  | .ret => Sys2Proof.Machine.execRet s
  | .jmp t => Sys2Proof.Machine.execJmp t s
  | .jae t => Sys2Proof.Machine.execJae t s
  | .ja t => Sys2Proof.Machine.execJa t s
  | .jb t => Sys2Proof.Machine.execJb t s
  | .jbe t => Sys2Proof.Machine.execJbe t s
  | .je t => Sys2Proof.Machine.execJe t s
  | .jne t => Sys2Proof.Machine.execJne t s
  | .upd => Sys2Proof.Machine.execUpd s
  | .clr => Sys2Proof.Machine.execClr s
  | .abs => Sys2Proof.Machine.execAbs s
  | .flr => Sys2Proof.Machine.execFlr s
  | .hlt => Sys2Proof.Machine.execHlt s

end Machine

end Sys2Proof
end

