-- ==== Sys2Proof/Machine/Step.lean ====
section
/-!
DEFINITION. One step of the core: fetch, decode, dispatch, execute (`spec/30_encoding.md` R95).
-/

namespace Sys2Proof

namespace Machine

/-- One step: one whole instruction or one fault, and no step unless `STATUS = Running` (R95, R30). -/
def step (s : State) : Host.Outcome State Fault Refusal :=
  match s.status with
  | .running =>
    match decode (fetchBytes s) with
    | .ok i => exec i s
    | .error e => raise (decodeFault e) s
  | .halted => .fault .halted
  | .faulted k => .fault (.faulted k)

/-- The state with an instruction of the opcode table stored where `step` fetches next: the image has its
bytes at `pc` and the machine is running. This stands for the load of a program (R261). Log entry 6. -/
def State.withFetchWord (s : State) (nbits w : Nat) : State :=
  { s with status := .running, prog := overlay s.prog s.pc (tableBytes nbits w) }

end Machine

end Sys2Proof
end

