-- ==== Sys2Proof/Ieee.lean ====
section
/-!
DEFINITION. IEEE 754 binary64 said by its values, for the statements: what number a pattern stands for
(`spec/30_encoding.md` R90, `spec/41_arithmetic.md` R130), what "rounded to nearest, ties to even" means (R131)
and which results the operations have (R132, R133, R148, R149). Nothing here is used by the machine, and
nothing here computes the way the machine does (`Machine/Float.lean`).
-/

namespace Sys2Proof

namespace Ieee

/-! ### The parts of a pattern (R90) -/

/-- `P[63]`. -/
def negative (x : F64) : Bool := x.msb

/-- `P[62:52]`, the biased exponent. -/
def exponent (x : F64) : BitVec 11 := x.extractLsb' 52 11

/-- `P[51:0]`, the fraction. -/
def fraction (x : F64) : BitVec 52 := x.extractLsb' 0 52

/-- A finite value: zero, subnormal or normal. -/
def IsFinite (x : F64) : Prop := exponent x ≠ 2047#11

/-- An infinity. -/
def IsInfinite (x : F64) : Prop := exponent x = 2047#11 ∧ fraction x = 0#52

/-- A NaN. -/
def IsNaN (x : F64) : Prop := exponent x = 2047#11 ∧ fraction x ≠ 0#52

/-- `+0.0` or `-0.0`. -/
def zero (neg : Bool) : F64 := if neg then 0x8000000000000000#64 else 0#64

/-- `+inf` or `-inf`. -/
def infinity (neg : Bool) : F64 := if neg then 0xFFF0000000000000#64 else 0x7FF0000000000000#64

/-- The number a finite pattern stands for: bias 1023, 52 fraction bits, subnormals at exponent 0 (R130). -/
def value (x : F64) : ℚ :=
  (if negative x then -1 else 1) *
    (if exponent x = 0#11 then ((fraction x).toNat : ℚ) * 2 ^ (-1074 : ℤ)
     else (2 ^ 52 + ((fraction x).toNat : ℚ)) * 2 ^ (((exponent x).toNat : ℤ) - 1075))

/-! ### Rounding (R131) -/

/-- From this magnitude on, the nearest value of an unbounded exponent range lies past the greatest finite
value. -/
def overflowBound : ℝ := 2 ^ 1024 - 2 ^ 970

/-- `r` is the real number `q` rounded to the nearest binary64 value, "ties to the value with an even last
fraction bit"; too large a magnitude gives the infinity of its sign, and a result has the sign of `q`, a zero
included (R131). For `q = 0` nothing is said of the sign. -/
def RoundsTo (q : ℝ) (r : F64) : Prop :=
  (overflowBound ≤ |q| → IsInfinite r) ∧
  (|q| < overflowBound →
    IsFinite r ∧
    (∀ c, IsFinite c → |(value r : ℝ) - q| ≤ |(value c : ℝ) - q|) ∧
    (∀ c, IsFinite c → |(value c : ℝ) - q| = |(value r : ℝ) - q| → value c ≠ value r →
      (fraction r).toNat % 2 = 0)) ∧
  (q ≠ 0 → (negative r = true ↔ q < 0))

/-! ### The results of the operations (R132) -/

/-- `v` is `a + b`, or `a - b` when `minus` is set. -/
def IsSum (minus : Bool) (a b v : F64) : Prop :=
  let nb := negative b != minus
  (IsNaN a ∨ IsNaN b → IsNaN v) ∧
  (IsInfinite a → IsInfinite b → v = infinity (negative a) ∧ negative a = nb ∨ IsNaN v ∧ negative a ≠ nb) ∧
  (IsInfinite a → IsFinite b → v = infinity (negative a)) ∧
  (IsFinite a → IsInfinite b → v = infinity nb) ∧
  (IsFinite a → IsFinite b →
    let q := value a + (if minus then -value b else value b)
    (q = 0 → v = zero (negative a && nb)) ∧ (q ≠ 0 → RoundsTo (q : ℝ) v))

/-- `v` is `a * b`. -/
def IsProduct (a b v : F64) : Prop :=
  let sign := negative a != negative b
  (IsNaN a ∨ IsNaN b → IsNaN v) ∧
  (IsInfinite a → IsFinite b → value b = 0 → IsNaN v) ∧
  (IsFinite a → value a = 0 → IsInfinite b → IsNaN v) ∧
  (IsInfinite a → IsInfinite b → v = infinity sign) ∧
  (IsInfinite a → IsFinite b → value b ≠ 0 → v = infinity sign) ∧
  (IsFinite a → value a ≠ 0 → IsInfinite b → v = infinity sign) ∧
  (IsFinite a → IsFinite b →
    (value a * value b = 0 → v = zero sign) ∧
    (value a * value b ≠ 0 → RoundsTo ((value a * value b : ℚ) : ℝ) v))

/-- `v` is `a / b`, for a divisor that is not zero. -/
def IsQuotient (a b v : F64) : Prop :=
  let sign := negative a != negative b
  (IsNaN a ∨ IsNaN b → IsNaN v) ∧
  (IsInfinite a → IsInfinite b → IsNaN v) ∧
  (IsInfinite a → IsFinite b → v = infinity sign) ∧
  (IsFinite a → IsInfinite b → v = zero sign) ∧
  (IsFinite a → IsFinite b → value b ≠ 0 →
    (value a = 0 → v = zero sign) ∧ (value a ≠ 0 → RoundsTo ((value a / value b : ℚ) : ℝ) v))

/-- `v` is `sqrt(a)`, for an `a` that is not less than zero (R145). -/
def IsSquareRoot (a v : F64) : Prop :=
  (IsNaN a → IsNaN v) ∧
  (IsInfinite a → v = infinity false) ∧
  (IsFinite a → (value a = 0 → v = a) ∧ (0 < value a → RoundsTo (Real.sqrt (value a : ℝ)) v))

/-- `v` is `|a|`: the sign bit cleared, for a NaN any NaN (R148, R134). -/
def IsAbs (a v : F64) : Prop :=
  (IsNaN a → IsNaN v) ∧
  (¬ IsNaN a → negative v = false ∧ exponent v = exponent a ∧ fraction v = fraction a)

/-- `v` is `floor(a)` (R149): exact, the sign kept where the result is a zero. -/
def IsFloor (a v : F64) : Prop :=
  (IsNaN a → IsNaN v) ∧
  (IsInfinite a → v = a) ∧
  (IsFinite a → IsFinite v ∧ value v = (⌊value a⌋ : ℚ) ∧ (value v = 0 → negative v = negative a))

/-! ### Comparison (R133) -/

/-- The number line with its two extremes; a NaN has no place on it and stands here as a finite one would. -/
def place (x : F64) : WithBot (WithTop ℚ) :=
  if exponent x = 2047#11 then (if negative x then ⊥ else ((⊤ : WithTop ℚ) : WithBot (WithTop ℚ)))
  else ((value x : WithTop ℚ) : WithBot (WithTop ℚ))

/-- Neither operand is a NaN. -/
def Ordered (a b : F64) : Prop := ¬ IsNaN a ∧ ¬ IsNaN b

/-- `a < b`. -/
def Less (a b : F64) : Prop := Ordered a b ∧ place a < place b

/-- `a == b`. -/
def Equal (a b : F64) : Prop := Ordered a b ∧ place a = place b

/-- `a <= b`. -/
def LessOrEqual (a b : F64) : Prop := Ordered a b ∧ place a ≤ place b

end Ieee

end Sys2Proof
end

