-- ==== Sys2Proof/Safety.lean ====
section
/-!
DEFINITION. The terms in which claims about runs are made: what the loader must provide, what holds between
steps, how a run ends, the spec's tables of stack effects and fault kinds, and the named hypotheses the spec
lets a claim make.
-/

namespace Sys2Proof

namespace Machine

/-! ### Runs (R211, R260) -/

/-- `t` is reached from `s` by some number of steps. -/
inductive Reaches : State → State → Prop where
  /-- No step. -/
  | refl (s : State) : Reaches s s
  /-- One more step. -/
  | tail {s t u : State} : Reaches s t → step t = .next u → Reaches s u

/-- `t` is reached from `s` by some number of steps, none of which is a `pop` to data address `n` (R54, R65). -/
inductive ReachesWithoutStore (n : Nat) : State → State → Prop where
  /-- No step. -/
  | refl (s : State) : ReachesWithoutStore n s s
  /-- One more step. -/
  | tail {s t u : State} : ReachesWithoutStore n s t → step t = .next u →
      (∀ e, decode (t.prog.drop t.pc) = .ok (.pop (.memory e)) → dataAddress t e ≠ some n) →
      ReachesWithoutStore n s u

/-- A run from `s` ends in `Halted`, "the only successful end" (R211). -/
def HaltsFrom (s : State) : Prop := ∃ t, Reaches s t ∧ t.status = .halted

/-- A run from `s` ends in `Faulted(k)` (R211). -/
def FaultsFrom (s : State) (k : FaultKind) : Prop := ∃ t, Reaches s t ∧ t.status = .faulted k

/-- A safe run: no fault is ever raised. -/
def SafeFrom (s : State) : Prop := ∀ t k, Reaches s t → t.status ≠ .faulted k

/-- What the loader must provide: `PB <= 2^53 - 16` (R7, R261). Log entry 13. -/
def ImageFits (s : State) : Prop := s.prog.length ≤ 2 ^ 53 - 16

/-! ### What holds between steps -/

/-- A return address: the offset of the byte after some `call` of the image, as a double (R35). -/
def IsReturnAddress (pb : Nat) (v : F64) : Prop := ∃ n, 10 ≤ n ∧ n ≤ pb ∧ v = ofNat n

/-- Data memory is canonical and lists no byte past VRAM (R51, R63); every call-stack element is a return
address (R35); the image fits (R261). -/
structure Inv (s : State) : Prop where
  mem_wf : s.mem.wf
  mem_bound : ∀ c ∈ s.mem, c.1 < vramOffset s.platform.vramBytes
  return_addresses : ∀ v ∈ s.cs, IsReturnAddress s.prog.length v
  image_fits : ImageFits s

/-! ### The spec's tables -/

/-- "needs depth" (R32). -/
def neededDepth : Instr → Nat
  | .out | .sqrt | .sin | .cos | .abs | .flr | .pop _ => 1
  | .add | .sub | .mul | .div | .pow | .jae _ | .ja _ | .jb _ | .jbe _ | .je _ | .jne _ => 2
  | .inp | .push _ | .call _ | .ret | .jmp _ | .upd | .clr | .hlt => 0

/-- "pushes" (R32); what is popped is what is needed. -/
def pushCount : Instr → Nat
  | .inp | .add | .sub | .mul | .div | .pow | .sqrt | .sin | .cos | .abs | .flr | .push _ => 1
  | .out | .pop _ | .jae _ | .ja _ | .jb _ | .jbe _ | .je _ | .jne _ | .call _ | .ret | .jmp _ | .upd
  | .clr | .hlt => 0

/-- The kinds an instruction can raise in its execute stage (R221). -/
def executeKinds : Instr → List FaultKind
  | .inp => [.ioError]
  | .out => [.notEnoughValuesForOperation, .ioError]
  | .add | .sub | .mul | .pow | .sin | .cos | .abs | .flr | .ret => [.notEnoughValuesForOperation]
  | .div | .sqrt => [.notEnoughValuesForOperation, .mathError]
  | .push _ => [.invalidCmdArgument]
  | .pop _ | .jae _ | .ja _ | .jb _ | .jbe _ | .je _ | .jne _ =>
    [.notEnoughValuesForOperation, .invalidCmdArgument]
  | .jmp _ | .call _ => [.invalidCmdArgument]
  | .upd | .clr | .hlt => []

/-! ### Terms of the statements -/

/-- The double `v` is the natural number `n`. -/
def IsNatural (v : F64) (n : Nat) : Prop := Ieee.IsFinite v ∧ Ieee.value v = (n : ℚ)

/-- The length of `push` and `pop` with an operand of this shape: 3, 10 or 11 (R86). -/
def addressedLength : EaForm → Nat
  | .reg _ => 3
  | .cst _ => 10
  | .regCst _ _ => 11

/-- The length that a mode byte of `push` or `pop` announces: 2, plus 1 if REG, plus 8 if CST (R94). -/
def lengthOfMode (m : Byte) : Nat :=
  2 + (if m &&& 0x02#8 ≠ 0#8 then 1 else 0) + (if m &&& 0x04#8 ≠ 0#8 then 8 else 0)

/-- The comparison jump `i` with target `t` and condition `taken`, at a state whose stack holds the two operands
above `rest`: both are popped, the target is converted only when the jump is taken (R185). -/
def JumpsWhen (taken : Prop) (i : Instr) (t : F64) (s : State) (rest : List F64) : Prop :=
  (taken → ∀ n, IsNatural t n → exec i s = .next { s with vs := rest, pc := n }) ∧
  (taken → (∀ n, ¬ IsNatural t n) →
    exec i s = .next { s with status := .faulted .invalidCmdArgument }) ∧
  (¬ taken → exec i s = .next { s with vs := rest, pc := s.pc + 10 })

/-- Two patterns that no instruction can tell apart (R134): the same, or two NaNs. -/
def SameUpToNaN (x y : F64) : Prop := x = y ∨ (Ieee.IsNaN x ∧ Ieee.IsNaN y)

/-- Two answers of IN that no instruction can tell apart. -/
def AnswersAgree : InAnswer → InAnswer → Prop
  | .value v, .value w => SameUpToNaN v w
  | .fail, .fail => True
  | .silent, .silent => True
  | .value _, .fail | .value _, .silent | .fail, .value _ | .fail, .silent | .silent, .value _
  | .silent, .fail => False

/-- Two states that differ only in the bits of NaNs and in how many were drawn (R134). -/
structure AgreeUpToNaN (s t : State) : Prop where
  status : s.status = t.status
  pc : s.pc = t.pc
  regs : ∀ r, SameUpToNaN (readReg s r) (readReg t r)
  vs : List.Forall₂ SameUpToNaN s.vs t.vs
  cs : s.cs = t.cs
  ram : ∀ i, i < Config.ramCells → SameUpToNaN (readCell s.mem i) (readCell t.mem i)
  vram : ∀ j, j < s.platform.vramBytes → readVram s.mem j = readVram t.mem j
  prog : s.prog = t.prog
  input : List.Forall₂ AnswersAgree s.input t.input
  outAnswers : s.outAnswers = t.outAnswers
  output : List.Forall₂ SameUpToNaN s.output t.output
  frames : s.frames = t.frames
  platform : s.platform = t.platform

/-! ### Hypotheses the spec lets a claim name -/

/-- P-exact (R150): "not guaranteed by the C standard"; a claim that needs it takes it as a hypothesis. -/
def PExact : Prop :=
  ∀ (a b r : F64) (z : ℤ) (n : ℕ), Ieee.IsFinite a → Ieee.value a = z → IsNatural b n →
    Ieee.IsFinite r → Ieee.value r = (z : ℚ) ^ n → |Ieee.value r| ≤ 2 ^ 53 →
    Ieee.IsFinite (fPow a b) ∧ Ieee.value (fPow a b) = Ieee.value r

/-- What the OPEN parameter `ExitCode` must satisfy (R7, R223): injective on the ends of a run and nonzero for
every fault. Log entry 15. -/
structure IsExitCode (code : Status → Int) : Prop where
  injective : ∀ x y, x ≠ .running → y ≠ .running → code x = code y → x = y
  fault_nonzero : ∀ k, code (.faulted k) ≠ 0

end Machine

end Sys2Proof
end

