-- ==== Sys2Proof/Certificates/Slice0/Obligations.lean ====
section
/-!
DEFINITION. The statements for the provers. Where a next state is written as `{ s with … }`, every field that
is not named is unchanged: that is the instruction's frame. That a fault changes STATUS alone is the spec's own choice
(R225, D6; log entry 19) in every statement that says it.
-/

open Sys2Proof Sys2Proof.Machine

/-! ### Decoding and encoding -/

/-- Every well-formed instruction is decoded from its encoding, whatever follows it. -/
def Obligations.DecodeInvertsEncode : Prop :=
  ∀ (i : Instr) (rest : List Byte), i.wf = true → decode (encode i ++ rest) = .ok i

/-- Bytes that decode are the encoding of the instruction they decode to, of the length R94 gives. -/
def Obligations.DecodedBytesAreTheEncoding : Prop :=
  ∀ (bytes : List Byte) (i : Instr), decode bytes = .ok i →
    i.wf = true ∧ encode i <+: bytes ∧ (encode i).length = i.length

/-- The worked decodes of R114, row by row; for a row that ends in dots, whatever follows. -/
def Obligations.WorkedDecodes : Prop :=
  (decode [0x02#8] = .ok .add ∧ Instr.add.length = 1) ∧
  (decode [0x19#8] = .ok .hlt ∧ Instr.hlt.length = 1) ∧
  (decode [0x0A#8, 0x04#8, 0#8, 0#8, 0#8, 0#8, 0#8, 0#8, 0#8, 0x40#8] =
      .ok (.push (.direct (.cst 0x4000000000000000#64))) ∧
    (Instr.push (.direct (.cst 0x4000000000000000#64))).length = 10) ∧
  (decode [0x0A#8, 0x02#8, 0x01#8] = .ok (.push (.direct (.reg 0))) ∧
    (Instr.push (.direct (.reg 0))).length = 3) ∧
  (decode [0x0A#8, 0x06#8, 0x01#8, 0#8, 0#8, 0#8, 0#8, 0#8, 0#8, 0x14#8, 0x40#8] =
      .ok (.push (.direct (.regCst 0 0x4014000000000000#64))) ∧
    (Instr.push (.direct (.regCst 0 0x4014000000000000#64))).length = 11) ∧
  (decode [0x0A#8, 0x05#8, 0#8, 0#8, 0#8, 0#8, 0#8, 0#8, 0x14#8, 0x40#8] =
      .ok (.push (.memory (.cst 0x4014000000000000#64))) ∧
    (Instr.push (.memory (.cst 0x4014000000000000#64))).length = 10) ∧
  (decode [0x0A#8, 0x03#8, 0x02#8] = .ok (.push (.memory (.reg 1))) ∧
    (Instr.push (.memory (.reg 1))).length = 3) ∧
  (decode [0x0B#8, 0x07#8, 0x02#8, 0#8, 0#8, 0#8, 0#8, 0#8, 0#8, 0x14#8, 0x40#8] =
      .ok (.pop (.memory (.regCst 1 0x4014000000000000#64))) ∧
    (Instr.pop (.memory (.regCst 1 0x4014000000000000#64))).length = 11) ∧
  (decode [0x0B#8, 0x02#8, 0x12#8] = .ok (.pop (.direct (.reg 17))) ∧
    (Instr.pop (.direct (.reg 17))).length = 3) ∧
  (decode [0x0E#8, 0x04#8, 0#8, 0#8, 0#8, 0#8, 0#8, 0#8, 0#8, 0#8] = .ok (.jmp 0#64) ∧
    (Instr.jmp 0#64).length = 10) ∧
  (decode [0x10#8, 0x04#8, 0#8, 0#8, 0#8, 0#8, 0#8, 0#8, 0x2A#8, 0x40#8] =
      .ok (.ja 0x402A000000000000#64) ∧
    (Instr.ja 0x402A000000000000#64).length = 10) ∧
  (∃ e, decode [0x1A#8] = .error e ∧ decodeFault e = .invalidCommand) ∧
  (∃ e, decode [0x0A#8, 0x00#8] = .error e ∧ decodeFault e = .invalidCmdArgument) ∧
  (∀ rest, ∃ e, decode (0x0A#8 :: 0x0C#8 :: rest) = .error e ∧ decodeFault e = .invalidCmdArgument) ∧
  (∀ rest, ∃ e, decode (0x0B#8 :: 0x04#8 :: rest) = .error e ∧ decodeFault e = .invalidCmdArgument) ∧
  (∃ e, decode [0x0A#8, 0x02#8, 0x00#8] = .error e ∧ decodeFault e = .invalidCmdArgument) ∧
  (∃ e, decode [0x0A#8, 0x02#8, 0x13#8] = .error e ∧ decodeFault e = .invalidCmdArgument) ∧
  (∀ rest, ∃ e, decode (0x0E#8 :: 0x02#8 :: rest) = .error e ∧ decodeFault e = .invalidCmdArgument) ∧
  (∃ e, decode [0x0A#8, 0x04#8, 0#8, 0#8, 0#8] = .error e ∧ decodeFault e = .reachedEndNotHalted)

/-! ### The step -/

/-- A step of a running machine runs the instruction its bytes at `pc` decode to. -/
def Obligations.StepRunsTheDecodedInstruction : Prop :=
  ∀ (s : State) (i : Instr), s.status = .running → decode (s.prog.drop s.pc) = .ok i → step s = exec i s

/-- At or past the end of the image a running machine faults with `ReachedEndNotHalted`. -/
def Obligations.FetchPastTheImageFaults : Prop :=
  ∀ s : State, s.status = .running → s.prog.length ≤ s.pc →
    step s = .next { s with status := .faulted .reachedEndNotHalted }

/-- An opcode byte 26 to 255 faults with `InvalidCommand`, whatever follows it. -/
def Obligations.UnknownOpcodeFaults : Prop :=
  ∀ (s : State) (op : Byte), s.status = .running → s.prog[s.pc]? = some op → 26 ≤ op.toNat →
    step s = .next { s with status := .faulted .invalidCommand }

/-- A mode byte with a bit above bit 2, or with neither REG nor CST, faults `push` and `pop`, whatever follows;
with each of the six other masks, a `push` whose fields lie inside the image decodes. That the CPU faults is the
spec's own choice, which the model follows (R101, D12; log entry 12). -/
def Obligations.ModeByteLegality : Prop :=
  ∀ (s : State) (op m : Byte), s.status = .running → s.prog[s.pc]? = some op → s.prog[s.pc + 1]? = some m →
    ((op = 0x0A#8 ∨ op = 0x0B#8) → (m &&& 0xF8#8 ≠ 0#8 ∨ m &&& 0x06#8 = 0#8) →
      step s = .next { s with status := .faulted .invalidCmdArgument }) ∧
    (op = 0x0A#8 → m &&& 0xF8#8 = 0#8 → m &&& 0x06#8 ≠ 0#8 → s.pc + lengthOfMode m ≤ s.prog.length →
      (∀ r, s.prog[s.pc + 2]? = some r → m &&& 0x02#8 ≠ 0#8 → 1 ≤ r.toNat ∧ r.toNat ≤ 18) →
      ∃ a : Operand, a.mode = m ∧ decode (s.prog.drop s.pc) = .ok (.push a))

/-- The legality table of `pop`: CST alone faults; with each of the five other masks, a `pop` whose fields lie
inside the image decodes. That mode byte 0x06 is one of the five is `POP_REG_CST = store`, the spec's default
(R172, D13; log entry 12). -/
def Obligations.PopModeLegality : Prop :=
  ∀ (s : State) (m : Byte), s.status = .running → s.prog[s.pc]? = some 0x0B#8 → s.prog[s.pc + 1]? = some m →
    (m = 0x04#8 → step s = .next { s with status := .faulted .invalidCmdArgument }) ∧
    (m ∈ [0x02#8, 0x03#8, 0x05#8, 0x06#8, 0x07#8] → s.pc + lengthOfMode m ≤ s.prog.length →
      (∀ r, s.prog[s.pc + 2]? = some r → m &&& 0x02#8 ≠ 0#8 → 1 ≤ r.toNat ∧ r.toNat ≤ 18) →
      ∃ a : Operand, a.mode = m ∧ decode (s.prog.drop s.pc) = .ok (.pop a))

/-- A register index of 0 or above 18 faults at decode, also when the constant after it is missing. That the CPU
faults is the spec's own choice, which the model follows (R103, D14; log entry 12). -/
def Obligations.RegisterIndexLegality : Prop :=
  ∀ (s : State) (op m r : Byte), s.status = .running → s.prog[s.pc]? = some op →
    s.prog[s.pc + 1]? = some m → s.prog[s.pc + 2]? = some r → (op = 0x0A#8 ∨ op = 0x0B#8) →
    m &&& 0x02#8 ≠ 0#8 → r.toNat = 0 ∨ 18 < r.toNat →
    step s = .next { s with status := .faulted .invalidCmdArgument }

/-- A control-flow instruction whose mode byte is not 0x04 faults, whatever follows: `CF_MODE_CHECK = fault`, the
spec's default (log entry 12). -/
def Obligations.TargetModeLegality : Prop :=
  ∀ (s : State) (op m : Byte), s.status = .running → s.prog[s.pc]? = some op → s.prog[s.pc + 1]? = some m →
    op ∈ [0x0C#8, 0x0E#8, 0x0F#8, 0x10#8, 0x11#8, 0x12#8, 0x13#8, 0x14#8] → m ≠ 0x04#8 →
    step s = .next { s with status := .faulted .invalidCmdArgument }

/-- An instruction cut off by the end of the image never executes, not even in part. That its missing fields
fault is the spec's own choice, which the model follows (R83, D8; log entry 12). -/
def Obligations.CutOffInstructionFaults : Prop :=
  ∀ (s : State) (i : Instr) (n : Nat), s.status = .running → i.wf = true → n < i.length →
    s.prog.drop s.pc = (encode i).take n →
    step s = .next { s with status := .faulted .reachedEndNotHalted }

/-- A machine that is halted or faulted has no step, and neither has a request of `in` that the host never
answers. That the answer is a named stop is the model's own way to say so (log entries 1 and 9). -/
def Obligations.StatesWithoutAStep : Prop :=
  (∀ s : State, s.status = .halted → step s = .fault .halted) ∧
  (∀ (s : State) (k : FaultKind), s.status = .faulted k → step s = .fault (.faulted k)) ∧
  (∀ (s : State) (rest : List InAnswer), s.input = .silent :: rest → exec .inp s = .fault .awaitingInput)

/-! ### Input and output -/

/-- `in`: a value is pushed, `Fail` and an exhausted source raise `IoError`; an answer is consumed also when it
is `Fail`. -/
def Obligations.InResult : Prop :=
  ∀ s : State,
    (∀ v rest, s.input = .value v :: rest →
      exec .inp s = .next { s with input := rest, vs := v :: s.vs, pc := s.pc + 1 }) ∧
    (∀ rest, s.input = .fail :: rest →
      exec .inp s = .next { s with input := rest, status := .faulted .ioError }) ∧
    (s.input = [] → exec .inp s = .next { s with status := .faulted .ioError })

/-- `out`: the depth check, then the transfer; on `Ok` the top moves to `OUTPUT`, on `Fail` it stays. The
listed answers come first; with none listed the host answers either way (log entry 8). -/
def Obligations.OutResult : Prop :=
  ∀ s : State,
    (s.vs = [] → exec .out s = .next { s with status := .faulted .notEnoughValuesForOperation }) ∧
    (∀ v rest more, s.vs = v :: rest → s.outAnswers = .ok :: more →
      exec .out s =
        .next { s with vs := rest, outAnswers := more, output := s.output ++ [v], pc := s.pc + 1 }) ∧
    (∀ v rest more, s.vs = v :: rest → s.outAnswers = .fail :: more →
      exec .out s = .next { s with status := .faulted .ioError }) ∧
    (∀ v rest, s.vs = v :: rest → s.outAnswers = [] →
      exec .out s = .next { s with vs := rest, output := s.output ++ [v], pc := s.pc + 1 } ∨
      exec .out s = .next { s with status := .faulted .ioError })

/-! ### Arithmetic -/

/-- `add`: both operands are replaced by a correctly rounded sum; too few values fault. A NaN counts as one
draw (log entry 2). -/
def Obligations.AddResult : Prop :=
  (∀ (s : State) (a b : F64) (rest : List F64), s.vs = b :: a :: rest →
    ∃ v d, exec .add s = .next { s with vs := v :: rest, pc := s.pc + 1, nanDraws := d } ∧
      Ieee.IsSum false a b v ∧ (¬ Ieee.IsNaN v → d = s.nanDraws)) ∧
  (∀ s : State, s.vs.length < 2 →
    exec .add s = .next { s with status := .faulted .notEnoughValuesForOperation })

/-- `sub`: `a - b` with `a` the deeper value, correctly rounded; too few values fault. -/
def Obligations.SubResult : Prop :=
  (∀ (s : State) (a b : F64) (rest : List F64), s.vs = b :: a :: rest →
    ∃ v d, exec .sub s = .next { s with vs := v :: rest, pc := s.pc + 1, nanDraws := d } ∧
      Ieee.IsSum true a b v ∧ (¬ Ieee.IsNaN v → d = s.nanDraws)) ∧
  (∀ s : State, s.vs.length < 2 →
    exec .sub s = .next { s with status := .faulted .notEnoughValuesForOperation })

/-- `mul`: the product, correctly rounded; too few values fault. -/
def Obligations.MulResult : Prop :=
  (∀ (s : State) (a b : F64) (rest : List F64), s.vs = b :: a :: rest →
    ∃ v d, exec .mul s = .next { s with vs := v :: rest, pc := s.pc + 1, nanDraws := d } ∧
      Ieee.IsProduct a b v ∧ (¬ Ieee.IsNaN v → d = s.nanDraws)) ∧
  (∀ s : State, s.vs.length < 2 →
    exec .mul s = .next { s with status := .faulted .notEnoughValuesForOperation })

/-- `div`: the quotient, correctly rounded; a zero divisor of either sign raises `MathError` with both operands
kept; too few values fault first. -/
def Obligations.DivResult : Prop :=
  (∀ (s : State) (a b : F64) (rest : List F64), s.vs = b :: a :: rest →
    (b ≠ Ieee.zero false → b ≠ Ieee.zero true →
      ∃ v d, exec .div s = .next { s with vs := v :: rest, pc := s.pc + 1, nanDraws := d } ∧
        Ieee.IsQuotient a b v ∧ (¬ Ieee.IsNaN v → d = s.nanDraws)) ∧
    (b = Ieee.zero false ∨ b = Ieee.zero true → exec .div s = .next { s with status := .faulted .mathError })) ∧
  (∀ s : State, s.vs.length < 2 →
    exec .div s = .next { s with status := .faulted .notEnoughValuesForOperation })

/-- `sqrt`: the root, correctly rounded, also of `-0.0` and of a NaN; a value less than zero raises `MathError`
with the operand kept; an empty stack faults first. -/
def Obligations.SqrtResult : Prop :=
  (∀ (s : State) (a : F64) (rest : List F64), s.vs = a :: rest →
    (¬ Ieee.Less a (Ieee.zero false) →
      ∃ v d, exec .sqrt s = .next { s with vs := v :: rest, pc := s.pc + 1, nanDraws := d } ∧
        Ieee.IsSquareRoot a v ∧ (¬ Ieee.IsNaN v → d = s.nanDraws)) ∧
    (Ieee.Less a (Ieee.zero false) → exec .sqrt s = .next { s with status := .faulted .mathError })) ∧
  (∀ s : State, s.vs = [] →
    exec .sqrt s = .next { s with status := .faulted .notEnoughValuesForOperation })

/-- `abs`: the sign bit is cleared; an empty stack faults. -/
def Obligations.AbsResult : Prop :=
  (∀ (s : State) (a : F64) (rest : List F64), s.vs = a :: rest →
    ∃ v d, exec .abs s = .next { s with vs := v :: rest, pc := s.pc + 1, nanDraws := d } ∧
      Ieee.IsAbs a v ∧ (¬ Ieee.IsNaN v → d = s.nanDraws)) ∧
  (∀ s : State, s.vs = [] →
    exec .abs s = .next { s with status := .faulted .notEnoughValuesForOperation })

/-- `flr`: the greatest integer not above the operand, exact; an empty stack faults. -/
def Obligations.FlrResult : Prop :=
  (∀ (s : State) (a : F64) (rest : List F64), s.vs = a :: rest →
    ∃ v d, exec .flr s = .next { s with vs := v :: rest, pc := s.pc + 1, nanDraws := d } ∧
      Ieee.IsFloor a v ∧ (¬ Ieee.IsNaN v → d = s.nanDraws)) ∧
  (∀ s : State, s.vs = [] →
    exec .flr s = .next { s with status := .faulted .notEnoughValuesForOperation })

/-- `pow`: `FPow(a, b)` with `a` the deeper value, no domain error; too few values fault. -/
def Obligations.PowResult : Prop :=
  (∀ (s : State) (a b : F64) (rest : List F64), s.vs = b :: a :: rest →
    exec .pow s = .next { s with vs := fPow a b :: rest, pc := s.pc + 1 }) ∧
  (∀ s : State, s.vs.length < 2 →
    exec .pow s = .next { s with status := .faulted .notEnoughValuesForOperation })

/-- `sin` and `cos`: `FSin(a)` and `FCos(a)`; an empty stack faults. -/
def Obligations.TrigonometricResults : Prop :=
  (∀ (s : State) (a : F64) (rest : List F64), s.vs = a :: rest →
    exec .sin s = .next { s with vs := fSin a :: rest, pc := s.pc + 1 } ∧
    exec .cos s = .next { s with vs := fCos a :: rest, pc := s.pc + 1 }) ∧
  (∀ s : State, s.vs = [] →
    exec .sin s = .next { s with status := .faulted .notEnoughValuesForOperation } ∧
    exec .cos s = .next { s with status := .faulted .notEnoughValuesForOperation })

/-- The properties of `FSin` and `FCos`: P-sin0, P-cos0, P-trig-inf, P-nan, P-range (R150, which the spec takes
from general knowledge; log entry 4). -/
def Obligations.TrigonometricProperties : Prop :=
  (∀ n, fSin (Ieee.zero n) = Ieee.zero n ∧ fCos (Ieee.zero n) = 0x3FF0000000000000#64) ∧
  (∀ n, Ieee.IsNaN (fSin (Ieee.infinity n)) ∧ Ieee.IsNaN (fCos (Ieee.infinity n))) ∧
  (∀ a, Ieee.IsNaN a → Ieee.IsNaN (fSin a) ∧ Ieee.IsNaN (fCos a)) ∧
  (∀ a, Ieee.IsFinite a →
    Ieee.IsFinite (fSin a) ∧ |Ieee.value (fSin a)| ≤ 1 ∧ Ieee.IsFinite (fCos a) ∧ |Ieee.value (fCos a)| ≤ 1)

/-- The properties of `FPow`: P-pow-one, P-nan, P-pow-neg, P-pow-zero, P-pow-inf. An odd integer is said by its
value (R150; log entry 4). -/
def Obligations.PowerProperties : Prop :=
  let one : F64 := 0x3FF0000000000000#64
  let Odd : F64 → Prop := fun b => ∃ z : ℤ, Ieee.value b = ((2 * z + 1 : ℤ) : ℚ)
  (∀ a n, fPow a (Ieee.zero n) = one) ∧ (∀ b, fPow one b = one) ∧
  (∀ a b, Ieee.IsNaN a ∨ Ieee.IsNaN b → a ≠ one → b ≠ Ieee.zero false → b ≠ Ieee.zero true →
    Ieee.IsNaN (fPow a b)) ∧
  (∀ a b, Ieee.IsFinite a → Ieee.value a < 0 → Ieee.IsFinite b → (∀ z : ℤ, Ieee.value b ≠ z) →
    Ieee.IsNaN (fPow a b)) ∧
  (∀ n b, Ieee.IsFinite b → Ieee.value b < 0 →
    (Odd b → fPow (Ieee.zero n) b = Ieee.infinity n) ∧
    (¬ Odd b → fPow (Ieee.zero n) b = Ieee.infinity false)) ∧
  (∀ n b, Ieee.IsFinite b → 0 < Ieee.value b →
    (Odd b → fPow (Ieee.zero n) b = Ieee.zero n) ∧
    (¬ Odd b → fPow (Ieee.zero n) b = Ieee.zero false)) ∧
  (∀ n, fPow 0xBFF0000000000000#64 (Ieee.infinity n) = one) ∧
  (∀ a n, Ieee.IsFinite a → |Ieee.value a| < 1 →
    fPow a (Ieee.infinity n) = if n then Ieee.infinity false else Ieee.zero false) ∧
  (∀ a n, Ieee.IsInfinite a ∨ (Ieee.IsFinite a ∧ 1 < |Ieee.value a|) →
    fPow a (Ieee.infinity n) = if n then Ieee.zero false else Ieee.infinity false) ∧
  (∀ b, Ieee.IsFinite b →
    (Ieee.value b < 0 → fPow (Ieee.infinity false) b = Ieee.zero false) ∧
    (0 < Ieee.value b → fPow (Ieee.infinity false) b = Ieee.infinity false) ∧
    (Ieee.value b < 0 → Odd b → fPow (Ieee.infinity true) b = Ieee.zero true) ∧
    (Ieee.value b < 0 → ¬ Odd b → fPow (Ieee.infinity true) b = Ieee.zero false) ∧
    (0 < Ieee.value b → Odd b → fPow (Ieee.infinity true) b = Ieee.infinity true) ∧
    (0 < Ieee.value b → ¬ Odd b → fPow (Ieee.infinity true) b = Ieee.infinity false))

/-- `FromNat` is exact up to `2^53`. -/
def Obligations.FromNatIsExact : Prop := ∀ n : Nat, n ≤ 2 ^ 53 → IsNatural (ofNat n) n

/-! ### Conversions -/

/-- `ToAddr` accepts exactly the integers from 0 to `1023 + VRAM_BYTES`, and the data address of an operand is
`ToAddr` of its effective value with the platform's `VRAM_BYTES`. That a fraction has no address is
`ADDR_CONV = strict`, the spec's default (R53, D9; log entry 11). -/
def Obligations.ToAddrAcceptsExactIntegers : Prop :=
  (∀ (size : Nat) (v : F64) (n : Nat), toAddr size v = some n ↔ IsNatural v n ∧ n < 1024 + size) ∧
  (∀ (s : State) (e : EaForm) (n : Nat), dataAddress s e = some n ↔
    ∃ v, effectiveValue s e = some v ∧ IsNatural v n ∧ n < 1024 + s.platform.vramBytes)

/-- `ToOffset` accepts exactly the natural numbers, with no upper bound. That a fraction has no offset is
`ADDR_CONV = strict`, the spec's default (R181, D10; log entry 11). -/
def Obligations.ToOffsetAcceptsExactIntegers : Prop :=
  ∀ (v : F64) (n : Nat), toOffset v = some n ↔ IsNatural v n

/-- `ToByte` accepts exactly the values in the open interval (-1, 256) and rounds them toward zero:
`BYTE_CONV = trunc-or-fault`, the spec's default (R59, D11; log entry 11). -/
def Obligations.ToByteTruncates : Prop :=
  ∀ (v : F64) (b : Byte), toByte v = some b ↔
    Ieee.IsFinite v ∧ -1 < Ieee.value v ∧ Ieee.value v < 256 ∧ (b.toNat : ℤ) = ⌊|Ieee.value v|⌋

/-- The effective value of an operand; the sum of register and constant is the correctly rounded one, and is
`none` only where it is a NaN. -/
def Obligations.EffectiveValue : Prop :=
  ∀ (s : State) (r : Reg) (c : F64),
    effectiveValue s (.reg r) = some s.regs[r] ∧
    effectiveValue s (.cst c) = some c ∧
    (∀ v, effectiveValue s (.regCst r c) = some v → ¬ Ieee.IsNaN v ∧ Ieee.IsSum false s.regs[r] c v) ∧
    (effectiveValue s (.regCst r c) = none → ∀ v, Ieee.IsNaN v → Ieee.IsSum false s.regs[r] c v)

/-! ### push and pop -/

/-- `push` without RAM: the register, the constant, or their correctly rounded sum. -/
def Obligations.PushDirect : Prop :=
  ∀ (s : State) (r : Reg) (c : F64),
    exec (.push (.direct (.reg r))) s = .next { s with vs := s.regs[r] :: s.vs, pc := s.pc + 3 } ∧
    exec (.push (.direct (.cst c))) s = .next { s with vs := c :: s.vs, pc := s.pc + 10 } ∧
    ∃ v d, exec (.push (.direct (.regCst r c))) s =
        .next { s with vs := v :: s.vs, pc := s.pc + 11, nanDraws := d } ∧
      Ieee.IsSum false s.regs[r] c v ∧ (¬ Ieee.IsNaN v → d = s.nanDraws)

/-- `push` with RAM: the RAM cell bit for bit, or the VRAM byte as a number; a value that is no data address
faults. -/
def Obligations.PushMemory : Prop :=
  ∀ (s : State) (e : EaForm),
    (∀ n, dataAddress s e = some n → n < 1024 →
      exec (.push (.memory e)) s =
        .next { s with vs := readCell s.mem n :: s.vs, pc := s.pc + addressedLength e }) ∧
    (∀ n, dataAddress s e = some n → 1024 ≤ n →
      ∃ v, exec (.push (.memory e)) s = .next { s with vs := v :: s.vs, pc := s.pc + addressedLength e } ∧
        IsNatural v (readByte s.mem (8192 + (n - 1024))).toNat) ∧
    (dataAddress s e = none →
      exec (.push (.memory e)) s = .next { s with status := .faulted .invalidCmdArgument })

/-- `pop` to a register: the value is moved; with REG and CST the constant has no effect
(`POP_REG_CST = store`, the spec's default, log entry 12); an empty stack faults. -/
def Obligations.PopRegister : Prop :=
  ∀ (s : State) (r : Reg) (c : F64),
    (∀ v rest, s.vs = v :: rest →
      exec (.pop (.direct (.reg r))) s =
        .next { s with vs := rest, regs := s.regs.set r v, pc := s.pc + 3 } ∧
      exec (.pop (.direct (.regCst r c))) s =
        .next { s with vs := rest, regs := s.regs.set r v, pc := s.pc + 11 }) ∧
    (s.vs = [] →
      exec (.pop (.direct (.reg r))) s =
        .next { s with status := .faulted .notEnoughValuesForOperation } ∧
      exec (.pop (.direct (.regCst r c))) s =
        .next { s with status := .faulted .notEnoughValuesForOperation })

/-- `pop` to a RAM cell: the cell holds the value bit for bit and every byte outside it is as before. -/
def Obligations.PopRamCell : Prop :=
  ∀ (s : State) (e : EaForm) (v : F64) (rest : List F64) (n : Nat), s.mem.wf → s.vs = v :: rest →
    dataAddress s e = some n → n < 1024 →
    ∃ m, exec (.pop (.memory e)) s =
        .next { s with vs := rest, mem := m, pc := s.pc + addressedLength e } ∧
      readCell m n = v ∧
      (∀ a, a < 8 * n ∨ 8 * n + 8 ≤ a → readByte m a = readByte s.mem a)

/-- `pop` to a VRAM byte: the byte holds `ToByte` of the value and every other byte is as before; a value that
is no byte faults and stays on the stack. -/
def Obligations.PopVramByte : Prop :=
  ∀ (s : State) (e : EaForm) (v : F64) (rest : List F64) (n : Nat), s.mem.wf → s.vs = v :: rest →
    dataAddress s e = some n → 1024 ≤ n →
    (∀ b, toByte v = some b →
      ∃ m, exec (.pop (.memory e)) s =
          .next { s with vs := rest, mem := m, pc := s.pc + addressedLength e } ∧
        readByte m (8192 + (n - 1024)) = b ∧
        (∀ a, a ≠ 8192 + (n - 1024) → readByte m a = readByte s.mem a)) ∧
    (toByte v = none →
      exec (.pop (.memory e)) s = .next { s with status := .faulted .invalidCmdArgument })

/-- The checks of `pop` come in the order destination, depth, address: an order the spec marks as its own
(R163, R230, D7; log entry 19). The first clause is about a `pop` the decoder never delivers: that its meaning
answers as R102 does for its encoding is the model's choice (log entry 17). -/
def Obligations.PopChecksInOrder : Prop :=
  ∀ (s : State) (e : EaForm) (c : F64),
    exec (.pop (.direct (.cst c))) s = .next { s with status := .faulted .invalidCmdArgument } ∧
    (s.vs = [] → exec (.pop (.memory e)) s =
      .next { s with status := .faulted .notEnoughValuesForOperation }) ∧
    (s.vs ≠ [] → dataAddress s e = none →
      exec (.pop (.memory e)) s = .next { s with status := .faulted .invalidCmdArgument })

/-- A RAM cell reads as what was last written to it: after `pop` stored a value, and after any number of steps
that store nothing to that cell, `push` from it brings the value back bit for bit. -/
def Obligations.StoreThenLoadIsExact : Prop :=
  ∀ (s t u : State) (e e' : EaForm) (v : F64) (rest : List F64) (n : Nat), s.mem.wf → s.vs = v :: rest →
    dataAddress s e = some n → n < 1024 → exec (.pop (.memory e)) s = .next t →
    ReachesWithoutStore n t u → dataAddress u e' = some n →
    exec (.push (.memory e')) u = .next { u with vs := v :: u.vs, pc := u.pc + addressedLength e' }

/-! ### Control transfer -/

/-- `jmp` to a natural number goes there; any other target faults at the `jmp`. That a fraction is such a target
is `ADDR_CONV = strict`, the spec's default (R181, D10; log entry 11). -/
def Obligations.JmpResult : Prop :=
  ∀ (s : State) (t : F64),
    (∀ n, IsNatural t n → exec (.jmp t) s = .next { s with pc := n }) ∧
    ((∀ n, ¬ IsNatural t n) → exec (.jmp t) s = .next { s with status := .faulted .invalidCmdArgument })

/-- `call` pushes the offset of the next instruction, exactly, and goes to the target; a target that is no
natural number faults before the push. That a fraction is such a target is `ADDR_CONV = strict`, the spec's
default (R181, D10; log entry 11). -/
def Obligations.CallResult : Prop :=
  ∀ (s : State) (t : F64), s.pc + 10 ≤ 2 ^ 53 →
    (∀ n, IsNatural t n →
      ∃ v, exec (.call t) s = .next { s with cs := v :: s.cs, pc := n } ∧ IsNatural v (s.pc + 10)) ∧
    ((∀ n, ¬ IsNatural t n) → exec (.call t) s = .next { s with status := .faulted .invalidCmdArgument })

/-- `ret` goes to the offset on top of the call stack; an empty call stack faults. -/
def Obligations.RetResult : Prop :=
  ∀ s : State,
    (∀ v rest n, s.cs = v :: rest → IsNatural v n → exec .ret s = .next { s with cs := rest, pc := n }) ∧
    (s.cs = [] → exec .ret s = .next { s with status := .faulted .notEnoughValuesForOperation })

/-- After a `call`, a `ret` at any state with the call stack the `call` left goes to the byte after the
`call` and leaves the call stack as it was. -/
def Obligations.CallThenReturn : Prop :=
  ∀ (s u w : State) (t : F64) (n : Nat), s.pc + 10 ≤ 2 ^ 53 → IsNatural t n →
    exec (.call t) s = .next u → w.cs = u.cs →
    exec .ret w = .next { w with cs := s.cs, pc := s.pc + 10 }

/-- In a state that the invariant admits, `ret` never faults on its target: it lands on an offset between 10
and `PB`. -/
def Obligations.ReturnTargetNeverFaults : Prop :=
  ∀ (s : State) (v : F64) (rest : List F64), Inv s → s.cs = v :: rest →
    ∃ n, 10 ≤ n ∧ n ≤ s.prog.length ∧ IsNatural v n ∧ exec .ret s = .next { s with cs := rest, pc := n }

/-- The six comparison jumps: the relations are the IEEE 754 comparisons, both operands are popped either way,
and the target is looked at only when the jump is taken. That a taken jump faults at a fraction is
`ADDR_CONV = strict`, the spec's default (R181, D10; log entry 11). -/
def Obligations.ComparisonJumps : Prop :=
  ∀ (s : State) (a b t : F64) (rest : List F64), s.vs = b :: a :: rest →
    JumpsWhen (Ieee.LessOrEqual b a) (.jae t) t s rest ∧
    JumpsWhen (Ieee.Less b a) (.ja t) t s rest ∧
    JumpsWhen (Ieee.Less a b) (.jb t) t s rest ∧
    JumpsWhen (Ieee.LessOrEqual a b) (.jbe t) t s rest ∧
    JumpsWhen (Ieee.Equal a b) (.je t) t s rest ∧
    JumpsWhen (¬ Ieee.Equal a b) (.jne t) t s rest

/-! ### Display and halt -/

/-- `upd` presents exactly the VRAM bytes of this moment and changes nothing else. That a frame carries width and
height too is the model's choice (log entry 14). -/
def Obligations.UpdResult : Prop :=
  ∀ s : State, ∃ f : Frame, exec .upd s = .next { s with frames := s.frames ++ [f], pc := s.pc + 1 } ∧
    f.pixels.length = s.platform.vramBytes ∧
    (∀ j, j < s.platform.vramBytes → f.pixels[j]? = some (readByte s.mem (8192 + j))) ∧
    f.width = s.platform.width ∧ f.height = s.platform.height

/-- `clr` zeroes exactly the VRAM bytes. -/
def Obligations.ClrResult : Prop :=
  ∀ s : State, ∃ m, exec .clr s = .next { s with mem := m, pc := s.pc + 1 } ∧
    (∀ j, j < s.platform.vramBytes → readByte m (8192 + j) = 0#8) ∧
    (∀ a, a < 8192 ∨ 8192 + s.platform.vramBytes ≤ a → readByte m a = readByte s.mem a)

/-- `hlt` moves `pc` past itself and halts. Where `pc` stands then is the spec's own choice (R210, D18). -/
def Obligations.HltResult : Prop :=
  ∀ s : State, exec .hlt s = .next { s with pc := s.pc + 1, status := .halted }

/-! ### The whole machine -/

/-- No instruction but `hlt` halts the machine. -/
def Obligations.OnlyHltHalts : Prop :=
  ∀ (i : Instr) (s t : State), s.status = .running → exec i s = .next t → t.status = .halted → i = .hlt

/-- A step that faults changes `STATUS` and nothing else, but that `in` consumes its answer. Precise faults are
the spec's own choice, which the model follows ("This spec makes every fault precise", R225, D6; log entry 19). -/
def Obligations.FaultsArePrecise : Prop :=
  ∀ (s t : State) (k : FaultKind), s.status = .running → step s = .next t → t.status = .faulted k →
    t = { s with status := .faulted k } ∨
    (decode (s.prog.drop s.pc) = .ok .inp ∧ k = .ioError ∧
      ∃ rest, s.input = .fail :: rest ∧ t = { s with status := .faulted k, input := rest })

/-- In its execute stage an instruction raises no kind but those the table gives it, in every state that the
invariant admits (outside them `ret` could meet a call-stack element that is no offset). -/
def Obligations.FaultKindsByInstruction : Prop :=
  ∀ (i : Instr) (s t : State) (k : FaultKind), Inv s → s.status = .running → exec i s = .next t →
    t.status = .faulted k → k ∈ executeKinds i

/-- A value stack shallower than the instruction needs faults before any other check of the execute stage, and
nothing but `STATUS` changes: the order and the precision are the spec's own choice, which the model follows
(R163, R230, D6, D7; log entry 19). -/
def Obligations.UnderflowFaults : Prop :=
  ∀ (i : Instr) (s : State), i.wf = true → s.vs.length < neededDepth i →
    exec i s = .next { s with status := .faulted .notEnoughValuesForOperation }

/-- What an instruction that does not fault pops and pushes: the needed values go, the pushed ones come, the
rest of the value stack stays. -/
def Obligations.StackEffect : Prop :=
  ∀ (i : Instr) (s t : State), s.status = .running → exec i s = .next t →
    (∀ k, t.status ≠ .faulted k) →
    ∃ pushed, pushed.length = pushCount i ∧ neededDepth i ≤ s.vs.length ∧
      t.vs = pushed ++ s.vs.drop (neededDepth i)

/-- An instruction without the control-flow flag, but `ret`, moves `pc` past itself unless it faults. -/
def Obligations.PcAdvancesPastTheInstruction : Prop :=
  ∀ (i : Instr) (s t : State), i.isControlFlow = false → i ≠ .ret → s.status = .running →
    exec i s = .next t → (∀ k, t.status ≠ .faulted k) → t.pc = s.pc + i.length

/-- Who writes what: `STATUS` only `hlt` and a fault; `pc` no fault, and otherwise than by the instruction's length
only a control transfer; registers only `pop`; the value stack only the instructions that pop or push a
value; the call stack only `call` and `ret`; data memory only `pop` and `clr`; `OUTPUT` only `out`; `FRAMES` only
`upd`; `INPUT` only `in`; the image and the platform nobody. That a fault leaves `pc` is log entry 19; the model's
own count of drawn NaNs moves only where a sum, difference, product, quotient, root, absolute value or floor is
computed (log entry 2). -/
def Obligations.NoOtherWriter : Prop :=
  ∀ (i : Instr) (s t : State), exec i s = .next t →
    (i ≠ .hlt → t.status = s.status ∨ ∃ k, t.status = .faulted k) ∧
    (s.status = .running → (∃ k, t.status = .faulted k) → t.pc = s.pc) ∧
    (i.isControlFlow = false → i ≠ .ret → t.pc = s.pc ∨ t.pc = s.pc + i.length) ∧
    (neededDepth i = 0 → pushCount i = 0 → t.vs = s.vs) ∧
    ((∀ e, i ≠ .pop (.direct e)) → t.regs = s.regs) ∧
    ((∀ x, i ≠ .call x) → i ≠ .ret → t.cs = s.cs) ∧
    ((∀ e, i ≠ .pop (.memory e)) → i ≠ .clr → t.mem = s.mem) ∧
    (i ≠ .out → t.output = s.output ∧ t.outAnswers = s.outAnswers) ∧
    (i ≠ .upd → t.frames = s.frames) ∧
    (i ≠ .inp → t.input = s.input) ∧
    (i ∉ [.add, .sub, .mul, .div, .sqrt, .abs, .flr] → (∀ r c, i ≠ .push (.direct (.regCst r c))) →
      t.nanDraws = s.nanDraws) ∧
    t.prog = s.prog ∧ t.platform = s.platform

/-- Along every run the image and the platform stay as they were loaded, and `OUTPUT` and `FRAMES` only
grow. -/
def Obligations.RunsOnlyExtendTheTraces : Prop :=
  ∀ s t : State, Reaches s t →
    t.prog = s.prog ∧ t.platform = s.platform ∧ s.output <+: t.output ∧ s.frames <+: t.frames

/-- Every instruction has a next state at every state, but `in` when the host never answers. -/
def Obligations.EveryInstructionHasANextState : Prop :=
  ∀ (i : Instr) (s : State), (∃ t, exec i s = .next t) ∨ (i = .inp ∧ ∃ rest, s.input = .silent :: rest)

/-- The invariant is kept by every step. -/
def Obligations.StepKeepsTheInvariant : Prop :=
  ∀ s t : State, Inv s → step s = .next t → Inv t

/-- The invariant holds right after reset, with any image that fits (log entry 13). -/
def Obligations.BootHasTheInvariant : Prop :=
  Inv State.reset ∧
  ∀ (image : List Byte) (input : List InAnswer) (outs : List OutAnswer) (p : Platform),
    image.length ≤ 2 ^ 53 - 16 → Inv (State.boot image input outs p)

/-- Reset: running, `pc` 0, every register `+0.0`, both stacks empty, every RAM cell `+0.0`, every VRAM byte 0,
the traces empty. That the zeros are `+0.0`, that VRAM is zeroed too and that the traces are empty is the spec's
own reading, which the model follows (R46, D19; log entry 19); the image, the answers and the platform are what
the run was given (log entry 6). -/
def Obligations.ResetValues : Prop :=
  ∀ (image : List Byte) (input : List InAnswer) (outs : List OutAnswer) (p : Platform),
    let s := State.boot image input outs p
    s.status = .running ∧ s.pc = 0 ∧ (∀ r : Reg, s.regs[r] = 0#64) ∧ s.vs = [] ∧ s.cs = [] ∧
    (∀ n, n < 1024 → readCell s.mem n = 0#64) ∧ (∀ j, j < p.vramBytes → readByte s.mem (8192 + j) = 0#8) ∧
    s.output = [] ∧ s.frames = [] ∧ s.prog = image ∧ s.input = input ∧ s.outAnswers = outs ∧ s.platform = p

/-- No instruction can tell two NaNs apart: two states that differ only in the bits of NaNs step to states that
differ only in the bits of NaNs. -/
def Obligations.NaNBitsAreUnobservable : Prop :=
  ∀ (i : Instr) (s s' t : State), AgreeUpToNaN s s' → s.mem.wf → s'.mem.wf → exec i s = .next t →
    ∃ t', exec i s' = .next t' ∧ AgreeUpToNaN t t'
end

