-- ==== Sys2Proof/Laws/Memory.lean ====
section
/-!
SUPPORT. The laws of data memory: every operation keeps the canonical form, a read after a write gives what was
written, and a write leaves every other byte alone (`spec/20_memory.md` R55 to R58, R65).
-/

namespace Sys2Proof

namespace Machine

/-! ### One byte -/

theorem wf_nil : Memory.wf [] := by simp [Memory.wf]

theorem wf_cons {k : Nat} {w : Byte} {m : Memory} :
    Memory.wf ((k, w) :: m) ↔ (∀ c ∈ m, k < c.1) ∧ w ≠ unlistedByte ∧ Memory.wf m := by
  simp only [Memory.wf, List.pairwise_cons, List.forall_mem_cons]
  tauto

theorem wf_consByte {a : Nat} {v : Byte} {m : Memory} (hm : m.wf) (h : ∀ c ∈ m, a < c.1) :
    (consByte a v m).wf := by
  unfold consByte
  split
  · exact hm
  · exact wf_cons.2 ⟨h, ‹_›, hm⟩

theorem mem_consByte {c : Host.Cell} {a : Nat} {v : Byte} {m : Memory} (h : c ∈ consByte a v m) :
    c.1 = a ∨ c ∈ m := by
  unfold consByte at h
  split at h
  · exact .inr h
  · rcases List.mem_cons.1 h with rfl | h
    · exact .inl rfl
    · exact .inr h

/-- A write adds no offset but its own. -/
theorem mem_writeByte {c : Host.Cell} {m : Memory} {a : Nat} {v : Byte} (h : c ∈ writeByte m a v) :
    c.1 = a ∨ c ∈ m := by
  induction m with
  | nil => exact mem_consByte h
  | cons e m ih =>
    obtain ⟨k, w⟩ := e
    simp only [writeByte] at h
    split at h
    · exact mem_consByte h
    · split at h
      · exact (mem_consByte h).imp_right (List.mem_cons_of_mem _)
      · rcases List.mem_cons.1 h with rfl | h
        · exact .inr (List.mem_cons_self ..)
        · exact (ih h).imp_right (List.mem_cons_of_mem _)

/-- Writing a byte keeps the canonical form. -/
theorem wf_writeByte {m : Memory} (hm : m.wf) (a : Nat) (v : Byte) : (writeByte m a v).wf := by
  induction m with
  | nil => exact wf_consByte wf_nil (by simp)
  | cons e m ih =>
    obtain ⟨k, w⟩ := e
    have ⟨hk, hw, hm'⟩ := wf_cons.1 hm
    simp only [writeByte]
    split
    · refine wf_consByte hm ?_
      intro c hc
      rcases List.mem_cons.1 hc with rfl | hc
      · assumption
      · exact lt_trans ‹_› (hk c hc)
    · split
      · subst a
        exact wf_consByte hm' hk
      · refine wf_cons.2 ⟨fun c hc => ?_, hw, ih hm'⟩
        rcases mem_writeByte hc with h | h
        · omega
        · exact hk c h

theorem readByte_of_not_listed {m : Memory} {a : Nat} (h : ∀ c ∈ m, c.1 ≠ a) :
    readByte m a = unlistedByte := by
  induction m with
  | nil => rfl
  | cons e m ih =>
    simp only [readByte]
    rw [if_neg (fun h' => h e (List.mem_cons_self ..) h'.symm)]
    exact ih fun c hc => h c (List.mem_cons_of_mem _ hc)

theorem readByte_consByte_same {a : Nat} {v : Byte} {m : Memory} (h : ∀ c ∈ m, c.1 ≠ a) :
    readByte (consByte a v m) a = v := by
  unfold consByte
  split
  · subst v
    exact readByte_of_not_listed h
  · simp [readByte]

theorem readByte_consByte_other {a b : Nat} {v : Byte} {m : Memory} (h : b ≠ a) :
    readByte (consByte a v m) b = readByte m b := by
  unfold consByte
  split
  · rfl
  · simp [readByte, h]

/-- A read after a write to the same byte gives the byte written. -/
theorem readByte_writeByte_same {m : Memory} (hm : m.wf) (a : Nat) (v : Byte) :
    readByte (writeByte m a v) a = v := by
  induction m with
  | nil => exact readByte_consByte_same (by simp)
  | cons e m ih =>
    obtain ⟨k, w⟩ := e
    have ⟨hk, hw, hm'⟩ := wf_cons.1 hm
    simp only [writeByte]
    split
    · refine readByte_consByte_same fun c hc => ?_
      rcases List.mem_cons.1 hc with rfl | hc
      · simp; omega
      · have := hk c hc; omega
    · split
      · exact readByte_consByte_same fun c hc => by have := hk c hc; omega
      · simp only [readByte, if_neg ‹_›, ih hm']

/-- A write leaves every other byte alone. -/
theorem readByte_writeByte_other {m : Memory} (hm : m.wf) {a b : Nat} (v : Byte) (h : b ≠ a) :
    readByte (writeByte m a v) b = readByte m b := by
  induction m with
  | nil => exact readByte_consByte_other h
  | cons e m ih =>
    obtain ⟨k, w⟩ := e
    have ⟨hk, hw, hm'⟩ := wf_cons.1 hm
    simp only [writeByte]
    split
    · exact readByte_consByte_other h
    · split
      · subst a
        rw [readByte_consByte_other h]
        simp [readByte, h]
      · simp only [readByte, ih hm']

/-! ### Several bytes -/

theorem wf_writeBytes {m : Memory} (hm : m.wf) (a : Nat) (bs : List Byte) : (writeBytes m a bs).wf := by
  induction bs generalizing m a with
  | nil => exact hm
  | cons b bs ih => exact ih (wf_writeByte hm a b) (a + 1)

theorem mem_writeBytes {c : Host.Cell} {m : Memory} {a : Nat} {bs : List Byte}
    (h : c ∈ writeBytes m a bs) : (a ≤ c.1 ∧ c.1 < a + bs.length) ∨ c ∈ m := by
  induction bs generalizing m a with
  | nil => exact .inr h
  | cons b bs ih =>
    rcases ih h with h | h
    · left; simp only [List.length_cons]; omega
    · rcases mem_writeByte h with h | h
      · left; simp only [List.length_cons]; omega
      · exact .inr h

theorem readByte_writeBytes_other {m : Memory} (hm : m.wf) {a b : Nat} {bs : List Byte}
    (h : b < a ∨ a + bs.length ≤ b) : readByte (writeBytes m a bs) b = readByte m b := by
  induction bs generalizing m a with
  | nil => rfl
  | cons x bs ih =>
    simp only [List.length_cons] at h
    simp only [writeBytes]
    rw [ih (wf_writeByte hm a x) (by omega), readByte_writeByte_other hm x (by omega)]

theorem readByte_writeBytes_same {m : Memory} (hm : m.wf) {a j : Nat} {bs : List Byte} (h : j < bs.length) :
    readByte (writeBytes m a bs) (a + j) = bs[j] := by
  induction bs generalizing m a j with
  | nil => simp at h
  | cons x bs ih =>
    simp only [writeBytes]
    cases j with
    | zero =>
      rw [readByte_writeBytes_other (wf_writeByte hm a x) (by omega), Nat.add_zero,
        readByte_writeByte_same hm]
      rfl
    | succ j =>
      simp only [List.length_cons] at h
      rw [show a + (j + 1) = a + 1 + j by omega, ih (wf_writeByte hm a x) (by omega)]
      rfl

theorem readBytes_writeBytes_same {m : Memory} (hm : m.wf) (a : Nat) (bs : List Byte) :
    readBytes (writeBytes m a bs) a bs.length = bs := by
  refine List.ext_getElem (by simp [readBytes]) fun j h₁ h₂ => ?_
  simp [readBytes, readByte_writeBytes_same hm h₂]

theorem readBytes_congr {m m' : Memory} {a n : Nat}
    (h : ∀ b, a ≤ b → b < a + n → readByte m b = readByte m' b) : readBytes m a n = readBytes m' a n :=
  List.map_congr_left fun j hj => h _ (by omega) (by have := List.mem_range.1 hj; omega)

/-! ### Constants as bytes (R90) -/

@[simp] theorem length_leBytes (n v : Nat) : (leBytes n v).length = n := by
  induction n generalizing v with
  | zero => rfl
  | succ n ih => simp [leBytes, ih]

@[simp] theorem length_f64Bytes (c : F64) : (f64Bytes c).length = 8 := length_leBytes 8 _

theorem leValue_leBytes (n v : Nat) : leValue (leBytes n v) = v % 256 ^ n := by
  induction n generalizing v with
  | zero => simp [leBytes, leValue, Nat.mod_one]
  | succ n ih =>
    rw [leBytes, leValue, ih, BitVec.toNat_ofNat, pow_succ' 256 n, Nat.mod_mul]

/-- The 8 bytes of a constant are read back as that constant. -/
@[simp] theorem f64OfBytes_f64Bytes (c : F64) : f64OfBytes (f64Bytes c) = c := by
  apply BitVec.eq_of_toNat_eq
  rw [f64OfBytes, f64Bytes, leValue_leBytes, BitVec.toNat_ofNat]
  have := c.isLt
  omega

/-! ### RAM cells and VRAM bytes -/

theorem wf_writeCell {m : Memory} (hm : m.wf) (i : Nat) (v : F64) : (writeCell m i v).wf :=
  wf_writeBytes hm _ _

theorem wf_writeVram {m : Memory} (hm : m.wf) (j : Nat) (b : Byte) : (writeVram m j b).wf :=
  wf_writeByte hm _ _

theorem wf_clearVram {m : Memory} (hm : m.wf) (size : Nat) : (clearVram m size).wf :=
  ⟨hm.1.filter _, fun c hc => hm.2 c (List.mem_of_mem_filter hc)⟩

/-- A RAM cell reads as what was last written to it, bit for bit (R55, R57). -/
theorem readCell_writeCell_same {m : Memory} (hm : m.wf) (i : Nat) (v : F64) :
    readCell (writeCell m i v) i = v := by
  have := readBytes_writeBytes_same hm (cellOffset i) (f64Bytes v)
  rw [length_f64Bytes] at this
  simp [readCell, writeCell, Config.cellBytes, this]

/-- A write to a RAM cell leaves every byte outside it alone. -/
theorem readByte_writeCell_other {m : Memory} (hm : m.wf) {i a : Nat} (v : F64)
    (h : a < cellOffset i ∨ cellOffset i + 8 ≤ a) : readByte (writeCell m i v) a = readByte m a :=
  readByte_writeBytes_other hm (by simpa using h)

theorem readCell_writeCell_other {m : Memory} (hm : m.wf) {i k : Nat} (v : F64) (h : k ≠ i) :
    readCell (writeCell m i v) k = readCell m k := by
  refine congrArg f64OfBytes (readBytes_congr fun b h₁ h₂ => readByte_writeCell_other hm v ?_)
  simp only [cellOffset, Config.cellBytes] at *
  omega

theorem readVram_writeCell {m : Memory} (hm : m.wf) {i j : Nat} (v : F64) (h : i < Config.ramCells) :
    readVram (writeCell m i v) j = readVram m j := by
  refine readByte_writeCell_other hm v (.inr ?_)
  simp only [cellOffset, vramOffset, Config.cellBytes, Config.ramCells] at *
  omega

/-- A VRAM byte reads as what was last written to it (R56, R58). -/
theorem readVram_writeVram_same {m : Memory} (hm : m.wf) (j : Nat) (b : Byte) :
    readVram (writeVram m j b) j = b := readByte_writeByte_same hm _ _

/-- A write to a VRAM byte leaves every other byte alone: "its neighbours do not" change (R58). -/
theorem readByte_writeVram_other {m : Memory} (hm : m.wf) {j a : Nat} (b : Byte) (h : a ≠ vramOffset j) :
    readByte (writeVram m j b) a = readByte m a := readByte_writeByte_other hm b h

theorem readVram_writeVram_other {m : Memory} (hm : m.wf) {j k : Nat} (b : Byte) (h : k ≠ j) :
    readVram (writeVram m j b) k = readVram m k := by
  refine readByte_writeVram_other hm b ?_
  simp only [vramOffset]
  omega

theorem readCell_writeVram {m : Memory} (hm : m.wf) {i j : Nat} (b : Byte) (h : i < Config.ramCells) :
    readCell (writeVram m j b) i = readCell m i := by
  refine congrArg f64OfBytes (readBytes_congr fun a h₁ h₂ => readByte_writeVram_other hm b ?_)
  simp only [cellOffset, vramOffset, Config.cellBytes, Config.ramCells] at *
  omega

theorem readByte_filter {m : Memory} {p : Host.Cell → Bool} {a : Nat} (h : ∀ v, p (a, v) = true) :
    readByte (m.filter p) a = readByte m a := by
  induction m with
  | nil => rfl
  | cons e m ih =>
    obtain ⟨k, w⟩ := e
    by_cases hk : a = k
    · subst a
      simp [h, readByte]
    · simp only [List.filter_cons]
      split <;> simp [readByte, hk, ih]

/-- Clearing VRAM leaves every byte outside it alone (R201). -/
theorem readByte_clearVram_other {m : Memory} {size a : Nat} (h : a < vramOffset 0 ∨ vramOffset size ≤ a) :
    readByte (clearVram m size) a = readByte m a := by
  refine readByte_filter fun v => ?_
  simp
  omega

/-- After clearing, every VRAM byte is 0 (R201). -/
theorem readVram_clearVram {m : Memory} {size j : Nat} (h : j < size) :
    readVram (clearVram m size) j = 0#8 := by
  refine readByte_of_not_listed fun c hc e => ?_
  have := List.of_mem_filter hc
  simp [vramOffset, decide_eq_false_iff_not] at this e
  rcases this with h | h
  · omega
  · exact absurd (of_decide_eq_false h) (by omega)

theorem readCell_clearVram {m : Memory} {size i : Nat} (h : i < Config.ramCells) :
    readCell (clearVram m size) i = readCell m i := by
  refine congrArg f64OfBytes (readBytes_congr fun a h₁ h₂ => readByte_clearVram_other (.inl ?_))
  simp only [cellOffset, vramOffset, Config.cellBytes, Config.ramCells] at *
  omega

/-! ### Bounds -/

theorem mem_clearVram {c : Host.Cell} {m : Memory} {size : Nat} (h : c ∈ clearVram m size) : c ∈ m :=
  List.mem_of_mem_filter h

/-- A write to a RAM cell lists no offset past RAM. -/
theorem mem_writeCell {c : Host.Cell} {m : Memory} {i : Nat} {v : F64} (hi : i < Config.ramCells)
    (h : c ∈ writeCell m i v) : c.1 < vramOffset 0 ∨ c ∈ m := by
  refine (mem_writeBytes h).imp_left fun h => ?_
  simp only [length_f64Bytes, cellOffset, vramOffset, Config.cellBytes, Config.ramCells] at *
  omega

/-- A write to a VRAM byte lists no other new offset. -/
theorem mem_writeVram {c : Host.Cell} {m : Memory} {j : Nat} {b : Byte} (h : c ∈ writeVram m j b) :
    c.1 = vramOffset j ∨ c ∈ m := mem_writeByte h

end Machine

end Sys2Proof
end

