-- ==== Sys2Proof/Laws/Decode.lean ====
section
/-!
SUPPORT. What the parts of the decoder answer on the parts the encoder writes, and the mode byte facts both rest
on (`spec/30_encoding.md` R84 to R90, R101 to R103).
-/

namespace Sys2Proof

open Machine

/-! ### Fields -/

theorem regOfByte_regByte (r : Reg) : regOfByte (regByte r) = some r := by
  revert r
  decide

/-- A register index byte names register `r` just when it is that register's byte (R89). -/
theorem regOfByte_eq_some {b : Byte} {r : Reg} : regOfByte b = some r ↔ b = regByte r := by
  constructor
  · unfold regOfByte
    intro h
    split at h <;> simp only [reduceCtorEq, Option.some.injEq] at h
    rename_i hb
    subst h
    apply BitVec.eq_of_toNat_eq
    rw [regByte, BitVec.toNat_ofNat]
    have := b.isLt
    simp only
    omega
  · rintro rfl
    exact regOfByte_regByte r

/-- Other bytes name none (R103). -/
theorem regOfByte_eq_none {b : Byte} : regOfByte b = none ↔ b.toNat = 0 ∨ 18 < b.toNat := by
  unfold regOfByte Config.registerCount
  split <;> simp only [reduceCtorEq, false_iff, true_iff] <;> omega

theorem leBytes_leValue (bs : List Byte) : leBytes bs.length (leValue bs) = bs := by
  induction bs with
  | nil => rfl
  | cons b bs ih =>
    have h1 : (b.toNat + 256 * leValue bs) / 256 = leValue bs := by have := b.isLt; omega
    have h2 : BitVec.ofNat 8 (b.toNat + 256 * leValue bs) = b := by
      apply BitVec.eq_of_toNat_eq
      rw [BitVec.toNat_ofNat]
      have := b.isLt
      omega
    rw [List.length_cons, leBytes, leValue, h1, h2, ih]

theorem leValue_lt (bs : List Byte) : leValue bs < 256 ^ bs.length := by
  induction bs with
  | nil => simp [leValue]
  | cons b bs ih =>
    have := b.isLt
    rw [leValue, List.length_cons, pow_succ]
    omega

/-- Eight bytes are the encoding of the pattern they spell (R90). -/
theorem f64Bytes_f64OfBytes {bs : List Byte} (h : bs.length = 8) : f64Bytes (f64OfBytes bs) = bs := by
  have hl := leValue_lt bs
  rw [h] at hl
  rw [f64Bytes, f64OfBytes, BitVec.toNat_ofNat, Nat.mod_eq_of_lt (by omega)]
  have := leBytes_leValue bs
  rwa [h] at this

/-- A constant field is read back, whatever follows it. -/
@[simp] theorem takeF64_append (e : DecodeError) (c : F64) (rest : List Byte) :
    takeF64 e (f64Bytes c ++ rest) = .ok c := by
  unfold takeF64
  rw [if_neg (by simp), List.take_left' (length_f64Bytes c), f64OfBytes_f64Bytes]

/-- A constant field that is read is the encoding of what was read. -/
theorem takeF64_eq_ok {e : DecodeError} {bs : List Byte} {c : F64} (h : takeF64 e bs = .ok c) :
    ∃ rest, bs = f64Bytes c ++ rest := by
  unfold takeF64 at h
  split at h <;> simp only [reduceCtorEq, Except.ok.injEq] at h
  refine ⟨bs.drop 8, ?_⟩
  rw [← h, f64Bytes_f64OfBytes (by rw [List.length_take]; omega), List.take_append_drop]

/-- A constant that crosses the end is the error named for it (R83). -/
theorem takeF64_short {e : DecodeError} {bs : List Byte} (h : bs.length < 8) : takeF64 e bs = .error e :=
  if_pos h

/-! ### Mode bytes -/

@[simp] theorem hasReg_mode (a : Operand) :
    hasReg a.mode = (match a.form with | .reg _ => true | .cst _ => false | .regCst _ _ => true) := by
  rcases a with (_ | _ | _) | (_ | _ | _) <;>
  simp [hasReg, Operand.mode, Operand.form, EaForm.mode, modeReg, modeCst, modeRam]

@[simp] theorem hasCst_mode (a : Operand) :
    hasCst a.mode = (match a.form with | .reg _ => false | .cst _ => true | .regCst _ _ => true) := by
  rcases a with (_ | _ | _) | (_ | _ | _) <;>
  simp [hasCst, Operand.mode, Operand.form, EaForm.mode, modeReg, modeCst, modeRam]

@[simp] theorem modeIllegal_mode (a : Operand) : modeIllegal a.mode = false := by
  rcases a with (_ | _ | _) | (_ | _ | _) <;>
  simp [modeIllegal, hasReg, hasCst, Operand.mode, EaForm.mode, modeReg, modeCst, modeRam]

@[simp] theorem popModeIllegal_mode (a : Operand) : popModeIllegal a.mode = !a.isDestination := by
  rcases a with (_ | _ | _) | (_ | _ | _) <;>
  simp [popModeIllegal, hasReg, hasCst, hasRam, popRegCst, Operand.isDestination, Operand.mode,
    EaForm.mode, modeReg, modeCst, modeRam]

/-- A legal mode byte is the mode byte of some operand: there are six (R101). -/
theorem mode_of_legal {m : Byte} (h : modeIllegal m = false) :
    m = 0x02#8 ∨ m = 0x03#8 ∨ m = 0x04#8 ∨ m = 0x05#8 ∨ m = 0x06#8 ∨ m = 0x07#8 := by
  revert m
  decide

/-- The fields of an operand are read back, whatever follows them (R84). -/
theorem takeForm_fields (a : Operand) (rest : List Byte) :
    takeForm a.mode (a.form.fields ++ rest) = .ok a.form := by
  unfold takeForm
  rw [hasReg_mode, hasCst_mode]
  cases a.form with
  | reg r => simp [EaForm.fields, takeReg, regOfByte_regByte]
  | cst c => simp [EaForm.fields, Except.map]
  | regCst r c => simp [EaForm.fields, takeReg, regOfByte_regByte, Except.map]

end Sys2Proof
end

