-- ==== Sys2Proof/Laws/State.lean ====
section
/-!
SUPPORT. What each update of `Machine/State.lean` does to each field, one lemma per field per update, so that
no later proof unfolds a record update.
-/

namespace Sys2Proof

namespace Machine

variable (s : State)

@[simp] theorem setStatus_status (x : Status) : (s.setStatus x).status = x := rfl
@[simp] theorem setStatus_pc (x : Status) : (s.setStatus x).pc = s.pc := rfl
@[simp] theorem setStatus_regs (x : Status) : (s.setStatus x).regs = s.regs := rfl
@[simp] theorem setStatus_vs (x : Status) : (s.setStatus x).vs = s.vs := rfl
@[simp] theorem setStatus_cs (x : Status) : (s.setStatus x).cs = s.cs := rfl
@[simp] theorem setStatus_mem (x : Status) : (s.setStatus x).mem = s.mem := rfl
@[simp] theorem setStatus_prog (x : Status) : (s.setStatus x).prog = s.prog := rfl
@[simp] theorem setStatus_input (x : Status) : (s.setStatus x).input = s.input := rfl
@[simp] theorem setStatus_outAnswers (x : Status) : (s.setStatus x).outAnswers = s.outAnswers := rfl
@[simp] theorem setStatus_output (x : Status) : (s.setStatus x).output = s.output := rfl
@[simp] theorem setStatus_frames (x : Status) : (s.setStatus x).frames = s.frames := rfl
@[simp] theorem setStatus_platform (x : Status) : (s.setStatus x).platform = s.platform := rfl
@[simp] theorem setStatus_nanDraws (x : Status) : (s.setStatus x).nanDraws = s.nanDraws := rfl

@[simp] theorem setPc_status (n : Nat) : (s.setPc n).status = s.status := rfl
@[simp] theorem setPc_pc (n : Nat) : (s.setPc n).pc = n := rfl
@[simp] theorem setPc_regs (n : Nat) : (s.setPc n).regs = s.regs := rfl
@[simp] theorem setPc_vs (n : Nat) : (s.setPc n).vs = s.vs := rfl
@[simp] theorem setPc_cs (n : Nat) : (s.setPc n).cs = s.cs := rfl
@[simp] theorem setPc_mem (n : Nat) : (s.setPc n).mem = s.mem := rfl
@[simp] theorem setPc_prog (n : Nat) : (s.setPc n).prog = s.prog := rfl
@[simp] theorem setPc_input (n : Nat) : (s.setPc n).input = s.input := rfl
@[simp] theorem setPc_outAnswers (n : Nat) : (s.setPc n).outAnswers = s.outAnswers := rfl
@[simp] theorem setPc_output (n : Nat) : (s.setPc n).output = s.output := rfl
@[simp] theorem setPc_frames (n : Nat) : (s.setPc n).frames = s.frames := rfl
@[simp] theorem setPc_platform (n : Nat) : (s.setPc n).platform = s.platform := rfl
@[simp] theorem setPc_nanDraws (n : Nat) : (s.setPc n).nanDraws = s.nanDraws := rfl

@[simp] theorem advance_status (n : Nat) : (s.advance n).status = s.status := rfl
@[simp] theorem advance_pc (n : Nat) : (s.advance n).pc = s.pc + n := rfl
@[simp] theorem advance_regs (n : Nat) : (s.advance n).regs = s.regs := rfl
@[simp] theorem advance_vs (n : Nat) : (s.advance n).vs = s.vs := rfl
@[simp] theorem advance_cs (n : Nat) : (s.advance n).cs = s.cs := rfl
@[simp] theorem advance_mem (n : Nat) : (s.advance n).mem = s.mem := rfl
@[simp] theorem advance_prog (n : Nat) : (s.advance n).prog = s.prog := rfl
@[simp] theorem advance_input (n : Nat) : (s.advance n).input = s.input := rfl
@[simp] theorem advance_outAnswers (n : Nat) : (s.advance n).outAnswers = s.outAnswers := rfl
@[simp] theorem advance_output (n : Nat) : (s.advance n).output = s.output := rfl
@[simp] theorem advance_frames (n : Nat) : (s.advance n).frames = s.frames := rfl
@[simp] theorem advance_platform (n : Nat) : (s.advance n).platform = s.platform := rfl
@[simp] theorem advance_nanDraws (n : Nat) : (s.advance n).nanDraws = s.nanDraws := rfl

@[simp] theorem setVs_status (l : List F64) : (s.setVs l).status = s.status := rfl
@[simp] theorem setVs_pc (l : List F64) : (s.setVs l).pc = s.pc := rfl
@[simp] theorem setVs_regs (l : List F64) : (s.setVs l).regs = s.regs := rfl
@[simp] theorem setVs_vs (l : List F64) : (s.setVs l).vs = l := rfl
@[simp] theorem setVs_cs (l : List F64) : (s.setVs l).cs = s.cs := rfl
@[simp] theorem setVs_mem (l : List F64) : (s.setVs l).mem = s.mem := rfl
@[simp] theorem setVs_prog (l : List F64) : (s.setVs l).prog = s.prog := rfl
@[simp] theorem setVs_input (l : List F64) : (s.setVs l).input = s.input := rfl
@[simp] theorem setVs_outAnswers (l : List F64) : (s.setVs l).outAnswers = s.outAnswers := rfl
@[simp] theorem setVs_output (l : List F64) : (s.setVs l).output = s.output := rfl
@[simp] theorem setVs_frames (l : List F64) : (s.setVs l).frames = s.frames := rfl
@[simp] theorem setVs_platform (l : List F64) : (s.setVs l).platform = s.platform := rfl
@[simp] theorem setVs_nanDraws (l : List F64) : (s.setVs l).nanDraws = s.nanDraws := rfl

@[simp] theorem setCs_status (l : List F64) : (s.setCs l).status = s.status := rfl
@[simp] theorem setCs_pc (l : List F64) : (s.setCs l).pc = s.pc := rfl
@[simp] theorem setCs_regs (l : List F64) : (s.setCs l).regs = s.regs := rfl
@[simp] theorem setCs_vs (l : List F64) : (s.setCs l).vs = s.vs := rfl
@[simp] theorem setCs_cs (l : List F64) : (s.setCs l).cs = l := rfl
@[simp] theorem setCs_mem (l : List F64) : (s.setCs l).mem = s.mem := rfl
@[simp] theorem setCs_prog (l : List F64) : (s.setCs l).prog = s.prog := rfl
@[simp] theorem setCs_input (l : List F64) : (s.setCs l).input = s.input := rfl
@[simp] theorem setCs_outAnswers (l : List F64) : (s.setCs l).outAnswers = s.outAnswers := rfl
@[simp] theorem setCs_output (l : List F64) : (s.setCs l).output = s.output := rfl
@[simp] theorem setCs_frames (l : List F64) : (s.setCs l).frames = s.frames := rfl
@[simp] theorem setCs_platform (l : List F64) : (s.setCs l).platform = s.platform := rfl
@[simp] theorem setCs_nanDraws (l : List F64) : (s.setCs l).nanDraws = s.nanDraws := rfl

@[simp] theorem setReg_status (r : Reg) (v : F64) : (s.setReg r v).status = s.status := rfl
@[simp] theorem setReg_pc (r : Reg) (v : F64) : (s.setReg r v).pc = s.pc := rfl
@[simp] theorem setReg_regs (r : Reg) (v : F64) : (s.setReg r v).regs = s.regs.set r v := rfl
@[simp] theorem setReg_vs (r : Reg) (v : F64) : (s.setReg r v).vs = s.vs := rfl
@[simp] theorem setReg_cs (r : Reg) (v : F64) : (s.setReg r v).cs = s.cs := rfl
@[simp] theorem setReg_mem (r : Reg) (v : F64) : (s.setReg r v).mem = s.mem := rfl
@[simp] theorem setReg_prog (r : Reg) (v : F64) : (s.setReg r v).prog = s.prog := rfl
@[simp] theorem setReg_input (r : Reg) (v : F64) : (s.setReg r v).input = s.input := rfl
@[simp] theorem setReg_outAnswers (r : Reg) (v : F64) : (s.setReg r v).outAnswers = s.outAnswers := rfl
@[simp] theorem setReg_output (r : Reg) (v : F64) : (s.setReg r v).output = s.output := rfl
@[simp] theorem setReg_frames (r : Reg) (v : F64) : (s.setReg r v).frames = s.frames := rfl
@[simp] theorem setReg_platform (r : Reg) (v : F64) : (s.setReg r v).platform = s.platform := rfl
@[simp] theorem setReg_nanDraws (r : Reg) (v : F64) : (s.setReg r v).nanDraws = s.nanDraws := rfl

@[simp] theorem setMem_status (m : Memory) : (s.setMem m).status = s.status := rfl
@[simp] theorem setMem_pc (m : Memory) : (s.setMem m).pc = s.pc := rfl
@[simp] theorem setMem_regs (m : Memory) : (s.setMem m).regs = s.regs := rfl
@[simp] theorem setMem_vs (m : Memory) : (s.setMem m).vs = s.vs := rfl
@[simp] theorem setMem_cs (m : Memory) : (s.setMem m).cs = s.cs := rfl
@[simp] theorem setMem_mem (m : Memory) : (s.setMem m).mem = m := rfl
@[simp] theorem setMem_prog (m : Memory) : (s.setMem m).prog = s.prog := rfl
@[simp] theorem setMem_input (m : Memory) : (s.setMem m).input = s.input := rfl
@[simp] theorem setMem_outAnswers (m : Memory) : (s.setMem m).outAnswers = s.outAnswers := rfl
@[simp] theorem setMem_output (m : Memory) : (s.setMem m).output = s.output := rfl
@[simp] theorem setMem_frames (m : Memory) : (s.setMem m).frames = s.frames := rfl
@[simp] theorem setMem_platform (m : Memory) : (s.setMem m).platform = s.platform := rfl
@[simp] theorem setMem_nanDraws (m : Memory) : (s.setMem m).nanDraws = s.nanDraws := rfl

@[simp] theorem setInput_status (l : List InAnswer) : (s.setInput l).status = s.status := rfl
@[simp] theorem setInput_pc (l : List InAnswer) : (s.setInput l).pc = s.pc := rfl
@[simp] theorem setInput_regs (l : List InAnswer) : (s.setInput l).regs = s.regs := rfl
@[simp] theorem setInput_vs (l : List InAnswer) : (s.setInput l).vs = s.vs := rfl
@[simp] theorem setInput_cs (l : List InAnswer) : (s.setInput l).cs = s.cs := rfl
@[simp] theorem setInput_mem (l : List InAnswer) : (s.setInput l).mem = s.mem := rfl
@[simp] theorem setInput_prog (l : List InAnswer) : (s.setInput l).prog = s.prog := rfl
@[simp] theorem setInput_input (l : List InAnswer) : (s.setInput l).input = l := rfl
@[simp] theorem setInput_outAnswers (l : List InAnswer) : (s.setInput l).outAnswers = s.outAnswers := rfl
@[simp] theorem setInput_output (l : List InAnswer) : (s.setInput l).output = s.output := rfl
@[simp] theorem setInput_frames (l : List InAnswer) : (s.setInput l).frames = s.frames := rfl
@[simp] theorem setInput_platform (l : List InAnswer) : (s.setInput l).platform = s.platform := rfl
@[simp] theorem setInput_nanDraws (l : List InAnswer) : (s.setInput l).nanDraws = s.nanDraws := rfl

@[simp] theorem setOutAnswers_status (l : List OutAnswer) : (s.setOutAnswers l).status = s.status := rfl
@[simp] theorem setOutAnswers_pc (l : List OutAnswer) : (s.setOutAnswers l).pc = s.pc := rfl
@[simp] theorem setOutAnswers_regs (l : List OutAnswer) : (s.setOutAnswers l).regs = s.regs := rfl
@[simp] theorem setOutAnswers_vs (l : List OutAnswer) : (s.setOutAnswers l).vs = s.vs := rfl
@[simp] theorem setOutAnswers_cs (l : List OutAnswer) : (s.setOutAnswers l).cs = s.cs := rfl
@[simp] theorem setOutAnswers_mem (l : List OutAnswer) : (s.setOutAnswers l).mem = s.mem := rfl
@[simp] theorem setOutAnswers_prog (l : List OutAnswer) : (s.setOutAnswers l).prog = s.prog := rfl
@[simp] theorem setOutAnswers_input (l : List OutAnswer) : (s.setOutAnswers l).input = s.input := rfl
@[simp] theorem setOutAnswers_outAnswers (l : List OutAnswer) : (s.setOutAnswers l).outAnswers = l := rfl
@[simp] theorem setOutAnswers_output (l : List OutAnswer) : (s.setOutAnswers l).output = s.output := rfl
@[simp] theorem setOutAnswers_frames (l : List OutAnswer) : (s.setOutAnswers l).frames = s.frames := rfl
@[simp] theorem setOutAnswers_platform (l : List OutAnswer) : (s.setOutAnswers l).platform = s.platform := rfl
@[simp] theorem setOutAnswers_nanDraws (l : List OutAnswer) : (s.setOutAnswers l).nanDraws = s.nanDraws := rfl

@[simp] theorem addOutput_status (v : F64) : (s.addOutput v).status = s.status := rfl
@[simp] theorem addOutput_pc (v : F64) : (s.addOutput v).pc = s.pc := rfl
@[simp] theorem addOutput_regs (v : F64) : (s.addOutput v).regs = s.regs := rfl
@[simp] theorem addOutput_vs (v : F64) : (s.addOutput v).vs = s.vs := rfl
@[simp] theorem addOutput_cs (v : F64) : (s.addOutput v).cs = s.cs := rfl
@[simp] theorem addOutput_mem (v : F64) : (s.addOutput v).mem = s.mem := rfl
@[simp] theorem addOutput_prog (v : F64) : (s.addOutput v).prog = s.prog := rfl
@[simp] theorem addOutput_input (v : F64) : (s.addOutput v).input = s.input := rfl
@[simp] theorem addOutput_outAnswers (v : F64) : (s.addOutput v).outAnswers = s.outAnswers := rfl
@[simp] theorem addOutput_output (v : F64) : (s.addOutput v).output = s.output ++ [v] := rfl
@[simp] theorem addOutput_frames (v : F64) : (s.addOutput v).frames = s.frames := rfl
@[simp] theorem addOutput_platform (v : F64) : (s.addOutput v).platform = s.platform := rfl
@[simp] theorem addOutput_nanDraws (v : F64) : (s.addOutput v).nanDraws = s.nanDraws := rfl

@[simp] theorem addFrame_status (f : Frame) : (s.addFrame f).status = s.status := rfl
@[simp] theorem addFrame_pc (f : Frame) : (s.addFrame f).pc = s.pc := rfl
@[simp] theorem addFrame_regs (f : Frame) : (s.addFrame f).regs = s.regs := rfl
@[simp] theorem addFrame_vs (f : Frame) : (s.addFrame f).vs = s.vs := rfl
@[simp] theorem addFrame_cs (f : Frame) : (s.addFrame f).cs = s.cs := rfl
@[simp] theorem addFrame_mem (f : Frame) : (s.addFrame f).mem = s.mem := rfl
@[simp] theorem addFrame_prog (f : Frame) : (s.addFrame f).prog = s.prog := rfl
@[simp] theorem addFrame_input (f : Frame) : (s.addFrame f).input = s.input := rfl
@[simp] theorem addFrame_outAnswers (f : Frame) : (s.addFrame f).outAnswers = s.outAnswers := rfl
@[simp] theorem addFrame_output (f : Frame) : (s.addFrame f).output = s.output := rfl
@[simp] theorem addFrame_frames (f : Frame) : (s.addFrame f).frames = s.frames ++ [f] := rfl
@[simp] theorem addFrame_platform (f : Frame) : (s.addFrame f).platform = s.platform := rfl
@[simp] theorem addFrame_nanDraws (f : Frame) : (s.addFrame f).nanDraws = s.nanDraws := rfl

@[simp] theorem countDraw_status : (s.countDraw).status = s.status := rfl
@[simp] theorem countDraw_pc : (s.countDraw).pc = s.pc := rfl
@[simp] theorem countDraw_regs : (s.countDraw).regs = s.regs := rfl
@[simp] theorem countDraw_vs : (s.countDraw).vs = s.vs := rfl
@[simp] theorem countDraw_cs : (s.countDraw).cs = s.cs := rfl
@[simp] theorem countDraw_mem : (s.countDraw).mem = s.mem := rfl
@[simp] theorem countDraw_prog : (s.countDraw).prog = s.prog := rfl
@[simp] theorem countDraw_input : (s.countDraw).input = s.input := rfl
@[simp] theorem countDraw_outAnswers : (s.countDraw).outAnswers = s.outAnswers := rfl
@[simp] theorem countDraw_output : (s.countDraw).output = s.output := rfl
@[simp] theorem countDraw_frames : (s.countDraw).frames = s.frames := rfl
@[simp] theorem countDraw_platform : (s.countDraw).platform = s.platform := rfl
@[simp] theorem countDraw_nanDraws : (s.countDraw).nanDraws = s.nanDraws + 1 := rfl

/-- Reading a register after a write: the written one. -/
@[simp] theorem getElem_set_self (regs : Vector F64 Config.registerCount) (r : Reg) (v : F64) :
    (regs.set r v)[r] = v := by simp

/-- Reading a register after a write: any other one. -/
theorem getElem_set_other (regs : Vector F64 Config.registerCount) {r q : Reg} (v : F64) (h : q ≠ r) :
    (regs.set r v)[q] = regs[q] := by
  have : (r : Nat) ≠ q := fun e => h (Fin.ext e.symm)
  simp [this]

end Machine

end Sys2Proof
end

