-- ==== Sys2Proof/Laws/Float.lean ====
section
/-!
SUPPORT. The bridge between the machine's units of `2^-1074` (`Machine/Float.lean`) and the values of
`Ieee.lean`: what the parts of a pattern are, what a class says of a value, and that the machine's rounding is
to nearest, ties to even (`spec/41_arithmetic.md` R130, R131).
-/

namespace Sys2Proof

namespace Machine

open Ieee

/-! ### The parts of a pattern -/

theorem exponent_toNat (x : F64) : (exponent x).toNat = expField x := by
  simp only [exponent, expField, BitVec.extractLsb'_toNat, Nat.shiftRight_eq_div_pow]

theorem fraction_toNat (x : F64) : (fraction x).toNat = fracField x := by
  simp only [fraction, fracField, BitVec.extractLsb'_toNat, Nat.shiftRight_eq_div_pow, pow_zero, Nat.div_one]

theorem negative_eq_signBit (x : F64) : negative x = signBit x := by
  have := x.isLt
  rw [negative, signBit, BitVec.msb_eq_decide, Bool.eq_iff_iff]
  simp only [decide_eq_true_eq, beq_iff_eq]
  omega

theorem fracField_lt (x : F64) : fracField x < 2 ^ 52 := Nat.mod_lt _ (by norm_num)

theorem expField_lt (x : F64) : expField x < 2 ^ 11 := Nat.mod_lt _ (by norm_num)

theorem isFinite_iff (x : F64) : IsFinite x ↔ expField x ≠ 2047 := by
  rw [IsFinite, ne_eq, ← BitVec.toNat_inj, exponent_toNat]; rfl

theorem isInfinite_iff (x : F64) : IsInfinite x ↔ expField x = 2047 ∧ fracField x = 0 := by
  rw [IsInfinite, ← BitVec.toNat_inj, exponent_toNat, ← BitVec.toNat_inj, fraction_toNat]; rfl

theorem isNaN_iff (x : F64) : IsNaN x ↔ expField x = 2047 ∧ fracField x ≠ 0 := by
  rw [IsNaN, ← BitVec.toNat_inj, exponent_toNat, ne_eq, ← BitVec.toNat_inj, fraction_toNat]; rfl

/-- Every pattern is of exactly one class. -/
theorem classify_cases (x : F64) :
    (IsNaN x ∧ classify x = .nan) ∨ (IsInfinite x ∧ classify x = .inf (negative x)) ∨
    (IsFinite x ∧ classify x = .fin (negative x) (magUnits x)) := by
  rw [isNaN_iff, isInfinite_iff, isFinite_iff, negative_eq_signBit]
  unfold classify
  split
  · split
    · exact .inr (.inl ⟨⟨‹_›, ‹_›⟩, rfl⟩)
    · exact .inl ⟨⟨‹_›, ‹_›⟩, rfl⟩
  · exact .inr (.inr ⟨‹_›, rfl⟩)

theorem not_isNaN_of_isFinite {x : F64} (h : IsFinite x) : ¬ IsNaN x := fun h' => h h'.1

theorem not_isInfinite_of_isFinite {x : F64} (h : IsFinite x) : ¬ IsInfinite x := fun h' => h h'.1

theorem not_isNaN_of_isInfinite {x : F64} (h : IsInfinite x) : ¬ IsNaN x := fun h' => h'.2 h.2

theorem classify_of_isNaN {x : F64} (h : IsNaN x) : classify x = .nan := by
  rcases classify_cases x with ⟨_, h'⟩ | ⟨h', _⟩ | ⟨h', _⟩
  · exact h'
  · exact absurd h (not_isNaN_of_isInfinite h')
  · exact absurd h (not_isNaN_of_isFinite h')

theorem classify_of_isInfinite {x : F64} (h : IsInfinite x) : classify x = .inf (negative x) := by
  rcases classify_cases x with ⟨h', _⟩ | ⟨_, h'⟩ | ⟨h', _⟩
  · exact absurd h' (not_isNaN_of_isInfinite h)
  · exact h'
  · exact absurd h (not_isInfinite_of_isFinite h')

theorem classify_of_isFinite {x : F64} (h : IsFinite x) : classify x = .fin (negative x) (magUnits x) := by
  rcases classify_cases x with ⟨h', _⟩ | ⟨h', _⟩ | ⟨_, h'⟩
  · exact absurd h' (not_isNaN_of_isFinite h)
  · exact absurd h' (not_isInfinite_of_isFinite h)
  · exact h'

/-! ### Values in units -/

/-- The number of units that 63 low bits stand for. -/
def unitsOf (n : Nat) : Nat := if n / 2 ^ 52 = 0 then n else (2 ^ 52 + n % 2 ^ 52) * 2 ^ (n / 2 ^ 52 - 1)

/-- With `k` low bits dropped, a significand `t` of at most 53 bits stands for `t * 2^k` units. -/
theorem unitsOf_eq {k t : Nat} (h : k = 0 ∨ 2 ^ 52 ≤ t) (ht : t ≤ 2 ^ 53) :
    unitsOf (k * 2 ^ 52 + t) = t * 2 ^ k := by
  have key : ∀ e f, f < 2 ^ 52 → unitsOf ((e + 1) * 2 ^ 52 + f) = (2 ^ 52 + f) * 2 ^ e := by
    intro e f hf
    have h₁ : ((e + 1) * 2 ^ 52 + f) / 2 ^ 52 = e + 1 := by omega
    have h₂ : ((e + 1) * 2 ^ 52 + f) % 2 ^ 52 = f := by omega
    rw [unitsOf, h₁, h₂, if_neg (by omega), Nat.add_sub_cancel]
  by_cases h0 : t < 2 ^ 52
  · obtain rfl : k = 0 := by omega
    rw [unitsOf, if_pos (by omega)]
    omega
  · by_cases h1 : t = 2 ^ 53
    · subst h1
      have := key (k + 1) 0 (by norm_num)
      rw [show k * 2 ^ 52 + 2 ^ 53 = (k + 1 + 1) * 2 ^ 52 + 0 by omega, this, pow_succ]
      ring
    · have := key k (t - 2 ^ 52) (by omega)
      rw [show k * 2 ^ 52 + t = (k + 1) * 2 ^ 52 + (t - 2 ^ 52) by omega, this,
        show 2 ^ 52 + (t - 2 ^ 52) = t by omega]

/-- Each set of 63 low bits stands for fewer units than the next. -/
theorem unitsOf_strictMono : StrictMono unitsOf := by
  refine strictMono_nat_of_lt_succ fun n => ?_
  have h : n = (n / 2 ^ 52 - 1) * 2 ^ 52 + (if n / 2 ^ 52 = 0 then n else 2 ^ 52 + n % 2 ^ 52) := by
    split <;> omega
  generalize n / 2 ^ 52 - 1 = k at h
  generalize ht : (if n / 2 ^ 52 = 0 then n else 2 ^ 52 + n % 2 ^ 52) = t at h
  have hlt : t < 2 ^ 53 := by rw [← ht]; split <;> omega
  have hk : k = 0 ∨ 2 ^ 52 ≤ t := by
    by_cases h0 : n / 2 ^ 52 = 0
    · left
      rw [if_pos h0] at ht
      omega
    · right
      rw [if_neg h0] at ht
      omega
  rw [h, unitsOf_eq hk (by omega), Nat.add_assoc, unitsOf_eq (by omega) (by omega)]
  exact Nat.mul_lt_mul_of_pos_right (Nat.lt_succ_self t) (by positivity)

theorem unitsOf_infBits : unitsOf infBits = 2 ^ 2098 := by
  have := unitsOf_eq (k := 2046) (t := 2 ^ 52) (.inr le_rfl) (by norm_num)
  rw [show infBits = 2046 * 2 ^ 52 + 2 ^ 52 by norm_num [infBits], this, ← pow_add]

/-- The greatest finite magnitude. -/
theorem unitsOf_infBits_pred : unitsOf (infBits - 1) = 2 ^ 2098 - 2 ^ 2045 := by
  have := unitsOf_eq (k := 2045) (t := 2 ^ 53 - 1) (.inr (by norm_num)) (by norm_num)
  rw [show infBits - 1 = 2045 * 2 ^ 52 + (2 ^ 53 - 1) by norm_num [infBits], this, Nat.sub_mul, ← pow_add,
    one_mul]

theorem magUnits_eq_unitsOf (x : F64) : magUnits x = unitsOf (x.toNat % 2 ^ 63) := by
  have h₁ : x.toNat % 2 ^ 63 / 2 ^ 52 = expField x := by unfold expField; omega
  have h₂ : x.toNat % 2 ^ 63 % 2 ^ 52 = fracField x := by unfold fracField; omega
  unfold magUnits unitsOf
  rw [h₁, h₂]
  split
  · omega
  · rfl

theorem isFinite_iff_lt (x : F64) : IsFinite x ↔ x.toNat % 2 ^ 63 < infBits := by
  rw [isFinite_iff]
  unfold expField infBits
  omega

/-- The value of a finite pattern, in units. -/
theorem value_eq (x : F64) :
    value x = (signedUnits (negative x) (magUnits x) : ℚ) / 2 ^ 1074 := by
  have h0 : (exponent x = 0#11) ↔ expField x = 0 := by
    rw [← BitVec.toNat_inj, exponent_toNat]; rfl
  unfold value signedUnits magUnits
  simp only [h0, fraction_toNat, exponent_toNat]
  have hp : ((2 : ℚ) ^ 1074) ≠ 0 := by positivity
  by_cases he : expField x = 0
  · simp only [he, if_true]
    rw [zpow_neg]
    cases negative x <;> simp <;> field_simp
  · simp only [he, if_false]
    have : (2 : ℚ) ^ ((expField x : ℤ) - 1075) = 2 ^ (expField x - 1) / 2 ^ 1074 := by
      rw [eq_div_iff hp, ← zpow_natCast, ← zpow_natCast, ← zpow_add₀ (by norm_num)]
      congr 1
      omega
    rw [this]
    generalize (2 : ℚ) ^ 1074 = w
    cases negative x <;> simp <;> ring

/-! ### Packing -/

theorem toNat_pack (neg : Bool) (n : Nat) :
    (pack neg n).toNat = min n infBits + if neg then 2 ^ 63 else 0 := by
  rw [pack, BitVec.toNat_ofNat, Nat.mod_eq_of_lt]
  have : min n infBits ≤ infBits := min_le_right ..
  unfold infBits at *
  split <;> omega

theorem toNat_pack_mod (neg : Bool) (n : Nat) : (pack neg n).toNat % 2 ^ 63 = min n infBits := by
  rw [toNat_pack]
  have : min n infBits ≤ infBits := min_le_right ..
  unfold infBits at *
  split <;> omega

@[simp] theorem negative_pack (neg : Bool) (n : Nat) : negative (pack neg n) = neg := by
  rw [negative_eq_signBit, signBit, toNat_pack]
  have : min n infBits ≤ infBits := min_le_right ..
  unfold infBits at *
  cases neg
  · simp
    omega
  · simp

theorem magUnits_pack {neg : Bool} {n : Nat} (h : n ≤ infBits) : magUnits (pack neg n) = unitsOf n := by
  rw [magUnits_eq_unitsOf, toNat_pack_mod, min_eq_left h]

theorem isFinite_pack {neg : Bool} {n : Nat} : IsFinite (pack neg n) ↔ n < infBits := by
  rw [isFinite_iff_lt, toNat_pack_mod]
  omega

theorem isInfinite_pack {neg : Bool} {n : Nat} (h : infBits ≤ n) : IsInfinite (pack neg n) := by
  have := toNat_pack_mod neg n
  rw [isInfinite_iff]
  unfold expField fracField
  rw [min_eq_right h] at this
  unfold infBits at this
  constructor <;> omega

theorem not_isNaN_pack (neg : Bool) (n : Nat) : ¬ IsNaN (pack neg n) := by
  by_cases h : n < infBits
  · exact not_isNaN_of_isFinite (isFinite_pack.2 h)
  · exact not_isNaN_of_isInfinite (isInfinite_pack (by omega))

theorem fraction_pack_parity {neg : Bool} {n : Nat} (h : n < infBits) :
    (fraction (pack neg n)).toNat % 2 = n % 2 := by
  rw [fraction_toNat]
  have := toNat_pack_mod neg n
  rw [min_eq_left (by omega)] at this
  unfold fracField
  omega

theorem zeroOf_eq (neg : Bool) : zeroOf neg = zero neg := by
  cases neg <;> decide

theorem infOf_eq (neg : Bool) : infOf neg = infinity neg := by
  cases neg <;> decide

theorem eq_infinity_of_isInfinite {x : F64} (h : IsInfinite x) : x = infinity (negative x) := by
  rw [isInfinite_iff] at h
  apply BitVec.eq_of_toNat_eq
  have hx := x.isLt
  have hn : negative x = (x.toNat / 2 ^ 63 == 1) := negative_eq_signBit x
  unfold expField fracField at h
  unfold infinity
  split
  · rw [hn] at *
    simp only [beq_iff_eq] at *
    norm_num at *
    omega
  · rw [hn] at *
    simp only [beq_iff_eq] at *
    norm_num at *
    omega

/-- A finite value is zero just when no unit is left; then it is the zero of its sign. -/
theorem magUnits_eq_zero_iff {x : F64} : magUnits x = 0 ↔ x = zero (negative x) := by
  have hx := x.isLt
  have hn := negative_eq_signBit x
  unfold signBit at hn
  constructor
  · intro h
    rw [magUnits_eq_unitsOf, show 0 = unitsOf 0 by decide] at h
    have := unitsOf_strictMono.injective h
    apply BitVec.eq_of_toNat_eq
    unfold zero
    rw [hn]
    by_cases hs : x.toNat / 2 ^ 63 = 1
    · rw [hs]
      change x.toNat = 2 ^ 63
      omega
    · rw [beq_eq_false_iff_ne.2 hs]
      change x.toNat = 0
      omega
  · intro h
    rw [h, ← zeroOf_eq, zeroOf, magUnits_pack (by unfold infBits; omega)]
    decide

theorem value_eq_zero_iff {x : F64} : value x = 0 ↔ magUnits x = 0 := by
  rw [value_eq, div_eq_zero_iff]
  unfold signedUnits
  cases negative x <;> simp

/-! ### Rounding (R131) -/

/-- `b` are the 63 low bits of a value nearest to `q` units among all magnitudes, even where two are. -/
def Nearest (q : ℝ) (b : Nat) : Prop :=
  (∀ n, |(unitsOf b : ℝ) - q| ≤ |(unitsOf n : ℝ) - q|) ∧
  (∀ n, |(unitsOf n : ℝ) - q| = |(unitsOf b : ℝ) - q| → unitsOf n ≠ unitsOf b → b % 2 = 0)

/-- Rounding a significand `t` with `k` low bits dropped: up past the midpoint, to even on it. -/
theorem nearest_of_bracket {q : ℝ} {k t up : Nat} (hk : k = 0 ∨ 2 ^ 52 ≤ t) (ht : t < 2 ^ 53)
    (hlo : (t : ℝ) * 2 ^ k ≤ q) (hhi : q < (t + 1) * 2 ^ k)
    (hup : (q < (t + 1 / 2) * 2 ^ k ∧ up = 0) ∨ ((t + 1 / 2) * 2 ^ k < q ∧ up = 1) ∨
      (q = (t + 1 / 2) * 2 ^ k ∧ up = t % 2)) :
    Nearest q (k * 2 ^ 52 + t + up) := by
  have hL : (unitsOf (k * 2 ^ 52 + t) : ℝ) = t * 2 ^ k := by
    rw [unitsOf_eq hk (by omega)]; push_cast; ring
  have hU : (unitsOf (k * 2 ^ 52 + t + 1) : ℝ) = (t + 1) * 2 ^ k := by
    rw [Nat.add_assoc, unitsOf_eq (by omega) (by omega)]; push_cast; ring
  have side : ∀ n, (unitsOf n : ℝ) ≤ t * 2 ^ k ∨ ((t : ℝ) + 1) * 2 ^ k ≤ unitsOf n := by
    intro n
    rw [← hL, ← hU]
    rcases Nat.lt_or_ge (k * 2 ^ 52 + t) n with h | h
    · exact .inr (by exact_mod_cast unitsOf_strictMono.monotone h)
    · exact .inl (by exact_mod_cast unitsOf_strictMono.monotone h)
  have hp : (0 : ℝ) < 2 ^ k := by positivity
  generalize (2 : ℝ) ^ k = w at *
  rcases hup with ⟨h, rfl⟩ | ⟨h, rfl⟩ | ⟨h, rfl⟩
  · constructor
    · intro n
      rw [Nat.add_zero, hL, abs_of_nonpos (by linarith)]
      rcases side n with h' | h'
      · rw [abs_of_nonpos (by linarith)]; linarith
      · rw [abs_of_nonneg (by linarith)]; linarith
    · intro n he hne
      exfalso
      rw [Nat.add_zero, hL] at he
      have he := he.trans (abs_of_nonpos (by linarith))
      refine hne ?_
      have : (unitsOf n : ℝ) = t * w := by
        rcases side n with h' | h'
        · rw [abs_of_nonpos (by linarith)] at he; linarith
        · rw [abs_of_nonneg (by linarith)] at he; linarith
      rw [Nat.add_zero]
      exact_mod_cast this.trans hL.symm
  · constructor
    · intro n
      rw [hU, abs_of_nonneg (by linarith)]
      rcases side n with h' | h'
      · rw [abs_of_nonpos (by linarith)]; linarith
      · rw [abs_of_nonneg (by linarith)]; linarith
    · intro n he hne
      exfalso
      rw [hU] at he
      have he := he.trans (abs_of_nonneg (by linarith))
      refine hne ?_
      have : (unitsOf n : ℝ) = (t + 1) * w := by
        rcases side n with h' | h'
        · rw [abs_of_nonpos (by linarith)] at he; linarith
        · rw [abs_of_nonneg (by linarith)] at he; linarith
      exact_mod_cast this.trans hU.symm
  · refine ⟨fun n => ?_, fun _ _ _ => by omega⟩
    have hd : ∀ n, w / 2 ≤ |(unitsOf n : ℝ) - q| := by
      intro n
      rcases side n with h' | h'
      · rw [abs_of_nonpos (by linarith)]; linarith
      · rw [abs_of_nonneg (by linarith)]; linarith
    refine le_trans (le_of_eq ?_) (hd n)
    rcases Nat.mod_two_eq_zero_or_one t with h2 | h2
    · rw [h2, Nat.add_zero, hL, abs_of_nonpos (by linarith)]; linarith
    · rw [h2, hU, abs_of_nonneg (by linarith)]; linarith

/-- The machine's rounding of a quotient is to nearest, ties to even. -/
theorem nearest_roundQuotient (num : Nat) {den : Nat} (hd : 0 < den) :
    Nearest ((num : ℝ) / den) (roundQuotient num den) := by
  unfold roundQuotient
  generalize hk : Nat.log2 (num / den) - 52 = k
  simp only []
  set whole := den * 2 ^ k with hw
  set t := num / whole with ht
  have hwpos : 0 < whole := by positivity
  have hdiv : t = num / den / 2 ^ k := by rw [ht, hw, Nat.div_div_eq_div_mul]
  have hmod : whole * t + num % whole = num := Nat.div_add_mod num whole
  have hlt : num % whole < whole := Nat.mod_lt _ hwpos
  have hden : (0 : ℝ) < den := by exact_mod_cast hd
  have hwr : (whole : ℝ) = den * 2 ^ k := by rw [hw]; push_cast; ring
  have hmr : (whole : ℝ) * t + (num % whole : ℕ) = num := by exact_mod_cast hmod
  have hbound : t < 2 ^ 53 ∧ (k = 0 ∨ 2 ^ 52 ≤ t) := by
    by_cases hq : num / den = 0
    · have ht0 : t = 0 := by rw [hdiv, hq, Nat.zero_div]
      have hk0 : k = 0 := by rw [← hk, hq]; rfl
      exact ⟨by omega, .inl hk0⟩
    · have h₁ := Nat.log2_self_le hq
      have h₂ := @Nat.lt_log2_self (num / den)
      constructor
      · rw [hdiv, Nat.div_lt_iff_lt_mul (by positivity), ← pow_add]
        exact lt_of_lt_of_le h₂ (Nat.pow_le_pow_right (by norm_num) (by omega))
      · rcases Nat.eq_zero_or_pos k with h | h
        · exact .inl h
        · right
          rw [hdiv, Nat.le_div_iff_mul_le (by positivity), ← pow_add]
          exact le_trans (Nat.pow_le_pow_right (by norm_num) (by omega)) h₁
  have hq : (num : ℝ) / den = (t + ((num % whole : ℕ) : ℝ) / whole) * 2 ^ k := by
    have : (whole : ℝ) ≠ 0 := by positivity
    rw [← hmr, hwr] at *
    field_simp
  have hfrac : (((num % whole : ℕ) : ℝ) / whole) < 1 := by
    rw [div_lt_one (by exact_mod_cast hwpos)]; exact_mod_cast hlt
  have hfrac0 : (0 : ℝ) ≤ ((num % whole : ℕ) : ℝ) / whole := by positivity
  have hp : (0 : ℝ) < 2 ^ k := by positivity
  have hW : (0 : ℝ) < whole := by exact_mod_cast hwpos
  refine nearest_of_bracket hbound.2 hbound.1 ?_ ?_ ?_
  · rw [hq]; exact mul_le_mul_of_nonneg_right (by linarith) hp.le
  · rw [hq]; exact mul_lt_mul_of_pos_right (by linarith) hp
  · rw [hq]
    unfold roundUp
    rcases Nat.lt_trichotomy (2 * (num % whole)) whole with h | h | h
    · left
      refine ⟨mul_lt_mul_of_pos_right ?_ hp, by rw [if_neg (by omega)]⟩
      have : ((num % whole : ℕ) : ℝ) / whole < 1 / 2 := by
        rw [div_lt_iff₀ hW]
        have : (2 * (num % whole : ℕ) : ℝ) < whole := by exact_mod_cast h
        linarith
      linarith
    · right; right
      refine ⟨?_, ?_⟩
      · have : ((num % whole : ℕ) : ℝ) / whole = 1 / 2 := by
          rw [div_eq_iff hW.ne']
          have : (2 * (num % whole : ℕ) : ℝ) = whole := by exact_mod_cast h
          linarith
        rw [this]
      · split <;> omega
    · right; left
      refine ⟨mul_lt_mul_of_pos_right ?_ hp, by rw [if_pos (by omega)]⟩
      have : 1 / 2 < ((num % whole : ℕ) : ℝ) / whole := by
        rw [lt_div_iff₀ hW]
        have : (whole : ℝ) < (2 * (num % whole : ℕ) : ℝ) := by exact_mod_cast h
        linarith
      linarith

/-- Bit by bit, the greatest number whose square fits. -/
theorem sqrtBits_spec (bit n acc : Nat) (h : acc * acc ≤ n) (h' : n < (acc + 2 ^ bit) * (acc + 2 ^ bit)) :
    acc ≤ sqrtBits bit n acc ∧ sqrtBits bit n acc < acc + 2 ^ bit ∧
    sqrtBits bit n acc * sqrtBits bit n acc ≤ n ∧
    n < (sqrtBits bit n acc + 1) * (sqrtBits bit n acc + 1) := by
  induction bit generalizing acc with
  | zero => simpa [sqrtBits] using ⟨h, h'⟩
  | succ bit ih =>
    simp only [sqrtBits]
    have hp : 2 ^ (bit + 1) = 2 ^ bit + 2 ^ bit := by rw [pow_succ]; ring
    split
    · obtain ⟨h₁, h₂, h₃, h₄⟩ := ih (acc + 2 ^ bit) ‹_› (by rw [hp, ← Nat.add_assoc] at h'; exact h')
      exact ⟨by omega, by omega, h₃, h₄⟩
    · obtain ⟨h₁, h₂, h₃, h₄⟩ := ih acc h (by omega)
      exact ⟨h₁, by omega, h₃, h₄⟩

/-- The machine's rounding of a square root is to nearest, ties to even. -/
theorem nearest_roundSqrt {n : Nat} (hn : n ≠ 0) : Nearest (Real.sqrt n) (roundSqrt n) := by
  unfold roundSqrt
  generalize hk : Nat.log2 n / 2 - 52 = k
  simp only []
  generalize hm : n / 4 ^ k = m
  have h₁ := Nat.log2_self_le hn
  have h₂ := @Nat.lt_log2_self n
  have h4 : (4 : ℕ) ^ k = 2 ^ (2 * k) := by rw [pow_mul]; norm_num
  have hm2 : m < 2 ^ 106 := by
    rw [← hm, Nat.div_lt_iff_lt_mul (by positivity), h4, ← pow_add]
    exact lt_of_lt_of_le h₂ (Nat.pow_le_pow_right (by norm_num) (by omega))
  obtain ⟨-, ht, hsq, hsq'⟩ := sqrtBits_spec 53 m 0 (by omega) (by norm_num at *; omega)
  generalize sqrtBits 53 m 0 = t at *
  rw [Nat.zero_add] at ht
  have hkt : k = 0 ∨ 2 ^ 52 ≤ t := by
    rcases Nat.eq_zero_or_pos k with h | h
    · exact .inl h
    · right
      have : 2 ^ 104 ≤ m := by
        rw [← hm, Nat.le_div_iff_mul_le (by positivity), h4, ← pow_add]
        exact le_trans (Nat.pow_le_pow_right (by norm_num) (by omega)) h₁
      by_contra hlt
      have : t + 1 ≤ 2 ^ 52 := by omega
      have := Nat.mul_le_mul this this
      norm_num at *
      omega
  have hlo : t * t * 4 ^ k ≤ n := by
    rw [← Nat.le_div_iff_mul_le (by positivity), hm]; exact hsq
  have hhi : n < (t + 1) * (t + 1) * 4 ^ k := by
    rw [← Nat.div_lt_iff_lt_mul (by positivity), hm]; exact hsq'
  have e4 : ((4 : ℝ)) ^ k = 2 ^ k * 2 ^ k := by rw [← mul_pow]; norm_num
  have hp : (0 : ℝ) < 2 ^ k := by positivity
  have hloR : ((t : ℝ) * 2 ^ k) ^ 2 ≤ n := by
    have : ((t * t * 4 ^ k : ℕ) : ℝ) ≤ n := by exact_mod_cast hlo
    push_cast at this
    rw [e4] at this
    nlinarith
  have hhiR : (n : ℝ) < (((t : ℝ) + 1) * 2 ^ k) ^ 2 := by
    have : (n : ℝ) < (((t + 1) * (t + 1) * 4 ^ k : ℕ) : ℝ) := by exact_mod_cast hhi
    push_cast at this
    rw [e4] at this
    nlinarith
  have mid : (((t : ℝ) + 1 / 2) * 2 ^ k) ^ 2 * 4 = (((2 * t + 1) * (2 * t + 1) * 4 ^ k : ℕ) : ℝ) := by
    push_cast
    rw [e4]
    ring
  have hpos : (0 : ℝ) ≤ ((t : ℝ) + 1 / 2) * 2 ^ k := by positivity
  refine nearest_of_bracket hkt ht (Real.le_sqrt_of_sq_le hloR) ?_ ?_
  · exact (Real.sqrt_lt' (by positivity)).2 hhiR
  · unfold roundUp
    rcases Nat.lt_trichotomy (4 * n) ((2 * t + 1) * (2 * t + 1) * 4 ^ k) with h | h | h
    · left
      refine ⟨?_, by rw [if_neg (by omega)]⟩
      have : ((4 * n : ℕ) : ℝ) < (((2 * t + 1) * (2 * t + 1) * 4 ^ k : ℕ) : ℝ) := by exact_mod_cast h
      rw [← mid] at this
      push_cast at this
      exact (Real.sqrt_lt' (by positivity)).2 (by linarith)
    · right; right
      refine ⟨?_, by split <;> omega⟩
      have : ((4 * n : ℕ) : ℝ) = (((2 * t + 1) * (2 * t + 1) * 4 ^ k : ℕ) : ℝ) := by exact_mod_cast h
      rw [← mid] at this
      push_cast at this
      rw [show (n : ℝ) = (((t : ℝ) + 1 / 2) * 2 ^ k) ^ 2 by linarith, Real.sqrt_sq hpos]
    · right; left
      refine ⟨?_, by rw [if_pos (by omega)]⟩
      have : (((2 * t + 1) * (2 * t + 1) * 4 ^ k : ℕ) : ℝ) < ((4 * n : ℕ) : ℝ) := by exact_mod_cast h
      rw [← mid] at this
      push_cast at this
      exact Real.lt_sqrt_of_sq_lt (by linarith)

end Machine

end Sys2Proof
end

