-- ==== Sys2Proof/Laws/Rounding.lean ====
section
/-!
SUPPORT. What the ALU's operations answer, said by values: each result is the one `Ieee.lean` describes
(`spec/41_arithmetic.md` R131, R132, R148, R149), and `none` only where that result is a NaN.
-/

namespace Sys2Proof

namespace Machine

open Ieee

theorem isNaN_or_isInfinite_or_isFinite (x : F64) : IsNaN x ∨ IsInfinite x ∨ IsFinite x := by
  rcases classify_cases x with ⟨h, _⟩ | ⟨h, _⟩ | ⟨h, _⟩
  · exact .inl h
  · exact .inr (.inl h)
  · exact .inr (.inr h)

/-! ### Packing a rounded magnitude -/

/-- The value of a packed magnitude. -/
theorem value_pack {neg : Bool} {n : Nat} (h : n ≤ infBits) :
    (value (pack neg n) : ℝ) = (if neg then -1 else 1) * (unitsOf n : ℝ) / 2 ^ 1074 := by
  rw [value_eq, negative_pack, magUnits_pack h]
  generalize unitsOf n = u
  push_cast
  generalize (2 : ℝ) ^ 1074 = w
  unfold signedUnits
  cases neg <;> simp

theorem value_abs_units (c : F64) : ∃ n : Nat, |(value c : ℝ)| = (unitsOf n : ℝ) / 2 ^ 1074 := by
  refine ⟨c.toNat % 2 ^ 63, ?_⟩
  rw [← magUnits_eq_unitsOf, value_eq]
  have hw : (0 : ℝ) < 2 ^ 1074 := by positivity
  push_cast
  generalize (2 : ℝ) ^ 1074 = w at *
  unfold signedUnits
  cases negative c
  · simp [abs_div, abs_of_pos hw]
  · simp [abs_div, abs_of_pos hw]

/-- The value of a pattern as sign times units. -/
theorem value_real (c : F64) :
    (value c : ℝ) = (if negative c then -1 else 1) * (unitsOf (c.toNat % 2 ^ 63) : ℝ) / 2 ^ 1074 := by
  rw [value_eq, ← magUnits_eq_unitsOf]
  generalize magUnits c = u
  push_cast
  generalize (2 : ℝ) ^ 1074 = w
  unfold signedUnits
  cases negative c <;> simp

/-- Whether a nearest magnitude overflows is decided at `overflowBound`. -/
theorem nearest_lt_infBits {q : ℝ} {b : Nat} (h : Nearest q b) :
    b < infBits ↔ q < overflowBound * 2 ^ 1074 := by
  have e1 : overflowBound * 2 ^ 1074 = (2 : ℝ) ^ 2098 - 2 ^ 2044 := by
    unfold overflowBound
    rw [sub_mul, ← pow_add, ← pow_add]
  have hI : (unitsOf infBits : ℝ) = 2 ^ 2098 := by rw [unitsOf_infBits, Nat.cast_pow, Nat.cast_ofNat]
  have hle : (2 : ℕ) ^ 2045 ≤ 2 ^ 2098 := Nat.pow_le_pow_right (by norm_num) (by norm_num)
  have hP : (unitsOf (infBits - 1) : ℝ) = 2 ^ 2098 - 2 ^ 2045 := by
    rw [unitsOf_infBits_pred, Nat.cast_sub hle, Nat.cast_pow, Nat.cast_pow, Nat.cast_ofNat]
  have e2 : (2 : ℝ) ^ 2045 = 2 * 2 ^ 2044 := by rw [← pow_succ']
  have e3 : (2 : ℝ) ^ 2045 ≤ 2 ^ 2098 := by exact_mod_cast hle
  have hp : (0 : ℝ) < 2 ^ 2044 := by positivity
  rw [e1]
  rw [e2] at hP e3
  clear e1 e2 hle
  generalize (2 : ℝ) ^ 2044 = w at *
  generalize (2 : ℝ) ^ 2098 = z at *
  have hpos : 0 < infBits := by unfold infBits; omega
  constructor
  · intro hb
    by_contra hq
    have hub : (unitsOf b : ℝ) ≤ z - 2 * w := by
      rw [← hP]; exact_mod_cast unitsOf_strictMono.monotone (by omega)
    have h1 := h.1 infBits
    rw [hI, abs_of_nonpos (by linarith)] at h1
    rcases le_total q z with hqz | hqz
    · rw [abs_of_nonneg (by linarith)] at h1
      have hqe : q = z - w := by linarith
      have hue : (unitsOf b : ℝ) = z - 2 * w := by linarith
      have hbe : b = infBits - 1 := by
        apply unitsOf_strictMono.injective
        exact_mod_cast hue.trans hP.symm
      have := h.2 infBits (by rw [hI, hue, hqe, abs_of_nonneg (by linarith), abs_of_nonpos (by linarith)]; ring)
        (fun e => by have := unitsOf_strictMono.injective e; omega)
      rw [hbe] at this
      exact absurd this (by unfold infBits; decide)
    · rw [abs_of_nonpos (by linarith)] at h1
      linarith
  · intro hq
    by_contra hb
    have hub : z ≤ unitsOf b := by
      rw [← hI]; exact_mod_cast unitsOf_strictMono.monotone (by omega)
    have h1 := h.1 (infBits - 1)
    rw [hP, abs_of_nonneg (by linarith)] at h1
    rcases le_total q (z - 2 * w) with hqz | hqz
    · rw [abs_of_nonneg (by linarith)] at h1
      linarith
    · rw [abs_of_nonpos (by linarith)] at h1
      linarith

/-- Packing a nearest magnitude with a sign rounds to nearest, ties to even. -/
theorem roundsTo_pack {q x : ℝ} {b : Nat} {neg : Bool} (h : Nearest q b) (hq : 0 < q)
    (hx : x = (if neg then -1 else 1) * q / 2 ^ 1074) : RoundsTo x (pack neg b) := by
  have hw : (0 : ℝ) < 2 ^ 1074 := by positivity
  have hov := nearest_lt_infBits h
  have hvp : b < infBits → (value (pack neg b) : ℝ) = (if neg then -1 else 1) * (unitsOf b : ℝ) / 2 ^ 1074 :=
    fun hb => value_pack hb.le
  have hvr := value_real
  generalize (2 : ℝ) ^ 1074 = w at *
  have hax : |x| = q / w := by
    rw [hx, abs_div, abs_of_pos hw, abs_mul]
    cases neg <;> simp [abs_of_pos hq]
  have dist : ∀ n : Nat, |(if neg then (-1 : ℝ) else 1) * (unitsOf n : ℝ) / w - x| = |(unitsOf n : ℝ) - q| / w := by
    intro n
    rw [hx, ← sub_div, ← mul_sub, abs_div, abs_of_pos hw, abs_mul]
    cases neg <;> simp
  have far : ∀ c, |(unitsOf (c.toNat % 2 ^ 63) : ℝ) - q| / w ≤ |(value c : ℝ) - x| := by
    intro c
    rw [hvr c]
    have hu : (0 : ℝ) ≤ unitsOf (c.toNat % 2 ^ 63) := by positivity
    generalize (unitsOf (c.toNat % 2 ^ 63) : ℝ) = u at *
    rw [hx, ← sub_div, abs_div, abs_of_pos hw]
    refine (div_le_div_iff_of_pos_right hw).2 ?_
    cases negative c <;> cases neg <;> simp
    · rw [abs_of_nonneg (by linarith : 0 ≤ u + q)]
      exact abs_le.2 ⟨by linarith, by linarith⟩
    · rw [show -u - q = -(u + q) by ring, abs_neg, abs_of_nonneg (by linarith : 0 ≤ u + q)]
      exact abs_le.2 ⟨by linarith, by linarith⟩
    · rw [show -u + q = -(u - q) by ring, abs_neg]
  refine ⟨fun ho => ?_, fun ho => ?_, fun _ => ?_⟩
  · refine isInfinite_pack (not_lt.1 fun hb => ?_)
    rw [hax, le_div_iff₀ hw] at ho
    exact absurd (hov.1 hb) (not_lt.2 ho)
  · have hb : b < infBits := hov.2 (by rwa [hax, div_lt_iff₀ hw] at ho)
    have hd : |(value (pack neg b) : ℝ) - x| = |(unitsOf b : ℝ) - q| / w := by rw [hvp hb, dist]
    refine ⟨isFinite_pack.2 hb, fun c _ => ?_, fun c _ he hne => ?_⟩
    · rw [hd]
      exact le_trans ((div_le_div_iff_of_pos_right hw).2 (h.1 _)) (far c)
    · rw [fraction_pack_parity hb]
      have h1 := far c
      rw [he, hd, div_le_div_iff_of_pos_right hw] at h1
      have h2 := le_antisymm h1 (h.1 _)
      by_cases hu : unitsOf (c.toNat % 2 ^ 63) = unitsOf b
      · exfalso
        rw [hd, hvr c, hu] at he
        refine hne ?_
        have : (value c : ℝ) = value (pack neg b) := by
          rw [hvr c, hvp hb, hu]
          rw [hx, ← sub_div, abs_div, abs_of_pos hw, div_left_inj' hw.ne'] at he
          have hu0 : (0 : ℝ) ≤ unitsOf b := by positivity
          generalize (unitsOf b : ℝ) = u at *
          cases hc : negative c <;> cases neg <;> simp [hc] at he ⊢
          · rw [abs_of_nonneg (by linarith)] at he
            rcases abs_cases (u - q) with ⟨e, _⟩ | ⟨e, _⟩ <;> rw [e] at he
            · linarith
            · have : u = 0 := by linarith
              simp [this]
          · rw [show -u - q = -(u + q) by ring, abs_neg, abs_of_nonneg (by linarith)] at he
            rcases abs_cases (u - q) with ⟨e, _⟩ | ⟨e, _⟩ <;> rw [e] at he
            · linarith
            · have : u = 0 := by linarith
              simp [this]
        exact_mod_cast this
      · exact h.2 _ h2 hu
  · rw [negative_pack, hx]
    have hpos : 0 < q / w := div_pos hq hw
    cases neg
    · simpa using hpos.le
    · simpa [neg_div] using hpos

/-- `roundSigned` rounds to nearest, ties to even. -/
theorem roundsTo_roundSigned {num den : Nat} {neg : Bool} {x : ℝ} (hn : 0 < num) (hd : 0 < den)
    (hx : x = (if neg then -1 else 1) * ((num : ℝ) / den) / 2 ^ 1074) : RoundsTo x (roundSigned neg num den) :=
  roundsTo_pack (nearest_roundQuotient num hd) (by positivity) hx

/-- `roundSigned` is exact where the magnitude is that of some bits. -/
theorem roundSigned_exact {neg : Bool} {num n : Nat} (h : num = unitsOf n) :
    roundSigned neg num 1 = pack neg n := by
  have hN := nearest_roundQuotient num (den := 1) (by norm_num)
  have := hN.1 n
  rw [h] at this
  simp only [Nat.cast_one, div_one, sub_self, abs_zero] at this
  have h0 := abs_nonpos_iff.1 this
  have : unitsOf (roundQuotient (unitsOf n) 1) = unitsOf n := by exact_mod_cast sub_eq_zero.1 h0
  rw [roundSigned, h, unitsOf_strictMono.injective this]

theorem not_isNaN_roundSigned (neg : Bool) (num den : Nat) : ¬ IsNaN (roundSigned neg num den) :=
  not_isNaN_pack _ _

theorem not_isNaN_zero (neg : Bool) : ¬ IsNaN (zero neg) := by
  rw [← zeroOf_eq]; exact not_isNaN_pack _ _

theorem not_isNaN_infinity (neg : Bool) : ¬ IsNaN (infinity neg) := by
  rw [← infOf_eq]; exact not_isNaN_pack _ _

/-- A natural number up to `2^53` is the units of some bits. -/
theorem natural_units {n : Nat} (h : n ≤ 2 ^ 53) : ∃ b, b < infBits ∧ n * oneUnits = unitsOf b := by
  rcases Nat.eq_zero_or_pos n with rfl | hn
  · exact ⟨0, by unfold infBits; omega, by rw [Nat.zero_mul]; simp [unitsOf]⟩
  · have h1 := Nat.log2_self_le hn.ne'
    have h2 := @Nat.lt_log2_self n
    set l := Nat.log2 n with hl
    have hl53 : l ≤ 53 := by
      by_contra hc
      have : 2 ^ 54 ≤ 2 ^ l := Nat.pow_le_pow_right (by norm_num) (by omega)
      omega
    rcases Nat.lt_or_ge l 53 with hlt | hge
    · refine ⟨(l + 1022) * 2 ^ 52 + n * 2 ^ (52 - l), ?_, ?_⟩
      · have : n * 2 ^ (52 - l) < 2 ^ 53 := by
          calc n * 2 ^ (52 - l) < 2 ^ (l + 1) * 2 ^ (52 - l) := Nat.mul_lt_mul_of_pos_right h2 (by positivity)
            _ = 2 ^ 53 := by rw [← pow_add]; congr 1; omega
        unfold infBits
        omega
      · rw [unitsOf_eq, Nat.mul_assoc, ← pow_add, oneUnits, show 52 - l + (l + 1022) = 1074 by omega]
        · right
          calc 2 ^ 52 = 2 ^ l * 2 ^ (52 - l) := by rw [← pow_add]; congr 1; omega
            _ ≤ n * 2 ^ (52 - l) := Nat.mul_le_mul_right _ h1
        · calc n * 2 ^ (52 - l) ≤ 2 ^ (l + 1) * 2 ^ (52 - l) := Nat.mul_le_mul_right _ h2.le
            _ = 2 ^ 53 := by rw [← pow_add]; congr 1; omega
            _ ≤ 2 ^ 53 := le_rfl
    · have : n = 2 ^ 53 := by
        have : 2 ^ 53 ≤ 2 ^ l := Nat.pow_le_pow_right (by norm_num) hge
        omega
      subst this
      refine ⟨1075 * 2 ^ 52 + 2 ^ 52, by unfold infBits; omega, ?_⟩
      rw [unitsOf_eq (.inr le_rfl) (by norm_num), oneUnits, ← pow_add, ← pow_add]

/-- `FromNat` is exact up to `2^53`, and its pattern is that of the exact magnitude. -/
theorem ofNat_eq_pack {n : Nat} (h : n ≤ 2 ^ 53) :
    ∃ b, b < infBits ∧ n * oneUnits = unitsOf b ∧ ofNat n = pack false b := by
  obtain ⟨b, hb, e⟩ := natural_units h
  exact ⟨b, hb, e, roundSigned_exact e⟩

/-! ### The operations -/

theorem value_units (x : F64) : value x * 2 ^ 1074 = (signedUnits (negative x) (magUnits x) : ℚ) := by
  rw [value_eq, div_mul_cancel₀]
  positivity

/-- The sum of two finite values: the zero the rules name, or the correctly rounded sum (R131, R132). -/
theorem addFinite_spec (p q : Bool) (m n : Nat) (x : ℚ)
    (hx : x * 2 ^ 1074 = (signedUnits p m : ℚ) + signedUnits q n) :
    ¬ IsNaN (addFinite p m q n) ∧ (x = 0 → addFinite p m q n = zero (p && q)) ∧
    (x ≠ 0 → RoundsTo (x : ℝ) (addFinite p m q n)) := by
  have hz : (signedUnits p m + signedUnits q n = 0) ↔ x = 0 := by
    rw [← Int.cast_inj (α := ℚ)]
    push_cast
    rw [← hx, mul_eq_zero]
    simp
  unfold addFinite
  simp only []
  by_cases h0 : signedUnits p m + signedUnits q n = 0
  · rw [if_pos h0, zeroOf_eq]
    exact ⟨not_isNaN_zero _, fun _ => rfl, fun h => absurd (hz.1 h0) h⟩
  · rw [if_neg h0]
    refine ⟨not_isNaN_roundSigned _ _ _, fun h => absurd (hz.2 h) h0, fun _ => ?_⟩
    refine roundsTo_roundSigned (Int.natAbs_pos.2 h0) one_pos ?_
    have hxr : (x : ℝ) * 2 ^ 1074 = ((signedUnits p m + signedUnits q n : ℤ) : ℝ) := by
      have : ((x * 2 ^ 1074 : ℚ) : ℝ) = ((((signedUnits p m + signedUnits q n : ℤ)) : ℚ) : ℝ) := by
        rw [hx]; push_cast; rfl
      push_cast at this ⊢
      exact this
    have hw : (0 : ℝ) < 2 ^ 1074 := by positivity
    generalize (2 : ℝ) ^ 1074 = w at *
    generalize signedUnits p m + signedUnits q n = z at *
    rw [eq_div_iff hw.ne', hxr, Nat.cast_one, div_one, Nat.cast_natAbs]
    rcases lt_or_ge z 0 with hlt | hge
    · simp [hlt, abs_of_neg hlt]
    · simp [hge, abs_of_nonneg hge]

/-- The class of a pattern, with what it is not. -/
theorem class_cases (x : F64) :
    (classify x = .nan ∧ IsNaN x ∧ ¬ IsInfinite x ∧ ¬ IsFinite x) ∨
    (classify x = .inf (negative x) ∧ ¬ IsNaN x ∧ IsInfinite x ∧ ¬ IsFinite x) ∨
    (classify x = .fin (negative x) (magUnits x) ∧ ¬ IsNaN x ∧ ¬ IsInfinite x ∧ IsFinite x) := by
  rcases classify_cases x with ⟨h, e⟩ | ⟨h, e⟩ | ⟨h, e⟩
  · exact .inl ⟨e, h, fun h' => not_isNaN_of_isInfinite h' h, fun h' => not_isNaN_of_isFinite h' h⟩
  · exact .inr (.inl ⟨e, not_isNaN_of_isInfinite h, h, fun h' => not_isInfinite_of_isFinite h' h⟩)
  · exact .inr (.inr ⟨e, not_isNaN_of_isFinite h, not_isInfinite_of_isFinite h, h⟩)

/-- `a + b`: no NaN, and the sum the rules give (R131, R132). -/
theorem fAdd_some {a b v : F64} (h : fAdd a b = some v) : ¬ IsNaN v ∧ IsSum false a b v := by
  unfold fAdd at h
  rcases class_cases a with ⟨ea, ha⟩ | ⟨ea, ha⟩ | ⟨ea, ha⟩ <;>
    rcases class_cases b with ⟨eb, hb⟩ | ⟨eb, hb⟩ | ⟨eb, hb⟩ <;>
    simp only [ea, eb, reduceCtorEq, Option.some.injEq, Option.ite_none_right_eq_some] at h
  · obtain ⟨hs, rfl⟩ := h
    rw [infOf_eq]
    exact ⟨not_isNaN_infinity _, by simp [IsSum, ha, hb, hs]⟩
  · subst h
    rw [infOf_eq]
    exact ⟨not_isNaN_infinity _, by simp [IsSum, ha, hb]⟩
  · subst h
    rw [infOf_eq]
    exact ⟨not_isNaN_infinity _, by simp [IsSum, ha, hb]⟩
  · subst h
    obtain ⟨h1, h2⟩ := addFinite_spec (negative a) (negative b) (magUnits a) (magUnits b)
      (value a + value b) (by rw [add_mul, value_units, value_units])
    exact ⟨h1, by simpa only [IsSum, ha, hb, Bool.bne_false, Bool.false_eq_true, if_false, false_or,
      false_implies, true_implies, true_and] using h2⟩

/-- `a + b` is left open only where any NaN is the sum (R132, R134). -/
theorem fAdd_none {a b v : F64} (h : fAdd a b = none) (hv : IsNaN v) : IsSum false a b v := by
  unfold fAdd at h
  rcases class_cases a with ⟨ea, ha⟩ | ⟨ea, ha⟩ | ⟨ea, ha⟩ <;>
    rcases class_cases b with ⟨eb, hb⟩ | ⟨eb, hb⟩ | ⟨eb, hb⟩ <;>
    simp_all [IsSum]

theorem negative_negate (b : F64) : negative (negate b) = !negative b := by
  rw [negative, negative, negate, BitVec.msb_xor, show (0x8000000000000000#64).msb = true by decide,
    Bool.xor_true]

theorem exponent_negate (b : F64) : exponent (negate b) = exponent b := by
  unfold exponent negate
  rw [BitVec.extractLsb'_xor]
  simp

theorem fraction_negate (b : F64) : fraction (negate b) = fraction b := by
  unfold fraction negate
  rw [BitVec.extractLsb'_xor]
  simp

theorem value_negate (b : F64) : value (negate b) = -value b := by
  unfold value
  rw [negative_negate, exponent_negate, fraction_negate, ← neg_mul]
  cases negative b <;> simp only [Bool.not_true, Bool.not_false, Bool.false_eq_true, if_true, if_false, neg_neg]

/-- A difference is the sum with the second sign flipped. -/
theorem isSum_negate {a b v : F64} : IsSum false a (negate b) v ↔ IsSum true a b v := by
  unfold IsSum IsNaN IsInfinite IsFinite
  rw [negative_negate, exponent_negate, fraction_negate, value_negate]
  simp

/-- `a - b`: no NaN, and the difference the rules give (R131, R132). -/
theorem fSub_some {a b v : F64} (h : fSub a b = some v) : ¬ IsNaN v ∧ IsSum true a b v := by
  obtain ⟨h₁, h₂⟩ := fAdd_some h
  exact ⟨h₁, isSum_negate.1 h₂⟩

/-- `a - b` is left open only where any NaN is the difference (R132, R134). -/
theorem fSub_none {a b v : F64} (h : fSub a b = none) (hv : IsNaN v) : IsSum true a b v :=
  isSum_negate.1 (fAdd_none h hv)

/-- A value by its sign and its units, in the reals. -/
theorem value_signed (x : F64) :
    (value x : ℝ) = (if negative x then -1 else 1) * (magUnits x : ℝ) / 2 ^ 1074 := by
  rw [value_real, ← magUnits_eq_unitsOf]

theorem oneUnits_cast : (oneUnits : ℝ) = 2 ^ 1074 := by
  rw [oneUnits, Nat.cast_pow, Nat.cast_ofNat]

theorem oneUnits_pos : 0 < oneUnits := by unfold oneUnits; positivity

theorem roundSigned_zero (neg : Bool) (den : Nat) : roundSigned neg 0 den = zero neg := by
  have : roundQuotient 0 den = 0 := by
    unfold roundQuotient
    simp [roundUp]
  rw [roundSigned, this, ← zeroOf_eq, zeroOf]

/-- The product of two finite values (R131, R132). -/
theorem mulFinite_spec (a b : F64) :
    (value a * value b = 0 →
      roundSigned (negative a != negative b) (magUnits a * magUnits b) oneUnits =
        zero (negative a != negative b)) ∧
    (value a * value b ≠ 0 → RoundsTo ((value a * value b : ℚ) : ℝ)
      (roundSigned (negative a != negative b) (magUnits a * magUnits b) oneUnits)) := by
  have hz : value a * value b = 0 ↔ magUnits a * magUnits b = 0 := by
    rw [mul_eq_zero, value_eq_zero_iff, value_eq_zero_iff, Nat.mul_eq_zero]
  rw [ne_eq, hz]
  constructor
  · intro h
    rw [h, roundSigned_zero]
  · intro h
    refine roundsTo_roundSigned (Nat.pos_of_ne_zero h) oneUnits_pos ?_
    push_cast
    rw [value_signed, value_signed, oneUnits_cast]
    generalize (2 : ℝ) ^ 1074 = w
    cases negative a <;> cases negative b <;> simp <;> ring

/-- `a * b`: no NaN, and the product the rules give (R131, R132). -/
theorem fMul_some {a b v : F64} (h : fMul a b = some v) : ¬ IsNaN v ∧ IsProduct a b v := by
  unfold fMul at h
  rcases class_cases a with ⟨ea, ha⟩ | ⟨ea, ha⟩ | ⟨ea, ha⟩ <;>
    rcases class_cases b with ⟨eb, hb⟩ | ⟨eb, hb⟩ | ⟨eb, hb⟩ <;>
    simp only [ea, eb, reduceCtorEq, Option.some.injEq, Option.ite_none_left_eq_some] at h
  · subst h
    rw [infOf_eq]
    exact ⟨not_isNaN_infinity _, by simp [IsProduct, ha, hb]⟩
  · obtain ⟨hs, rfl⟩ := h
    rw [infOf_eq]
    exact ⟨not_isNaN_infinity _, by simp [IsProduct, ha, hb, value_eq_zero_iff, hs]⟩
  · obtain ⟨hs, rfl⟩ := h
    rw [infOf_eq]
    exact ⟨not_isNaN_infinity _, by simp [IsProduct, ha, hb, value_eq_zero_iff, hs]⟩
  · subst h
    exact ⟨not_isNaN_roundSigned _ _ _, by
      simpa only [IsProduct, ha, hb, false_or, false_implies, true_implies, true_and, implies_true] using
        mulFinite_spec a b⟩

/-- `a * b` is left open only where any NaN is the product (R132, R134). -/
theorem fMul_none {a b v : F64} (h : fMul a b = none) (hv : IsNaN v) : IsProduct a b v := by
  unfold fMul at h
  rcases class_cases a with ⟨ea, ha⟩ | ⟨ea, ha⟩ | ⟨ea, ha⟩ <;>
    rcases class_cases b with ⟨eb, hb⟩ | ⟨eb, hb⟩ | ⟨eb, hb⟩ <;>
    simp_all [IsProduct, value_eq_zero_iff]

/-- The quotient of two finite values (R131, R132). -/
theorem divFinite_spec {a b : F64} (hb : magUnits b ≠ 0) :
    (value a = 0 →
      roundSigned (negative a != negative b) (magUnits a * oneUnits) (magUnits b) =
        zero (negative a != negative b)) ∧
    (value a ≠ 0 → RoundsTo ((value a / value b : ℚ) : ℝ)
      (roundSigned (negative a != negative b) (magUnits a * oneUnits) (magUnits b))) := by
  rw [ne_eq, value_eq_zero_iff]
  constructor
  · intro h
    rw [h, Nat.zero_mul, roundSigned_zero]
  · intro h
    refine roundsTo_roundSigned (Nat.mul_pos (Nat.pos_of_ne_zero h) oneUnits_pos) (Nat.pos_of_ne_zero hb) ?_
    push_cast
    rw [value_signed, value_signed, oneUnits_cast]
    have hw : (0 : ℝ) < 2 ^ 1074 := by positivity
    have hm : (magUnits b : ℝ) ≠ 0 := by exact_mod_cast hb
    generalize (2 : ℝ) ^ 1074 = w at *
    have hw' := hw.ne'
    cases negative a <;> cases negative b <;> simp <;> field_simp

/-- `a / b` for a divisor that is not zero: no NaN, and the quotient the rules give (R131, R132). -/
theorem fDiv_some {a b v : F64} (h : fDiv a b = some v) : ¬ IsNaN v ∧ IsQuotient a b v := by
  unfold fDiv at h
  rcases class_cases a with ⟨ea, ha⟩ | ⟨ea, ha⟩ | ⟨ea, ha⟩ <;>
    rcases class_cases b with ⟨eb, hb⟩ | ⟨eb, hb⟩ | ⟨eb, hb⟩ <;>
    simp only [ea, eb, reduceCtorEq, Option.some.injEq, Option.ite_none_left_eq_some] at h
  · subst h
    rw [infOf_eq]
    exact ⟨not_isNaN_infinity _, by simp [IsQuotient, ha, hb]⟩
  · subst h
    rw [zeroOf_eq]
    exact ⟨not_isNaN_zero _, by simp [IsQuotient, ha, hb]⟩
  · obtain ⟨hs, rfl⟩ := h
    exact ⟨not_isNaN_roundSigned _ _ _, by
      simpa only [IsQuotient, ha, hb, false_or, false_implies, true_implies, true_and] using
        fun _ => divFinite_spec hs⟩

/-- `a / b` is left open only where any NaN is the quotient (R132, R134). -/
theorem fDiv_none {a b v : F64} (h : fDiv a b = none) (hv : IsNaN v) : IsQuotient a b v := by
  unfold fDiv at h
  rcases class_cases a with ⟨ea, ha⟩ | ⟨ea, ha⟩ | ⟨ea, ha⟩ <;>
    rcases class_cases b with ⟨eb, hb⟩ | ⟨eb, hb⟩ | ⟨eb, hb⟩ <;>
    simp_all [IsQuotient, value_eq_zero_iff]

/-! ### Square root, absolute value, floor -/

theorem value_pos_iff {x : F64} : 0 < value x ↔ negative x = false ∧ magUnits x ≠ 0 := by
  rw [value_eq]
  have hw : (0 : ℚ) < 2 ^ 1074 := by positivity
  generalize (2 : ℚ) ^ 1074 = w at *
  rw [lt_div_iff₀ hw, zero_mul]
  unfold signedUnits
  cases negative x <;> simp [Nat.pos_iff_ne_zero]

/-- `sqrt(a)`: no NaN, and the root the rules give (R131, R145). -/
theorem fSqrt_some {a v : F64} (h : fSqrt a = some v) : ¬ IsNaN v ∧ IsSquareRoot a v := by
  unfold fSqrt at h
  rcases class_cases a with ⟨ea, ha⟩ | ⟨ea, ha⟩ | ⟨ea, ha⟩ <;> simp only [ea, reduceCtorEq] at h
  · split at h <;> simp only [reduceCtorEq, Option.some.injEq] at h
    subst h
    rw [infOf_eq]
    exact ⟨not_isNaN_infinity _, by simp [IsSquareRoot, ha]⟩
  · split at h
    · simp only [Option.some.injEq] at h
      rename_i hm
      rw [zeroOf_eq, ← magUnits_eq_zero_iff.1 hm] at h
      subst h
      exact ⟨ha.1, by simp [IsSquareRoot, ha, value_pos_iff, hm]⟩
    · rename_i hm
      split at h <;> simp only [reduceCtorEq, Option.some.injEq] at h
      rename_i hs
      subst h
      refine ⟨not_isNaN_pack _ _, ?_⟩
      simp only [IsSquareRoot, ha, false_implies, true_implies, true_and]
      refine ⟨fun h => absurd (value_eq_zero_iff.1 h) hm, fun _ => ?_⟩
      have hpos : 0 < magUnits a * oneUnits := Nat.mul_pos (Nat.pos_of_ne_zero hm) oneUnits_pos
      refine roundsTo_pack (nearest_roundSqrt hpos.ne') (Real.sqrt_pos.2 (by exact_mod_cast hpos)) ?_
      rw [value_signed, Nat.cast_mul, oneUnits_cast]
      have hw : (0 : ℝ) < 2 ^ 1074 := by positivity
      generalize (2 : ℝ) ^ 1074 = w at *
      simp only [hs, if_false, one_mul, Bool.false_eq_true]
      rw [show (magUnits a : ℝ) / w = magUnits a * w / w ^ 2 by field_simp,
        Real.sqrt_div' _ (by positivity), Real.sqrt_sq hw.le]

/-- `sqrt(a)` is left open only where any NaN is the root, or where `sqrt` faults (R134, R145). -/
theorem fSqrt_none {a v : F64} (h : fSqrt a = none) (hv : IsNaN v) (hn : negative a = true → ¬ IsInfinite a)
    (hp : negative a = true → IsFinite a → magUnits a = 0) : IsSquareRoot a v := by
  unfold fSqrt at h
  rcases class_cases a with ⟨ea, ha⟩ | ⟨ea, ha⟩ | ⟨ea, ha⟩
  · simp [IsSquareRoot, ha, hv]
  · simp_all
  · by_cases hm : magUnits a = 0
    · simp [ea, hm] at h
    · cases hs : negative a
      · simp [ea, hm, hs] at h
      · exact absurd (hp hs ha.2.2) hm

/-- `|a|`: no NaN, and the operand with its sign bit cleared (R148). -/
theorem fAbs_some {a v : F64} (h : fAbs a = some v) : ¬ IsNaN v ∧ IsAbs a v := by
  unfold fAbs at h
  split at h <;> simp only [reduceCtorEq, Option.some.injEq] at h
  rename_i hn
  have hn : ¬ IsNaN a := fun h' => hn (by simp [isNaN, classify_of_isNaN h'])
  have he : exponent v = exponent a := by
    subst h
    unfold exponent
    rw [BitVec.extractLsb'_and, show BitVec.extractLsb' 52 11 0x7FFFFFFFFFFFFFFF#64 = BitVec.allOnes 11 by decide,
      BitVec.and_allOnes]
  have hf : fraction v = fraction a := by
    subst h
    unfold fraction
    rw [BitVec.extractLsb'_and, show BitVec.extractLsb' 0 52 0x7FFFFFFFFFFFFFFF#64 = BitVec.allOnes 52 by decide,
      BitVec.and_allOnes]
  have hs : negative v = false := by
    subst h
    rw [negative, BitVec.msb_and, show (0x7FFFFFFFFFFFFFFF#64).msb = false by decide, Bool.and_false]
  refine ⟨fun h' => hn ?_, fun h' => absurd h' hn, fun _ => ⟨hs, he, hf⟩⟩
  rwa [IsNaN, he, hf] at h'

/-- `|a|` is left open only for a NaN (R134). -/
theorem fAbs_none {a v : F64} (h : fAbs a = none) (hv : IsNaN v) : IsAbs a v := by
  unfold fAbs at h
  split at h <;> simp only [reduceCtorEq] at h
  rename_i hn
  have : IsNaN a := by
    rcases class_cases a with ⟨ea, ha⟩ | ⟨ea, ha⟩ | ⟨ea, ha⟩ <;> simp_all [isNaN]
  exact ⟨fun _ => hv, fun h => absurd this h⟩

/-- The whole part of a magnitude, either way rounded, is the magnitude of some bits. -/
theorem floorMag_units (neg : Bool) (x : F64) (hx : IsFinite x) :
    ∃ b, b < infBits ∧ floorMag neg (magUnits x) * oneUnits = unitsOf b := by
  have hone := oneUnits_pos
  by_cases he : expField x - 1 < 1074
  · have hm : magUnits x ≤ 2 ^ 53 * oneUnits := by
      have hf := fracField_lt x
      have hp : 2 ^ (expField x - 1) ≤ oneUnits := Nat.pow_le_pow_right two_pos he.le
      unfold magUnits
      generalize oneUnits = w at *
      split
      · exact le_trans (by omega) (Nat.le_mul_of_pos_right _ hone)
      · exact Nat.mul_le_mul (by omega) hp
    refine natural_units ?_
    unfold floorMag
    generalize oneUnits = w at *
    generalize magUnits x = m at *
    clear he
    split
    · refine Nat.lt_succ_iff.1 (Nat.div_lt_of_lt_mul ?_)
      rw [Nat.mul_succ, Nat.mul_comm w]
      omega
    · exact Nat.div_le_of_le_mul (by rwa [Nat.mul_comm])
  · refine ⟨x.toNat % 2 ^ 63, (isFinite_iff_lt x).1 hx, ?_⟩
    rw [← magUnits_eq_unitsOf]
    obtain ⟨j, hj⟩ : oneUnits ∣ magUnits x := by
      unfold magUnits oneUnits
      rw [if_neg (by omega)]
      exact Dvd.dvd.mul_left (pow_dvd_pow _ (by omega)) _
    rw [hj]
    have : floorMag neg (oneUnits * j) = j := by
      unfold floorMag
      split
      · rw [Nat.mul_add_div hone, Nat.div_eq_of_lt (by omega), Nat.add_zero]
      · exact Nat.mul_div_cancel_left _ hone
    rw [this, Nat.mul_comm]

theorem floor_signedUnits (neg : Bool) (m : Nat) :
    ⌊(signedUnits neg m : ℚ) / 2 ^ 1074⌋ = signedUnits neg (floorMag neg m) := by
  have hone := oneUnits_pos
  have hc : (2 : ℚ) ^ 1074 = (oneUnits : ℚ) := by rw [oneUnits, Nat.cast_pow, Nat.cast_ofNat]
  rw [hc]
  unfold signedUnits floorMag
  generalize oneUnits = w at *
  clear hc
  have hw : (0 : ℚ) < w := by exact_mod_cast hone
  have h1 := Nat.div_add_mod m w
  have h2 := Nat.mod_lt m hone
  have h3 := Nat.div_add_mod (m + (w - 1)) w
  have h4 := Nat.mod_lt (m + (w - 1)) hone
  rw [Int.floor_eq_iff, le_div_iff₀ hw, div_lt_iff₀ hw]
  cases neg
  · simp only [Bool.false_eq_true, if_false]
    have a1 : m / w * w ≤ m := Nat.div_mul_le_self m w
    have a2 : m < (m / w + 1) * w := by rw [Nat.add_mul, Nat.mul_comm]; omega
    exact ⟨by exact_mod_cast a1, by exact_mod_cast a2⟩
  · simp only [if_true]
    rw [Nat.mul_comm] at h3
    have a1 : m ≤ (m + (w - 1)) / w * w := by omega
    have a2 : (m + (w - 1)) / w * w < m + w := by omega
    generalize (m + (w - 1)) / w = q at *
    have b1 : (m : ℚ) ≤ (q : ℚ) * w := by exact_mod_cast a1
    have b2 : (q : ℚ) * w < m + w := by exact_mod_cast a2
    push_cast
    constructor <;> linarith

/-- `floor(a)`: no NaN, and the floor the rules give (R149). -/
theorem fFloor_some {a v : F64} (h : fFloor a = some v) : ¬ IsNaN v ∧ IsFloor a v := by
  unfold fFloor at h
  rcases class_cases a with ⟨ea, ha⟩ | ⟨ea, ha⟩ | ⟨ea, ha⟩ <;>
    simp only [ea, reduceCtorEq, Option.some.injEq] at h
  · rw [infOf_eq, ← eq_infinity_of_isInfinite ha.2.1] at h
    subst h
    exact ⟨ha.1, by simp [IsFloor, ha]⟩
  · obtain ⟨b, hb, e⟩ := floorMag_units (negative a) a ha.2.2
    rw [roundSigned_exact e] at h
    subst h
    refine ⟨not_isNaN_pack _ _, ?_⟩
    simp only [IsFloor, ha, false_implies, true_implies, true_and, negative_pack, implies_true, and_true]
    refine ⟨isFinite_pack.2 hb, ?_⟩
    rw [value_eq, value_eq, floor_signedUnits, negative_pack, magUnits_pack hb.le, ← e]
    have hc : (2 : ℚ) ^ 1074 = (oneUnits : ℚ) := by rw [oneUnits, Nat.cast_pow, Nat.cast_ofNat]
    have hone := oneUnits_pos
    rw [hc]
    generalize oneUnits = w at *
    have hw : (w : ℚ) ≠ 0 := by exact_mod_cast hone.ne'
    unfold signedUnits
    cases negative a <;> simp <;> field_simp

/-- `floor(a)` is left open only for a NaN (R134). -/
theorem fFloor_none {a v : F64} (h : fFloor a = none) (hv : IsNaN v) : IsFloor a v := by
  unfold fFloor at h
  rcases class_cases a with ⟨ea, ha⟩ | ⟨ea, ha⟩ | ⟨ea, ha⟩ <;> simp_all [IsFloor]

end Machine

end Sys2Proof
end

