-- ==== Sys2Proof/Laws/Values.lean ====
section
/-!
SUPPORT. What the comparisons, the conversions and the unspecified NaNs are, said by the values of `Ieee.lean`
(`spec/41_arithmetic.md` R133, R134; `spec/20_memory.md` R53, R59).
-/

namespace Sys2Proof

namespace Machine

open Ieee

/-! ### Comparisons (R133) -/

theorem value_lt_iff {a b : F64} :
    value a < value b ↔ signedUnits (negative a) (magUnits a) < signedUnits (negative b) (magUnits b) := by
  rw [value_eq, value_eq, div_lt_div_iff_of_pos_right (by positivity), Int.cast_lt]

theorem value_inj_iff {a b : F64} :
    value a = value b ↔ signedUnits (negative a) (magUnits a) = signedUnits (negative b) (magUnits b) := by
  rw [value_eq, value_eq, div_left_inj' (by positivity), Int.cast_inj]

theorem place_of_isFinite {x : F64} (h : IsFinite x) :
    place x = ((value x : WithTop ℚ) : WithBot (WithTop ℚ)) := if_neg h

theorem place_of_isInfinite {x : F64} (h : IsInfinite x) :
    place x = if negative x then ⊥ else ((⊤ : WithTop ℚ) : WithBot (WithTop ℚ)) := if_pos h.1

/-- The machine's comparison is the order of the number line, and unordered for a NaN. -/
theorem fCompare_spec (a b : F64) :
    (fCompare a b = none ∧ ¬ Ordered a b) ∨
    (fCompare a b = some .lt ∧ Ordered a b ∧ place a < place b) ∨
    (fCompare a b = some .eq ∧ Ordered a b ∧ place a = place b) ∨
    (fCompare a b = some .gt ∧ Ordered a b ∧ place b < place a) := by
  unfold fCompare Ordered
  rcases class_cases a with ⟨ea, ha⟩ | ⟨ea, ha⟩ | ⟨ea, ha⟩ <;>
    rcases class_cases b with ⟨eb, hb⟩ | ⟨eb, hb⟩ | ⟨eb, hb⟩ <;> rw [ea, eb]
  · exact .inl ⟨rfl, fun h => h.1 ha.1⟩
  · exact .inl ⟨rfl, fun h => h.1 ha.1⟩
  · exact .inl ⟨rfl, fun h => h.1 ha.1⟩
  · exact .inl ⟨rfl, fun h => h.2 hb.1⟩
  · right
    simp only [ha, hb, place_of_isInfinite ha.2.1, place_of_isInfinite hb.2.1]
    cases negative a <;> cases negative b <;> simp
  · right
    simp only [ha, hb, place_of_isInfinite ha.2.1, place_of_isFinite hb.2.2]
    cases negative a
    · simpa using WithBot.coe_lt_coe.2 (WithTop.coe_lt_top (value b))
    · simp [WithBot.bot_lt_coe]
  · exact .inl ⟨rfl, fun h => h.2 hb.1⟩
  · right
    simp only [ha, hb, place_of_isInfinite hb.2.1, place_of_isFinite ha.2.2]
    cases negative b
    · simpa using WithBot.coe_lt_coe.2 (WithTop.coe_lt_top (value a))
    · simp [WithBot.bot_lt_coe]
  · right
    simp only [ha, hb, place_of_isFinite ha.2.2, place_of_isFinite hb.2.2, WithBot.coe_lt_coe,
      WithTop.coe_lt_coe, WithBot.coe_inj, WithTop.coe_inj, value_lt_iff, value_inj_iff]
    unfold compareUnits
    rcases lt_trichotomy (signedUnits (negative a) (magUnits a)) (signedUnits (negative b) (magUnits b)) with
      h | h | h
    · simp [h]
    · simp [h]
    · simp [h, h.ne', not_lt.2 h.le]

/-- `a < b` (R133). -/
theorem fLt_iff {a b : F64} : fLt a b = true ↔ Less a b := by
  unfold fLt Less
  rcases fCompare_spec a b with ⟨e, h⟩ | ⟨e, h⟩ | ⟨e, h⟩ | ⟨e, h⟩ <;> rw [e]
  · simp [h]
  · simp [h]
  · simp [h]
  · simp [h, h.2.le]

/-- `a == b` (R133). -/
theorem fEq_iff {a b : F64} : fEq a b = true ↔ Equal a b := by
  unfold fEq Equal
  rcases fCompare_spec a b with ⟨e, h⟩ | ⟨e, h⟩ | ⟨e, h⟩ | ⟨e, h⟩ <;> rw [e]
  · simp [h]
  · simp [h, h.2.ne]
  · simp [h]
  · simp [h, h.2.ne']

/-- `a > b` (R133). -/
theorem fGt_iff {a b : F64} : fGt a b = true ↔ Less b a := by
  unfold fGt Less
  rcases fCompare_spec a b with ⟨e, h⟩ | ⟨e, h⟩ | ⟨e, h⟩ | ⟨e, h⟩ <;> rw [e]
  · exact iff_of_false (by decide) fun h' => h ⟨h'.1.2, h'.1.1⟩
  · simp [h.2.le]
  · simp [h.2]
  · simp [h, h.1.1, h.1.2, Ordered]

/-- `a <= b` (R133). -/
theorem fLe_iff {a b : F64} : fLe a b = true ↔ LessOrEqual a b := by
  rw [fLe, Bool.or_eq_true, fLt_iff, fEq_iff, Less, Equal, LessOrEqual, le_iff_lt_or_eq, and_or_left]

/-- `a >= b` (R133). -/
theorem fGe_iff {a b : F64} : fGe a b = true ↔ LessOrEqual b a := by
  rw [fGe, Bool.or_eq_true, fGt_iff, fEq_iff, Less, Equal, LessOrEqual, le_iff_lt_or_eq, and_or_left,
    Ordered, Ordered]
  tauto

/-- `a != b` (R133). -/
theorem fNe_iff {a b : F64} : fNe a b = true ↔ ¬ Equal a b := by
  rw [fNe, Bool.not_eq_true', ← Bool.not_eq_true, fEq_iff]

/-! ### Conversions (R53, R59, R181) -/

/-- Under `strict` exactly the natural numbers convert, each to itself. -/
theorem toNatural_strict_iff {v : F64} {n : Nat} : toNatural .strict v = some n ↔ IsNatural v n := by
  unfold toNatural IsNatural
  rcases class_cases v with ⟨e, h⟩ | ⟨e, h⟩ | ⟨e, h⟩ <;> simp only [e, h, reduceCtorEq, false_and, true_and]
  have hone := oneUnits_pos
  have hc : (2 : ℚ) ^ 1074 = (oneUnits : ℚ) := by rw [oneUnits, Nat.cast_pow, Nat.cast_ofNat]
  rw [value_eq, hc]
  generalize magUnits v = m
  generalize oneUnits = w at *
  clear hc
  have hw : (0 : ℚ) < w := by exact_mod_cast hone
  have h1 := Nat.div_add_mod m w
  rw [div_eq_iff hw.ne']
  unfold signedUnits
  cases negative v
  · simp only [Bool.false_eq_true, if_false, Bool.false_and]
    have : ((m : ℤ) : ℚ) = n * w ↔ m = n * w := by exact_mod_cast Iff.rfl
    rw [this]
    by_cases hm : m % w = 0
    · simp only [hm, bne_self_eq_false, Bool.and_false, Bool.false_eq_true, if_false, Option.some.injEq]
      constructor
      · rintro rfl
        rw [Nat.mul_comm]; omega
      · rintro rfl
        exact Nat.mul_div_cancel _ hone
    · simp only [beq_self_eq_true, Bool.true_and, bne_iff_ne, ne_eq, hm, not_false_eq_true, if_true,
        reduceCtorEq, false_iff]
      rintro rfl
      exact hm (Nat.mul_mod_left _ _)
  · simp only [if_true, Bool.true_and]
    have : (((-(m : ℤ)) : ℤ) : ℚ) = n * w ↔ m = 0 ∧ n = 0 := by
      have : (((-(m : ℤ)) : ℤ) : ℚ) = n * w ↔ (-(m : ℤ)) = ((n * w : ℕ) : ℤ) := by
        rw [← Int.cast_inj (α := ℚ)]; push_cast; rfl
      rw [this]
      constructor
      · intro h
        have h0 : n * w = 0 := by omega
        exact ⟨by omega, (Nat.mul_eq_zero.1 h0).resolve_right hone.ne'⟩
      · rintro ⟨rfl, rfl⟩
        simp
    rw [this]
    by_cases hm : m % w = 0
    · by_cases hq : m / w = 0
      · simp only [hm, hq, bne_self_eq_false, Bool.and_false, Bool.false_eq_true, if_false, Option.some.injEq]
        rw [hq, hm] at h1
        simp at h1
        omega
      · have : m ≠ 0 := by rintro rfl; simp at hq
        simp [hm, hq, this]
    · have : m ≠ 0 := by rintro rfl; simp at hm
      simp [hm, this]

/-- `ToByte` (R59) in units. -/
theorem toByte_spec {v : F64} {b : Byte} (h : toByte v = some b) :
    IsFinite v ∧ b.toNat = magUnits v / oneUnits ∧ (negative v = true → b.toNat = 0) := by
  unfold toByte at h
  rcases class_cases v with ⟨e, h'⟩ | ⟨e, h'⟩ | ⟨e, h'⟩ <;> simp only [e, reduceCtorEq] at h
  generalize oneUnits = w at *
  split at h <;> simp only [reduceCtorEq, Option.some.injEq] at h
  rename_i hn
  simp only [Bool.or_eq_true, Bool.and_eq_true, bne_iff_ne, ne_eq, decide_eq_true_eq, not_or, not_and,
    not_not, not_lt] at hn
  subst h
  rw [BitVec.toNat_ofNat, Nat.mod_eq_of_lt (by omega)]
  exact ⟨h'.2.2, rfl, hn.1⟩

/-- `ToByte` faults on NaN, infinities and what truncates outside 0 to 255 (R59). -/
theorem toByte_none {v : F64} (h : toByte v = none) :
    ¬ IsFinite v ∨ 255 < magUnits v / oneUnits ∨ (negative v = true ∧ magUnits v / oneUnits ≠ 0) := by
  unfold toByte at h
  rcases class_cases v with ⟨e, h'⟩ | ⟨e, h'⟩ | ⟨e, h'⟩ <;> simp only [e] at h
  · exact .inl h'.2.2
  · exact .inl h'.2.2
  generalize oneUnits = w at *
  split at h <;> simp only [reduceCtorEq] at h
  rename_i hn
  simp only [Bool.or_eq_true, Bool.and_eq_true, bne_iff_ne, ne_eq, decide_eq_true_eq] at hn
  tauto

/-- A natural number up to `2^53` converts exactly, there (R13) and back. -/
theorem isNatural_unique {v : F64} {n k : Nat} (hn : IsNatural v n) (hk : IsNatural v k) : n = k := by
  exact_mod_cast hn.2.symm.trans hk.2

/-! ### Unspecified NaNs (R134) -/

theorem fracField_or (x : F64) : fracField (x ||| 0x7FF0000000000000#64) = fracField x := by
  rw [← fraction_toNat, ← fraction_toNat]
  unfold fraction
  rw [BitVec.extractLsb'_or, show BitVec.extractLsb' 0 52 0x7FF0000000000000#64 = 0#52 by decide, BitVec.or_zero]

/-- Whatever it is made from, a drawn NaN is a NaN. -/
theorem isNaN_asNaN (x : F64) : IsNaN (asNaN x) := by
  have he : exponent (x ||| 0x7FF0000000000000#64) = 2047#11 := by
    unfold exponent
    rw [BitVec.extractLsb'_or, show BitVec.extractLsb' 52 11 0x7FF0000000000000#64 = BitVec.allOnes 11 by decide,
      BitVec.or_allOnes]
    decide
  unfold asNaN
  simp only []
  split
  · rename_i h0
    generalize x ||| 0x7FF0000000000000#64 = y at *
    constructor
    · unfold exponent at *
      rw [BitVec.extractLsb'_or, he]
      decide
    · unfold fraction
      rw [BitVec.extractLsb'_or]
      intro h
      have h1 : (BitVec.extractLsb' 0 52 y ||| BitVec.extractLsb' 0 52 0x0008000000000000#64).getLsbD 51 = false := by
        rw [h]; decide
      rw [BitVec.getLsbD_or, show (BitVec.extractLsb' 0 52 0x0008000000000000#64).getLsbD 51 = true by decide,
        Bool.or_true] at h1
      exact absurd h1 (by decide)
  · rename_i h0
    refine ⟨he, fun h => h0 ?_⟩
    rw [← fraction_toNat, h]
    rfl

/-- A NaN is made from itself, so a drawn NaN can be any NaN. -/
theorem asNaN_of_isNaN {x : F64} (h : IsNaN x) : asNaN x = x := by
  have hx : x ||| 0x7FF0000000000000#64 = x := by
    apply BitVec.eq_of_getLsbD_eq
    intro i hi
    rw [BitVec.getLsbD_or]
    by_cases hr : 52 ≤ i ∧ i < 63
    · have : x.getLsbD i = (exponent x).getLsbD (i - 52) := by
        unfold exponent
        rw [BitVec.getLsbD_extractLsb']
        simp [show i - 52 < 11 by omega, show 52 + (i - 52) = i by omega]
      rw [this, h.1]
      have : ∀ j, j < 11 → (2047#11).getLsbD j = true := by decide
      rw [this _ (by omega), Bool.true_or]
    · have : ∀ j : Fin 64, ¬ (52 ≤ j.val ∧ j.val < 63) → (0x7FF0000000000000#64).getLsbD j.val = false := by
        decide
      rw [this ⟨i, hi⟩ hr, Bool.or_false]
  unfold asNaN
  simp only [hx]
  rw [if_neg]
  rw [← fraction_toNat]
  intro h0
  exact h.2 (BitVec.eq_of_toNat_eq h0)

theorem isNaN_drawnNaN (n : Nat) : IsNaN (drawnNaN n) := isNaN_asNaN _

end Machine

end Sys2Proof
end

