-- ==== Sys2Proof/Laws/Exec.lean ====
section
/-!
SUPPORT. What each shared operation of the meanings can do, said once: a later proof takes these cases and
does not unfold the operation.
-/

namespace Sys2Proof

namespace Machine

open Ieee

/-! ### Faults and results -/

/-- A raised fault writes `STATUS` and nothing else (R225). -/
theorem raise_eq_next {k : FaultKind} {s t : State} :
    raise k s = .next t ↔ t = { s with status := .faulted k } := by
  unfold raise State.setStatus
  constructor
  · intro h
    cases h
    rfl
  · rintro rfl
    rfl

/-- A pushed result is the value the operation answers, or a NaN that counts as drawn (R134). -/
theorem pushResult_cases (s : State) (r : Option F64) :
    (∃ v, r = some v ∧ pushResult s r = { s with vs := v :: s.vs }) ∨
    (r = none ∧ pushResult s r =
      { s with vs := drawnNaN s.nanDraws :: s.vs, nanDraws := s.nanDraws + 1 }) := by
  cases r with
  | some v => exact .inl ⟨v, rfl, rfl⟩
  | none => exact .inr ⟨rfl, rfl⟩

/-- A pushed result where every answer, and every NaN for want of one, meets `P`. -/
theorem pushResult_spec {P : F64 → Prop} (s : State) (r : Option F64) (hs : ∀ v, r = some v → P v)
    (hn : r = none → ∀ v, IsNaN v → P v) :
    ∃ v d, pushResult s r = { s with vs := v :: s.vs, nanDraws := d } ∧ P v ∧
      (¬ IsNaN v → d = s.nanDraws) := by
  rcases pushResult_cases s r with ⟨v, h, e⟩ | ⟨h, e⟩
  · exact ⟨v, s.nanDraws, e, hs v h, fun _ => rfl⟩
  · exact ⟨_, _, e, hn h _ (isNaN_drawnNaN _), fun h => absurd (isNaN_drawnNaN _) h⟩

@[simp] theorem pushResult_status (s : State) (r : Option F64) : (pushResult s r).status = s.status := by
  cases r <;> rfl
@[simp] theorem pushResult_pc (s : State) (r : Option F64) : (pushResult s r).pc = s.pc := by cases r <;> rfl
@[simp] theorem pushResult_regs (s : State) (r : Option F64) : (pushResult s r).regs = s.regs := by
  cases r <;> rfl
@[simp] theorem pushResult_cs (s : State) (r : Option F64) : (pushResult s r).cs = s.cs := by cases r <;> rfl
@[simp] theorem pushResult_mem (s : State) (r : Option F64) : (pushResult s r).mem = s.mem := by
  cases r <;> rfl
@[simp] theorem pushResult_prog (s : State) (r : Option F64) : (pushResult s r).prog = s.prog := by
  cases r <;> rfl
@[simp] theorem pushResult_input (s : State) (r : Option F64) : (pushResult s r).input = s.input := by
  cases r <;> rfl
@[simp] theorem pushResult_outAnswers (s : State) (r : Option F64) :
    (pushResult s r).outAnswers = s.outAnswers := by cases r <;> rfl
@[simp] theorem pushResult_output (s : State) (r : Option F64) : (pushResult s r).output = s.output := by
  cases r <;> rfl
@[simp] theorem pushResult_frames (s : State) (r : Option F64) : (pushResult s r).frames = s.frames := by
  cases r <;> rfl
@[simp] theorem pushResult_platform (s : State) (r : Option F64) : (pushResult s r).platform = s.platform := by
  cases r <;> rfl
theorem pushResult_vs (s : State) (r : Option F64) : ∃ v, (pushResult s r).vs = v :: s.vs := by
  cases r <;> exact ⟨_, rfl⟩

/-! ### The shapes of the meanings -/

/-- A binary instruction: too few values, a domain error, or the result in place of both operands (R136). -/
theorem binary_cases (domain : F64 → F64 → Bool) (op : F64 → F64 → Option F64) (s : State) :
    (s.vs.length < 2 ∧ binary domain op s = raise .notEnoughValuesForOperation s) ∨
    ∃ a b rest, s.vs = b :: a :: rest ∧
      ((domain a b = false ∧ binary domain op s = raise .mathError s) ∨
       (domain a b = true ∧
        binary domain op s = .next ((pushResult (s.setVs rest) (op a b)).advance 1))) := by
  unfold binary
  match hv : s.vs with
  | [] => exact .inl ⟨by simp, rfl⟩
  | [_] => exact .inl ⟨by simp, rfl⟩
  | b :: a :: rest =>
    refine .inr ⟨a, b, rest, rfl, ?_⟩
    cases hd : domain a b
    · exact .inl ⟨rfl, by simp [hd]⟩
    · exact .inr ⟨rfl, by simp [hd]⟩

/-- A unary instruction: an empty stack, a domain error, or the result in place of the operand (R137). -/
theorem unary_cases (domain : F64 → Bool) (op : F64 → Option F64) (s : State) :
    (s.vs = [] ∧ unary domain op s = raise .notEnoughValuesForOperation s) ∨
    ∃ a rest, s.vs = a :: rest ∧
      ((domain a = false ∧ unary domain op s = raise .mathError s) ∨
       (domain a = true ∧ unary domain op s = .next ((pushResult (s.setVs rest) (op a)).advance 1))) := by
  unfold unary
  match hv : s.vs with
  | [] => exact .inl ⟨rfl, rfl⟩
  | a :: rest =>
    refine .inr ⟨a, rest, rfl, ?_⟩
    cases hd : domain a
    · exact .inl ⟨rfl, by simp [hd]⟩
    · exact .inr ⟨rfl, by simp [hd]⟩

/-- A comparison jump: too few values, a taken jump with or without a target, or the next instruction
(R185). -/
theorem compareJump_cases (rel : F64 → F64 → Bool) (t : F64) (s : State) :
    (s.vs.length < 2 ∧ compareJump rel t s = raise .notEnoughValuesForOperation s) ∨
    ∃ a b rest, s.vs = b :: a :: rest ∧
      ((rel a b = true ∧ ∃ n, toOffset t = some n ∧
          compareJump rel t s = .next ((s.setVs rest).setPc n)) ∨
       (rel a b = true ∧ toOffset t = none ∧ compareJump rel t s = raise .invalidCmdArgument s) ∨
       (rel a b = false ∧ compareJump rel t s = .next ((s.setVs rest).advance 10))) := by
  unfold compareJump
  match hv : s.vs with
  | [] => exact .inl ⟨by simp, rfl⟩
  | [_] => exact .inl ⟨by simp, rfl⟩
  | b :: a :: rest =>
    refine .inr ⟨a, b, rest, rfl, ?_⟩
    cases hr : rel a b
    · exact .inr (.inr ⟨rfl, by simp [hr, targetInstrLength]⟩)
    · cases ht : toOffset t with
      | none => exact .inr (.inl ⟨rfl, rfl, by simp [hr]⟩)
      | some n => exact .inl ⟨rfl, n, rfl, by simp [hr]⟩

/-- `pop` to a register: an empty stack, or the value moved (R170). -/
theorem popToReg_cases (r : Reg) (len : Nat) (s : State) :
    (s.vs = [] ∧ popToReg r len s = raise .notEnoughValuesForOperation s) ∨
    ∃ v rest, s.vs = v :: rest ∧ popToReg r len s = .next (((s.setVs rest).setReg r v).advance len) := by
  unfold popToReg
  match hv : s.vs with
  | [] => exact .inl ⟨rfl, rfl⟩
  | v :: rest => exact .inr ⟨v, rest, rfl, rfl⟩

/-- What `pop` stores at a data address: a whole cell, or the byte the value converts to (R57, R58). -/
theorem storeData_cases (m : Memory) (n : Nat) (v : F64) :
    (n < 1024 ∧ storeData m n v = some (writeCell m n v)) ∨
    (1024 ≤ n ∧ ∃ b, toByte v = some b ∧ storeData m n v = some (writeVram m (n - 1024) b)) ∨
    (1024 ≤ n ∧ toByte v = none ∧ storeData m n v = none) := by
  unfold storeData Config.vramBase
  by_cases hn : n < 1024
  · exact .inl ⟨hn, by simp [hn]⟩
  · right
    cases hb : toByte v with
    | none => exact .inr ⟨by omega, rfl, by simp [hn]⟩
    | some b => exact .inl ⟨by omega, b, rfl, by simp [hn]⟩

/-- `pop` to memory: an empty stack, no data address, no byte, or the value stored (R163, R170). -/
theorem popToMemory_cases (e : EaForm) (len : Nat) (s : State) :
    (s.vs = [] ∧ popToMemory e len s = raise .notEnoughValuesForOperation s) ∨
    ∃ v rest, s.vs = v :: rest ∧
      ((dataAddress s e = none ∧ popToMemory e len s = raise .invalidCmdArgument s) ∨
       ∃ n, dataAddress s e = some n ∧
        ((storeData s.mem n v = none ∧ popToMemory e len s = raise .invalidCmdArgument s) ∨
         ∃ m, storeData s.mem n v = some m ∧
          popToMemory e len s = .next (((s.setVs rest).setMem m).advance len))) := by
  unfold popToMemory
  match hv : s.vs with
  | [] => exact .inl ⟨rfl, rfl⟩
  | v :: rest =>
    refine .inr ⟨v, rest, rfl, ?_⟩
    cases hd : dataAddress s e with
    | none => exact .inl ⟨rfl, by simp⟩
    | some n =>
      refine .inr ⟨n, rfl, ?_⟩
      cases hm : storeData s.mem n v with
      | none => exact .inl ⟨rfl, by simp [hm]⟩
      | some m => exact .inr ⟨m, rfl, by simp [hm]⟩

/-- A data address lies within RAM and VRAM (R53). -/
theorem dataAddress_lt {s : State} {e : EaForm} {n : Nat} (h : dataAddress s e = some n) :
    n < 1024 + s.platform.vramBytes := by
  unfold dataAddress at h
  split at h
  · unfold toAddr at h
    split at h
    · split at h <;> simp only [reduceCtorEq, Option.some.injEq] at h
      subst h
      assumption
    · exact absurd h (by simp)
  · exact absurd h (by simp)

/-! ### The step -/

/-- A step that answers a next state: the machine was running, and it ran the decoded instruction or raised
the decoder's fault (R95). -/
theorem step_cases {s t : State} (h : step s = .next t) :
    s.status = .running ∧
    ((∃ i, decode (s.prog.drop s.pc) = .ok i ∧ exec i s = .next t) ∨
     (∃ e, decode (s.prog.drop s.pc) = .error e ∧ t = { s with status := .faulted (decodeFault e) })) := by
  unfold step fetchBytes at h
  cases hs : s.status with
  | halted => rw [hs] at h; cases h
  | faulted k => rw [hs] at h; cases h
  | running =>
    rw [hs] at h
    refine ⟨rfl, ?_⟩
    cases hd : decode (s.prog.drop s.pc) with
    | ok i => rw [hd] at h; exact .inl ⟨i, rfl, h⟩
    | error e => rw [hd] at h; exact .inr ⟨e, rfl, raise_eq_next.1 h⟩

/-- A running machine whose bytes are no instruction raises the decoder's fault (R95, R225). -/
theorem step_of_error {s : State} {e : DecodeError} (hs : s.status = .running)
    (h : decode (s.prog.drop s.pc) = .error e) :
    step s = .next { s with status := .faulted (decodeFault e) } := by
  unfold step fetchBytes
  rw [hs, h]
  rfl

end Machine

end Sys2Proof
end

