-- ==== Sys2Proof/Laws/PerInstr.lean ====
section
/-!
SUPPORT. Statements made for every instruction as syntax, one lemma per constructor. `EncodedShape`: the
encoding has the length of `spec/30_encoding.md` R94, at most 11 bytes (R81), and starts with the opcode byte,
which is below 26 (R82, R96).
-/

namespace Sys2Proof

namespace Laws

namespace EncodedShape

/-- The length and the first byte of an instruction's encoding. -/
def Statement (i : Instr) : Prop :=
  (encode i).length = i.length ∧ i.length ≤ maxLength ∧ i.opcode < 26 ∧
  (encode i).head? = some (BitVec.ofNat 8 i.opcode)

/-- An addressed operand has the bytes its mode byte announces (R94). -/
theorem length_operand (a : Operand) : a.bytes.length + 1 = a.instrLength ∧ a.instrLength ≤ maxLength := by
  rcases a with (_ | _ | _) | (_ | _ | _) <;>
  simp [Operand.bytes, Operand.instrLength, Operand.form, EaForm.fields, maxLength]

/-- A target operand has nine bytes (R87). -/
theorem length_target (t : F64) : (targetBytes t).length = 9 := by simp [targetBytes]

/-- The shape of a control-flow instruction. -/
theorem target {i : Instr} {t : F64} (hb : i.operandBytes = targetBytes t) (hl : i.length = targetInstrLength)
    (ho : i.opcode < 26) : Statement i :=
  ⟨by simp [encode, hb, hl, length_target, targetInstrLength], by rw [hl]; decide, ho, rfl⟩

theorem inp : Statement .inp := ⟨rfl, by decide, by decide, rfl⟩
theorem out : Statement .out := ⟨rfl, by decide, by decide, rfl⟩
theorem add : Statement .add := ⟨rfl, by decide, by decide, rfl⟩
theorem sub : Statement .sub := ⟨rfl, by decide, by decide, rfl⟩
theorem mul : Statement .mul := ⟨rfl, by decide, by decide, rfl⟩
theorem div : Statement .div := ⟨rfl, by decide, by decide, rfl⟩
theorem pow : Statement .pow := ⟨rfl, by decide, by decide, rfl⟩
theorem sqrt : Statement .sqrt := ⟨rfl, by decide, by decide, rfl⟩
theorem sin : Statement .sin := ⟨rfl, by decide, by decide, rfl⟩
theorem cos : Statement .cos := ⟨rfl, by decide, by decide, rfl⟩
theorem push (a : Operand) : Statement (.push a) := ⟨(length_operand a).1, (length_operand a).2, by simp [Instr.opcode], rfl⟩
theorem pop (a : Operand) : Statement (.pop a) := ⟨(length_operand a).1, (length_operand a).2, by simp [Instr.opcode], rfl⟩
theorem call (t : F64) : Statement (.call t) := target rfl rfl (by simp [Instr.opcode])
theorem ret : Statement .ret := ⟨rfl, by decide, by decide, rfl⟩
theorem jmp (t : F64) : Statement (.jmp t) := target rfl rfl (by simp [Instr.opcode])
theorem jae (t : F64) : Statement (.jae t) := target rfl rfl (by simp [Instr.opcode])
theorem ja (t : F64) : Statement (.ja t) := target rfl rfl (by simp [Instr.opcode])
theorem jb (t : F64) : Statement (.jb t) := target rfl rfl (by simp [Instr.opcode])
theorem jbe (t : F64) : Statement (.jbe t) := target rfl rfl (by simp [Instr.opcode])
theorem je (t : F64) : Statement (.je t) := target rfl rfl (by simp [Instr.opcode])
theorem jne (t : F64) : Statement (.jne t) := target rfl rfl (by simp [Instr.opcode])
theorem upd : Statement .upd := ⟨rfl, by decide, by decide, rfl⟩
theorem clr : Statement .clr := ⟨rfl, by decide, by decide, rfl⟩
theorem abs : Statement .abs := ⟨rfl, by decide, by decide, rfl⟩
theorem flr : Statement .flr := ⟨rfl, by decide, by decide, rfl⟩
theorem hlt : Statement .hlt := ⟨rfl, by decide, by decide, rfl⟩

end EncodedShape

end Laws

end Sys2Proof
end

