-- ==== Sys2Proof/Tests/Slice0.lean ====
section
/-!
SUPPORT. The model's own tests: the WellFormed smoke, one written-out word per constructor, one small step per
meaning with the result `spec/95_test_vectors.md` (or the rule's own example) gives, and for every statement
with hypotheses a theorem that shows a state and operands that meet them.
-/

namespace Sys2Proof

namespace Tests

open Machine

-- One theorem at a time: many small evaluations waiting side by side take one thread each.
set_option Elab.async false

/-! ### Constants (the table of `spec/95_test_vectors.md`) and small states -/

/-- `1.0`. -/
def one : F64 := 0x3FF0000000000000#64
/-- `-1.0`. -/
def minusOne : F64 := 0xBFF0000000000000#64
/-- `2.0`. -/
def two : F64 := 0x4000000000000000#64
/-- `3.0`. -/
def three : F64 := 0x4008000000000000#64
/-- `0.5`. -/
def half : F64 := 0x3FE0000000000000#64
/-- `-0.5`. -/
def minusHalf : F64 := 0xBFE0000000000000#64
/-- `10.0`. -/
def ten : F64 := 0x4024000000000000#64
/-- `-0.0`. -/
def minusZero : F64 := 0x8000000000000000#64
/-- `+inf`. -/
def inf : F64 := 0x7FF0000000000000#64
/-- `-inf`. -/
def minusInf : F64 := 0xFFF0000000000000#64
/-- A NaN. -/
def nan : F64 := 0x7FF8000000000000#64
/-- Another NaN. -/
def nan' : F64 := 0xFFF0000000000001#64
/-- `1023.0`, the last RAM cell. -/
def c1023 : F64 := 0x408FF80000000000#64
/-- `1024.0`, the first VRAM byte. -/
def c1024 : F64 := 0x4090000000000000#64
/-- `1031.0`, the last VRAM byte when there are 8. -/
def c1031 : F64 := 0x40901C0000000000#64
/-- `1032.0`, no data address when there are 8 VRAM bytes. -/
def c1032 : F64 := 0x4090200000000000#64

/-- Right after reset with an image, on a platform with 8 VRAM bytes, as the test vectors have it. -/
def booted (image : List Byte) : State := State.boot image [] [] ⟨8, 4, 2⟩

/-- The same with nothing loaded and a value stack, its top first. -/
def stacked (vs : List F64) : State := (booted []).setVs vs

/-- The next state of an outcome. -/
def after : Result → Option State
  | .next t => some t
  | .fault _ => none
  | .refused _ => none

/-- The value stack of the next state. -/
def stackAfter (r : Result) : Option (List F64) := (after r).map (·.vs)

/-- The status of the next state. -/
def statusAfter (r : Result) : Option Status := (after r).map (·.status)

/-- The program counter of the next state. -/
def pcAfter (r : Result) : Option Nat := (after r).map (·.pc)

/-! ### WellFormed smoke (R102) -/

theorem test_wf_refuses_pop_constant : (Instr.pop (.direct (.cst two))).wf = false := by decide
theorem test_wf_accepts_pop_memory : (Instr.pop (.memory (.cst two))).wf = true := by decide

/-! ### One word per constructor, written out from R81 to R90 -/

theorem test_decode_in : decode [0x00#8] = .ok .inp := by decide
theorem test_decode_out : decode [0x01#8] = .ok .out := by decide
theorem test_decode_add : decode [0x02#8] = .ok .add := by decide
theorem test_decode_sub : decode [0x03#8] = .ok .sub := by decide
theorem test_decode_mul : decode [0x04#8] = .ok .mul := by decide
theorem test_decode_div : decode [0x05#8] = .ok .div := by decide
theorem test_decode_pow : decode [0x06#8] = .ok .pow := by decide
theorem test_decode_sqrt : decode [0x07#8] = .ok .sqrt := by decide
theorem test_decode_sin : decode [0x08#8] = .ok .sin := by decide
theorem test_decode_cos : decode [0x09#8] = .ok .cos := by decide
/-- `push x18 + 0.5`: opcode, mode REG and CST, index 18, the constant least significant byte first. -/
theorem test_decode_push :
    decode [0x0A#8, 0x06#8, 0x12#8, 0#8, 0#8, 0#8, 0#8, 0#8, 0#8, 0xE0#8, 0x3F#8] =
      .ok (.push (.direct (.regCst 17 half))) := by decide
/-- `pop` to the address `x1`: opcode, mode RAM and REG, index 1. -/
theorem test_decode_pop : decode [0x0B#8, 0x03#8, 0x01#8] = .ok (.pop (.memory (.reg 0))) := by decide
theorem test_decode_call :
    decode [0x0C#8, 0x04#8, 0#8, 0#8, 0#8, 0#8, 0#8, 0#8, 0x24#8, 0x40#8] = .ok (.call ten) := by decide
theorem test_decode_ret : decode [0x0D#8] = .ok .ret := by decide
theorem test_decode_jmp :
    decode [0x0E#8, 0x04#8, 0#8, 0#8, 0#8, 0#8, 0#8, 0#8, 0x24#8, 0x40#8] = .ok (.jmp ten) := by decide
theorem test_decode_jae :
    decode [0x0F#8, 0x04#8, 0#8, 0#8, 0#8, 0#8, 0#8, 0#8, 0x24#8, 0x40#8] = .ok (.jae ten) := by decide
theorem test_decode_ja :
    decode [0x10#8, 0x04#8, 0#8, 0#8, 0#8, 0#8, 0#8, 0#8, 0x24#8, 0x40#8] = .ok (.ja ten) := by decide
theorem test_decode_jb :
    decode [0x11#8, 0x04#8, 0#8, 0#8, 0#8, 0#8, 0#8, 0#8, 0x24#8, 0x40#8] = .ok (.jb ten) := by decide
theorem test_decode_jbe :
    decode [0x12#8, 0x04#8, 0#8, 0#8, 0#8, 0#8, 0#8, 0#8, 0x24#8, 0x40#8] = .ok (.jbe ten) := by decide
theorem test_decode_je :
    decode [0x13#8, 0x04#8, 0#8, 0#8, 0#8, 0#8, 0#8, 0#8, 0x24#8, 0x40#8] = .ok (.je ten) := by decide
theorem test_decode_jne :
    decode [0x14#8, 0x04#8, 0#8, 0#8, 0#8, 0#8, 0#8, 0#8, 0x24#8, 0x40#8] = .ok (.jne ten) := by decide
theorem test_decode_upd : decode [0x15#8] = .ok .upd := by decide
theorem test_decode_clr : decode [0x16#8] = .ok .clr := by decide
theorem test_decode_abs : decode [0x17#8] = .ok .abs := by decide
theorem test_decode_flr : decode [0x18#8] = .ok .flr := by decide
theorem test_decode_hlt : decode [0x19#8] = .ok .hlt := by decide

/-- A word of the opcode table: bit 0 is the least significant bit of the first byte. -/
theorem test_table_word : decodeTableWord 24 0x12020A = some (.push (.direct (.reg 17))) := by decide
theorem test_table_word_refused : decodeTableWord 16 0x0C0A = none := by decide
/-- The word stored where `step` fetches runs as the first instruction after reset. -/
theorem test_fetch_word :
    step (State.reset.withFetchWord 16 0x040E) = exec (.jmp 0#64) (State.reset.withFetchWord 16 0x040E) := rfl

/-! ### One step per meaning -/

/-- R120 and vector IO-1: the value given is pushed. -/
theorem test_in : stackAfter (exec .inp ((booted []).setInput [.value half])) = some [half] := by decide
/-- R121: an exhausted source. -/
theorem test_in_exhausted : statusAfter (exec .inp (booted [])) = some (.faulted .ioError) := by decide
theorem test_out :
    (after (exec .out ((stacked [one, two]).setOutAnswers [.ok]))).map (·.output) = some [one] := by decide
theorem test_out_empty :
    statusAfter (exec .out (stacked [])) = some (.faulted .notEnoughValuesForOperation) := by decide
/-- R140: `0.1 + 0.2` is `0x3FD3333333333334`. -/
theorem test_add : stackAfter (exec .add (stacked [0x3FC999999999999A#64, 0x3FB999999999999A#64])) =
    some [0x3FD3333333333334#64] := by decide +kernel
/-- R140: `2^53 + 1 = 2^53`, the tie rounds to even. -/
theorem test_add_tie : stackAfter (exec .add (stacked [one, 0x4340000000000000#64])) =
    some [0x4340000000000000#64] := by decide +kernel
/-- R141: the deeper value is the one subtracted from, `2 - 3 = -1`. -/
theorem test_sub : stackAfter (exec .sub (stacked [three, two])) = some [minusOne] := by decide +kernel
/-- R142: `1e308 * 10` overflows to infinity. -/
theorem test_mul : stackAfter (exec .mul (stacked [ten, 0x7FE1CCF385EBC8A0#64])) = some [inf] := by
  decide +kernel
/-- R143: `1 / 3`. -/
theorem test_div : stackAfter (exec .div (stacked [three, one])) = some [0x3FD5555555555555#64] := by
  decide +kernel
/-- R143: a negative zero divides as a zero. -/
theorem test_div_by_zero : statusAfter (exec .div (stacked [minusZero, one])) = some (.faulted .mathError) := by
  decide +kernel
/-- R150 P-pow-one: `FPow(NaN, 0) = 1`. -/
theorem test_pow : stackAfter (exec .pow (stacked [minusZero, nan])) = some [one] := by decide +kernel
/-- R145: `sqrt(2)`. -/
theorem test_sqrt : stackAfter (exec .sqrt (stacked [two])) = some [0x3FF6A09E667F3BCD#64] := by
  decide +kernel
theorem test_sqrt_negative : statusAfter (exec .sqrt (stacked [minusOne])) = some (.faulted .mathError) := by
  decide +kernel
/-- R150 P-sin0, P-cos0. -/
theorem test_sin : stackAfter (exec .sin (stacked [minusZero])) = some [minusZero] := by decide +kernel
theorem test_cos : stackAfter (exec .cos (stacked [minusZero])) = some [one] := by decide +kernel
/-- R148: the sign of a zero is cleared too. -/
theorem test_abs : stackAfter (exec .abs (stacked [minusZero])) = some [0#64] := by decide +kernel
/-- R149: `floor(-0.5) = -1.0`, `floor(0.5) = 0.0`. -/
theorem test_flr : stackAfter (exec .flr (stacked [minusHalf])) = some [minusOne] := by decide +kernel
theorem test_flr_down : stackAfter (exec .flr (stacked [half])) = some [0#64] := by decide +kernel
/-- R161: `x[1] + c`. -/
theorem test_push_sum : stackAfter (exec (.push (.direct (.regCst 0 one))) ((booted []).setReg 0 two)) =
    some [three] := by decide +kernel
/-- R56: a VRAM byte is pushed as a number. -/
theorem test_push_vram :
    stackAfter (exec (.push (.memory (.cst c1031))) ((booted []).setMem (writeVram [] 7 3#8))) = some [three] := by
  decide +kernel
/-- R172: with REG and CST the value goes to the register, the constant has no effect. -/
theorem test_pop_register :
    (after (exec (.pop (.direct (.regCst 17 half))) (stacked [two]))).map (fun t => (t.regs[17], t.pc)) =
      some (two, 11) := by decide +kernel
/-- R59: `255.9` is stored as 255. -/
theorem test_pop_vram :
    (after (exec (.pop (.memory (.cst c1024))) (stacked [0x406FFCCCCCCCCCCD#64]))).map (·.mem) =
      some [(8192, 0xFF#8)] := by decide +kernel
/-- R183: the return address is `pc + 10`. -/
theorem test_call : (after (exec (.call three) (booted []))).map (fun t => (t.cs, t.pc)) =
    some ([ten], 3) := by decide +kernel
theorem test_ret : pcAfter (exec .ret ((booted []).setCs [ten])) = some 10 := by decide +kernel
theorem test_jmp : pcAfter (exec (.jmp ten) (booted [])) = some 10 := by decide +kernel
/-- R181: a target that is no integer faults. -/
theorem test_jmp_fraction : statusAfter (exec (.jmp half) (booted [])) = some (.faulted .invalidCmdArgument) := by
  decide +kernel
/-- The comparison jumps on `a = 2, b = 3` and on two equal values (R186 to R191). -/
theorem test_jae : pcAfter (exec (.jae one) (stacked [two, two])) = some 1 := by decide +kernel
theorem test_ja : pcAfter (exec (.ja one) (stacked [three, two])) = some 10 := by decide +kernel
theorem test_jb : pcAfter (exec (.jb one) (stacked [three, two])) = some 1 := by decide +kernel
theorem test_jbe : pcAfter (exec (.jbe one) (stacked [two, three])) = some 10 := by decide +kernel
/-- `-0.0 == +0.0` (R133). -/
theorem test_je : pcAfter (exec (.je one) (stacked [0#64, minusZero])) = some 1 := by decide +kernel
/-- `NaN != NaN` (R133). -/
theorem test_jne : pcAfter (exec (.jne one) (stacked [nan, nan])) = some 1 := by decide +kernel
/-- R200: the frame holds every VRAM byte, in order. -/
theorem test_upd :
    (after (exec .upd ((booted []).setMem [(8193, 5#8)]))).map (·.frames) =
      some [⟨[0#8, 5#8, 0#8, 0#8, 0#8, 0#8, 0#8, 0#8], 4, 2⟩] := by decide +kernel
/-- R201: RAM stays, VRAM goes. -/
theorem test_clr :
    (after (exec .clr ((booted []).setMem [(8191, 1#8), (8192, 2#8), (8199, 3#8)]))).map (·.mem) =
      some [(8191, 1#8)] := by decide +kernel
theorem test_hlt : (after (exec .hlt (booted []))).map (fun t => (t.status, t.pc)) = some (.halted, 1) := by
  decide

/-! ### Reset and invariant -/

theorem test_reset_memory_wf : State.reset.mem.wf := by decide

/-! ### Witnesses: for each statement, hypotheses that are met, each clause at its boundaries -/

theorem witness_DecodeInvertsEncode : (Instr.pop (.direct (.regCst 17 nan))).wf = true := by decide
theorem witness_DecodedBytesAreTheEncoding : decode [0x0B#8, 0x02#8, 0x12#8, 0xFF#8] =
    .ok (.pop (.direct (.reg 17))) := by decide
theorem witness_StepRunsTheDecodedInstruction : (booted [0x19#8]).status = .running ∧
    decode ((booted [0x19#8]).prog.drop (booted [0x19#8]).pc) = .ok .hlt := by decide +kernel
theorem witness_FetchPastTheImageFaults : (booted []).status = .running ∧
    (booted []).prog.length ≤ (booted []).pc := by decide
/-- The lowest and the highest unknown opcode. -/
theorem witness_UnknownOpcodeFaults : ∀ op ∈ [26#8, 255#8], (booted [op]).status = .running ∧
    (booted [op]).prog[(booted [op]).pc]? = some op ∧ 26 ≤ op.toNat := by decide +kernel
/-- Illegal masks: a bit above bit 2, and neither REG nor CST. -/
theorem witness_ModeByteLegality_illegal : ∀ op ∈ [0x0A#8, 0x0B#8], ∀ m ∈ [0x00#8, 0x01#8, 0x0A#8, 0xFF#8],
    (booted [op, m]).status = .running ∧ (booted [op, m]).prog[0]? = some op ∧
    (booted [op, m]).prog[0 + 1]? = some m ∧ (m &&& 0xF8#8 ≠ 0#8 ∨ m &&& 0x06#8 = 0#8) := by decide +kernel
/-- An image that is one `push` or `pop` and ends with it: opcode, mode byte, a register index where the mode byte
has REG, a constant where it has CST. -/
def exactImage (op m r : Byte) : List Byte :=
  [op, m] ++ (if hasReg m then [r] else []) ++ if hasCst m then f64Bytes two else []

/-- The six legal masks with the lowest and the highest register, the image no longer than the instruction. -/
theorem witness_ModeByteLegality_legal :
    ∀ m ∈ [0x02#8, 0x03#8, 0x04#8, 0x05#8, 0x06#8, 0x07#8], ∀ r ∈ [1#8, 18#8],
    (exactImage 0x0A#8 m r)[0]? = some 0x0A#8 ∧ (exactImage 0x0A#8 m r)[0 + 1]? = some m ∧
    m &&& 0xF8#8 = 0#8 ∧ m &&& 0x06#8 ≠ 0#8 ∧ 0 + lengthOfMode m = (exactImage 0x0A#8 m r).length ∧
    (m &&& 0x02#8 ≠ 0#8 → (exactImage 0x0A#8 m r)[0 + 2]? = some r) ∧ 1 ≤ r.toNat ∧ r.toNat ≤ 18 := by
  decide +kernel
theorem witness_PopModeLegality :
    (booted [0x0B#8, 0x04#8]).prog[0]? = some 0x0B#8 ∧ (booted [0x0B#8, 0x04#8]).prog[0 + 1]? = some 0x04#8 ∧
    ∀ m ∈ [0x02#8, 0x03#8, 0x05#8, 0x06#8, 0x07#8], ∀ r ∈ [1#8, 18#8],
      (exactImage 0x0B#8 m r)[0]? = some 0x0B#8 ∧ (exactImage 0x0B#8 m r)[0 + 1]? = some m ∧
      0 + lengthOfMode m = (exactImage 0x0B#8 m r).length ∧
      (m &&& 0x02#8 ≠ 0#8 → (exactImage 0x0B#8 m r)[0 + 2]? = some r) ∧ 1 ≤ r.toNat ∧ r.toNat ≤ 18 := by
  refine ⟨by decide, by decide, ?_⟩
  decide +kernel
/-- Register indices 0 and 19, the constant missing. -/
theorem witness_RegisterIndexLegality : ∀ op ∈ [0x0A#8, 0x0B#8], ∀ r ∈ [0#8, 19#8],
    (booted [op, 0x06#8, r]).status = .running ∧ (booted [op, 0x06#8, r]).prog[0]? = some op ∧
    (booted [op, 0x06#8, r]).prog[0 + 1]? = some 0x06#8 ∧ (booted [op, 0x06#8, r]).prog[0 + 2]? = some r ∧
    0x06#8 &&& 0x02#8 ≠ 0#8 ∧ (r.toNat = 0 ∨ 18 < r.toNat) := by decide +kernel
theorem witness_TargetModeLegality :
    ∀ op ∈ [0x0C#8, 0x0E#8, 0x0F#8, 0x10#8, 0x11#8, 0x12#8, 0x13#8, 0x14#8], ∀ m ∈ [0x00#8, 0x05#8],
    (booted [op, m]).status = .running ∧ (booted [op, m]).prog[0]? = some op ∧
    (booted [op, m]).prog[0 + 1]? = some m ∧ m ≠ 0x04#8 := by decide +kernel
/-- Cut off right at the start and one byte before the end. -/
theorem witness_CutOffInstructionFaults : ∀ n ∈ [0, 1, 10],
    (Instr.push (.direct (.regCst 0 one))).wf = true ∧ n < (Instr.push (.direct (.regCst 0 one))).length ∧
    (booted ((encode (.push (.direct (.regCst 0 one)))).take n)).prog.drop 0 =
      (encode (.push (.direct (.regCst 0 one)))).take n := by decide +kernel
theorem witness_StatesWithoutAStep :
    ((booted []).setStatus .halted).status = .halted ∧
    ((booted []).setStatus (.faulted .mathError)).status = .faulted .mathError ∧
    ((booted []).setInput [.silent]).input = .silent :: [] := by decide +kernel

theorem witness_InResult : ((booted []).setInput [.value nan]).input = .value nan :: [] ∧
    ((booted []).setInput [.fail]).input = .fail :: [] ∧ (booted []).input = [] := by decide
theorem witness_OutResult : (stacked []).vs = [] ∧
    ((stacked [one]).setOutAnswers [.ok]).vs = one :: [] ∧
    ((stacked [one]).setOutAnswers [.ok]).outAnswers = .ok :: [] ∧
    ((stacked [one]).setOutAnswers [.fail]).outAnswers = .fail :: [] ∧ (stacked [one]).outAnswers = [] := by
  decide
/-- Two values, and the two depths below two: for `AddResult`, `SubResult`, `MulResult`, `DivResult`,
`PowResult`. -/
theorem witness_binary : (stacked [two, one]).vs = two :: one :: [] ∧ (stacked [one]).vs.length < 2 ∧
    (stacked []).vs.length < 2 := by decide
theorem witness_AddResult : (stacked [minusInf, inf]).vs = minusInf :: inf :: [] := by decide
theorem witness_SubResult : (stacked [one, one]).vs = one :: one :: [] := by decide
theorem witness_MulResult : (stacked [inf, 0#64]).vs = inf :: 0#64 :: [] := by decide
theorem witness_DivResult : two ≠ Ieee.zero false ∧ two ≠ Ieee.zero true ∧ minusZero = Ieee.zero true ∧
    (stacked [two, one]).vs = two :: one :: [] ∧ (stacked [minusZero, one]).vs = minusZero :: one :: [] := by
  decide
/-- `-0.0` and a NaN have a root; the negative number nearest to zero has none. -/
theorem witness_SqrtResult : ¬ Ieee.Less minusZero (Ieee.zero false) ∧ ¬ Ieee.Less nan (Ieee.zero false) ∧
    Ieee.Less 0x8000000000000001#64 (Ieee.zero false) ∧ (stacked [minusZero]).vs = minusZero :: [] := by
  simp only [← fLt_iff]
  decide +kernel
/-- One value and none: for `AbsResult`, `FlrResult`, `TrigonometricResults`, and `SqrtResult`'s last clause. -/
theorem witness_unary : (stacked [nan]).vs = nan :: [] ∧ (stacked []).vs = [] := by decide
theorem isNaN_nan : Ieee.IsNaN nan ∧ Ieee.IsNaN nan' := by
  unfold Ieee.IsNaN
  decide
theorem isFinite_constants : Ieee.IsFinite one ∧ Ieee.IsFinite half ∧ Ieee.IsFinite minusHalf ∧
    Ieee.IsFinite three ∧ Ieee.IsFinite minusOne ∧ Ieee.IsFinite two := by
  unfold Ieee.IsFinite
  decide
theorem witness_TrigonometricProperties : Ieee.IsNaN nan ∧ Ieee.IsFinite one := ⟨isNaN_nan.1, isFinite_constants.1⟩

/-- The value of a normal number from its three fields. -/
theorem value_of_fields {x : F64} {neg : Bool} {e : BitVec 11} {f : BitVec 52} (hn : Ieee.negative x = neg)
    (he : Ieee.exponent x = e) (hf : Ieee.fraction x = f) (h : e ≠ 0#11) :
    Ieee.value x = (if neg then -1 else 1) * ((2 ^ 52 + (f.toNat : ℚ)) * 2 ^ ((e.toNat : ℤ) - 1075)) := by
  rw [Ieee.value, hn, he, hf, if_neg h]

theorem value_one : Ieee.value one = 1 := by
  rw [value_of_fields (neg := false) (e := 1023#11) (f := 0#52) (by decide) (by decide) (by decide) (by decide)]
  norm_num
theorem value_half : Ieee.value half = 1 / 2 := by
  rw [value_of_fields (neg := false) (e := 1022#11) (f := 0#52) (by decide) (by decide) (by decide) (by decide)]
  norm_num
theorem value_two : Ieee.value two = 2 := by
  rw [value_of_fields (neg := false) (e := 1024#11) (f := 0#52) (by decide) (by decide) (by decide) (by decide)]
  norm_num
theorem value_minusHalf : Ieee.value minusHalf = -(1 / 2) := by
  rw [value_of_fields (neg := true) (e := 1022#11) (f := 0#52) (by decide) (by decide) (by decide) (by decide)]
  norm_num
theorem value_minusOne : Ieee.value minusOne = -1 := by
  rw [value_of_fields (neg := true) (e := 1023#11) (f := 0#52) (by decide) (by decide) (by decide) (by decide)]
  norm_num

/-- A NaN operand; a negative base with a fraction as exponent; exponents of either sign, odd and not; a base of
magnitude below and above one. -/
theorem witness_PowerProperties :
    (Ieee.IsNaN nan ∧ nan ≠ one ∧ two ≠ Ieee.zero false ∧ two ≠ Ieee.zero true) ∧
    (Ieee.IsFinite minusHalf ∧ Ieee.value minusHalf < 0 ∧ Ieee.IsFinite half ∧
      ∀ z : ℤ, Ieee.value half ≠ (z : ℚ)) ∧
    (Ieee.value minusOne < 0 ∧ ∃ z : ℤ, Ieee.value minusOne = ((2 * z + 1 : ℤ) : ℚ)) ∧
    (0 < Ieee.value two ∧ ¬ ∃ z : ℤ, Ieee.value two = ((2 * z + 1 : ℤ) : ℚ)) ∧
    |Ieee.value half| < 1 ∧ 1 < |Ieee.value two| := by
  obtain ⟨_, h2, h3, _⟩ := isFinite_constants
  refine ⟨⟨isNaN_nan.1, by decide, by decide, by decide⟩, ⟨h3, by rw [value_minusHalf]; norm_num, h2, fun z h => ?_⟩,
    ⟨by rw [value_minusOne]; norm_num, -1, by rw [value_minusOne]; norm_num⟩,
    ⟨by rw [value_two]; norm_num, ?_⟩, by rw [value_half]; norm_num, by rw [value_two]; norm_num⟩
  · rw [value_half] at h
    have : (2 * z : ℤ) = 1 := by exact_mod_cast (by linarith : (2 * z : ℚ) = 1)
    omega
  · rintro ⟨z, h⟩
    rw [value_two] at h
    have : (2 * z + 1 : ℤ) = 2 := by exact_mod_cast h.symm
    omega
theorem witness_FromNatIsExact : 0 ≤ 2 ^ 53 ∧ 2 ^ 53 ≤ 2 ^ 53 := by decide

/-- `x1 + c` with a sum, and with one that is a NaN. -/
theorem witness_EffectiveValue :
    effectiveValue ((booted []).setReg 0 two) (.regCst 0 one) = some three ∧
    effectiveValue ((booted []).setReg 0 inf) (.regCst 0 minusInf) = none := by decide +kernel

/-- The first and the last RAM cell, the first and the last VRAM byte, and what is no data address: for
`PushMemory`, `PopRamCell`, `PopVramByte`, `PopChecksInOrder`. -/
theorem witness_dataAddress :
    dataAddress (stacked [one]) (.cst minusZero) = some 0 ∧ dataAddress (stacked [one]) (.cst c1023) = some 1023 ∧
    dataAddress (stacked [one]) (.cst c1024) = some 1024 ∧ dataAddress (stacked [one]) (.cst c1031) = some 1031 ∧
    dataAddress (stacked [one]) (.cst c1032) = none ∧ dataAddress (stacked [one]) (.cst half) = none ∧
    (stacked [one]).vs = one :: [] ∧ (stacked [one]).mem.wf := by decide +kernel
/-- The byte conversions at the ends of their range. -/
theorem witness_PopVramByte : toByte minusHalf = some 0#8 ∧ toByte 0x406FFCCCCCCCCCCD#64 = some 255#8 ∧
    toByte 0x4070000000000000#64 = none ∧ toByte minusOne = none := by decide +kernel
theorem witness_PopRegister : (stacked [nan]).vs = nan :: [] ∧ (stacked []).vs = [] := by decide
/-- A NaN on the stack, and a `clr` right after the 10 bytes of a `pop`. -/
def storing : State := (booted ([0x0B#8, 0x05#8] ++ f64Bytes c1023 ++ [0x16#8])).setVs [nan]
/-- `storing` after its `pop` to the last RAM cell. -/
def stored : State := ((storing.setVs []).setMem (writeCell [] 1023 nan)).advance 10
/-- `stored` after its `clr`. -/
def cleared : State := (stored.setMem (clearVram stored.mem 8)).advance 1

theorem eq_next_of_after {r : Result} {t : State} (h : after r = some t) : r = .next t := by
  cases r with
  | next u => exact congrArg _ (Option.some.inj h)
  | fault _ => cases h
  | refused _ => cases h
/-- A store to the last RAM cell, one step that stores nothing to it, and the address of the load. -/
theorem witness_StoreThenLoadIsExact : storing.mem.wf ∧ storing.vs = nan :: [] ∧
    dataAddress storing (.cst c1023) = some 1023 ∧ exec (.pop (.memory (.cst c1023))) storing = .next stored ∧
    ReachesWithoutStore 1023 stored cleared ∧ dataAddress cleared (.cst c1023) = some 1023 := by
  refine ⟨wf_nil, rfl, by decide +kernel, eq_next_of_after (by decide +kernel),
    .tail (.refl _) (eq_next_of_after (by decide +kernel)) (fun e h => ?_), by decide +kernel⟩
  have hd : decode (stored.prog.drop stored.pc) = .ok .clr := by decide +kernel
  rw [hd] at h
  cases h

theorem isNatural_ten : IsNatural ten 10 := toNatural_strict_iff.1 (by decide +kernel)
theorem isNatural_minusZero : IsNatural minusZero 0 := toNatural_strict_iff.1 (by decide +kernel)
theorem not_isNatural {t : F64} (h : toNatural .strict t = none) : ∀ n, ¬ IsNatural t n := fun n hn => by
  rw [toNatural_strict_iff.2 hn] at h
  exact absurd h (by simp)
/-- Natural targets, `-0.0` among them, and targets that are none: a fraction, a negative number, a NaN. -/
theorem witness_JmpResult : IsNatural ten 10 ∧ IsNatural minusZero 0 ∧ (∀ n, ¬ IsNatural half n) ∧
    (∀ n, ¬ IsNatural minusOne n) ∧ ∀ n, ¬ IsNatural nan n :=
  ⟨isNatural_ten, isNatural_minusZero, not_isNatural (by decide +kernel), not_isNatural (by decide +kernel),
    not_isNatural (by decide +kernel)⟩
theorem witness_CallResult : ((booted []).setPc (2 ^ 53 - 10)).pc + 10 ≤ 2 ^ 53 ∧ IsNatural ten 10 ∧
    ∀ n, ¬ IsNatural half n := ⟨by decide, isNatural_ten, not_isNatural (by decide +kernel)⟩
theorem witness_RetResult : ((booted []).setCs [ten]).cs = ten :: [] ∧ IsNatural ten 10 ∧ (booted []).cs = [] :=
  ⟨rfl, isNatural_ten, rfl⟩
theorem witness_CallThenReturn : (booted []).pc + 10 ≤ 2 ^ 53 ∧ IsNatural minusZero 0 ∧
    (after (exec (.call minusZero) (booted []))).map (·.cs) = some ((booted []).setCs [ten]).cs :=
  ⟨by decide, isNatural_minusZero, by decide +kernel⟩

/-- An image of one `call`, its return address on the call stack: here the least one is the greatest too. -/
def returning : State := (booted (encode (.call ten))).setCs [ofNat 10]

theorem witness_ReturnTargetNeverFaults : Inv returning ∧ returning.cs = ofNat 10 :: [] := by
  refine ⟨⟨wf_nil, by simp [returning, booted, State.boot], fun v hv => ?_, by unfold ImageFits; decide⟩, rfl⟩
  exact ⟨10, le_rfl, by decide, List.mem_singleton.1 hv⟩

/-- Below, equal and above, and a NaN. -/
theorem witness_ComparisonJumps :
    (Ieee.Less one two ∧ Ieee.LessOrEqual one two ∧ ¬ Ieee.Equal one two ∧ ¬ Ieee.LessOrEqual two one) ∧
    (Ieee.Equal 0#64 minusZero ∧ ¬ Ieee.Less minusZero 0#64) ∧ ¬ Ieee.LessOrEqual nan nan ∧
    (stacked [one, two]).vs = one :: two :: [] := by
  simp only [← fLt_iff, ← fEq_iff, ← fLe_iff]
  decide +kernel
theorem witness_OnlyHltHalts : (booted []).status = .running ∧
    statusAfter (exec .hlt (booted [])) = some .halted := by decide +kernel
/-- A fault at decode, one at execution, and the one that consumes an answer. -/
theorem witness_FaultsArePrecise :
    statusAfter (step (booted [])) = some (.faulted .reachedEndNotHalted) ∧
    statusAfter (step (booted [0x02#8])) = some (.faulted .notEnoughValuesForOperation) ∧
    (after (step ((booted [0x00#8]).setInput [.fail]))).map (fun t => (t.status, t.input)) =
      some (.faulted .ioError, []) := by decide +kernel
theorem witness_FaultKindsByInstruction : Inv returning ∧ returning.status = .running ∧
    statusAfter (exec (.jmp half) returning) = some (.faulted .invalidCmdArgument) :=
  ⟨witness_ReturnTargetNeverFaults.1, rfl, by decide +kernel⟩
theorem witness_UnderflowFaults : Instr.add.wf = true ∧ (stacked [one]).vs.length < neededDepth .add ∧
    (stacked []).vs.length < neededDepth (.pop (.memory (.cst nan))) := by decide +kernel
theorem witness_StackEffect : (stacked [two, one, half]).status = .running ∧
    (after (exec .add (stacked [two, one, half]))).map (fun t => (t.status, t.vs)) =
      some (.running, [three, half]) := by decide +kernel
theorem witness_PcAdvancesPastTheInstruction : (Instr.push (.direct (.cst one))).isControlFlow = false ∧
    (booted []).status = .running ∧
    (after (exec (.push (.direct (.cst one))) (booted []))).map (fun t => (t.status, t.pc)) =
      some (.running, 10) := by decide +kernel
theorem witness_RunsOnlyExtendTheTraces : Reaches (booted [0x15#8]) (booted [0x15#8]) ∧
    ∃ t, step (booted [0x15#8]) = .next t ∧ t.frames.length = 1 :=
  ⟨.refl _, _, rfl, rfl⟩
/-- An instruction that completes and one that faults. -/
theorem witness_NoOtherWriter : (∃ t, exec .upd (booted []) = .next t) ∧ (booted []).status = .running ∧
    ∃ t, exec .add (booted []) = .next t ∧ t.status = .faulted .notEnoughValuesForOperation :=
  ⟨⟨_, rfl⟩, rfl, _, rfl, rfl⟩
/-- A step from a state that the invariant admits: the first one, a `call`. -/
theorem witness_StepKeepsTheInvariant : Inv returning ∧ statusAfter (step returning) = some .running :=
  ⟨witness_ReturnTargetNeverFaults.1, by decide +kernel⟩
theorem witness_BootHasTheInvariant : ([] : List Byte).length ≤ 2 ^ 53 - 16 := by decide
/-- Two states that differ in the bits of a NaN on the value stack. -/
theorem witness_NaNBitsAreUnobservable : AgreeUpToNaN (stacked [nan]) (stacked [nan']) ∧
    (stacked [nan]).mem.wf ∧ (stacked [nan']).mem.wf ∧ ∃ t, exec .out (stacked [nan]) = .next t := by
  refine ⟨⟨rfl, rfl, fun _ => .inl rfl, .cons (.inr isNaN_nan) .nil, rfl, fun _ _ => .inl rfl, fun _ _ => rfl, rfl,
    .nil, rfl, .nil, rfl, rfl⟩, wf_nil, wf_nil, ?_⟩
  unfold exec execOut
  simp only [stacked, setVs_vs]
  split <;> exact ⟨_, rfl⟩

end Tests

end Sys2Proof
end

section
/-!
PROOFS. Scope (`spec/00_scope.md`): what `FromNat` makes of a natural number.
-/

namespace Sys2Proof

namespace Machine

open Ieee

/-- The units of a whole number `n` stand for `n`. -/
theorem signedUnits_natural_div (n : Nat) :
    (signedUnits false (n * oneUnits) : ℚ) / 2 ^ 1074 = n := by
  have hone : (2 : ℚ) ^ 1074 = (oneUnits : ℚ) := by rw [oneUnits, Nat.cast_pow, Nat.cast_ofNat]
  rw [hone, div_eq_iff (Nat.cast_ne_zero.2 oneUnits_pos.ne'), signedUnits, if_neg Bool.false_ne_true,
    Int.cast_natCast, Nat.cast_mul]

/-- Settles O26: the `n * 2^1074` units of `n` are a magnitude that some finite pattern has, so `FromNat`
rounds nothing away (R13). -/
theorem fromNatIsExact : Obligations.FromNatIsExact := by
  intro n hn
  obtain ⟨b, hb, hunits, hpack⟩ := ofNat_eq_pack hn
  rw [hpack]
  refine ⟨isFinite_pack.2 hb, ?_⟩
  rw [value_eq, negative_pack, magUnits_pack hb.le, ← hunits, signedUnits_natural_div]

end Machine

end Sys2Proof
end

section
/-!
PROOFS. What the meaning of an instruction can answer, said once for all 26 (`spec/10_state.md` R27, R32;
`spec/60_exceptions.md` R225): it completes with one of the next states listed in `Completes`, or it faults with
one listed in `Faults`. `exec_completes_or_faults` ties both to the model; the statements about every instruction
take their cases from it.
-/

namespace Sys2Proof

namespace Machine

/-! ### Instructions of one shape -/

/-- The binary instructions whose result can be an unspecified NaN (R136, R134); `pow` is not one of them. -/
def binaryInstrs : List Instr := [.add, .sub, .mul, .div]

/-- The unary instructions whose result can be an unspecified NaN (R137, R134). -/
def unaryInstrs : List Instr := [.sqrt, .abs, .flr]

/-- The unary instructions of the C library (R146, R147). -/
def trigInstrs : List Instr := [.sin, .cos]

/-- The comparison jumps with target `t` (R185). -/
def compareJumps (t : F64) : List Instr := [.jae t, .ja t, .jb t, .jbe t, .je t, .jne t]

/-- The next state `t` of an instruction that runs to its end at `s`, neither faulting nor waiting. The result of an
operation that several instructions share (`r`, `v`) is left open here, and so is which register `pop` names. -/
inductive Completes (s : State) : Instr → State → Prop where
  | input {v rest} : s.input = .value v :: rest →
      Completes s .inp (((s.setInput rest).setVs (v :: s.vs)).advance 1)
  | output {v rest} : s.vs = v :: rest →
      Completes s .out ((((s.setVs rest).setOutAnswers s.outAnswers.tail).addOutput v).advance 1)
  | binary {i a b rest} (r : Option F64) : i ∈ binaryInstrs → s.vs = b :: a :: rest →
      Completes s i ((pushResult (s.setVs rest) r).advance 1)
  | power {a b rest} : s.vs = b :: a :: rest → Completes s .pow ((s.setVs (fPow a b :: rest)).advance 1)
  | unary {i a rest} (r : Option F64) : i ∈ unaryInstrs → s.vs = a :: rest →
      Completes s i ((pushResult (s.setVs rest) r).advance 1)
  | trig {i a rest} (v : F64) : i ∈ trigInstrs → s.vs = a :: rest →
      Completes s i ((s.setVs (v :: rest)).advance 1)
  | pushDirect (e : EaForm) : Completes s (.push (.direct e))
      ((pushResult s (effectiveValue s e)).advance (Operand.direct e).instrLength)
  | pushMemory {e n} : dataAddress s e = some n → Completes s (.push (.memory e))
      ((s.setVs (readData s.mem n :: s.vs)).advance (Operand.memory e).instrLength)
  | popDirect {v rest} (e : EaForm) (r : Reg) : s.vs = v :: rest → Completes s (.pop (.direct e))
      (((s.setVs rest).setReg r v).advance (Operand.direct e).instrLength)
  | popMemory {e v rest n m} : s.vs = v :: rest → dataAddress s e = some n → storeData s.mem n v = some m →
      Completes s (.pop (.memory e)) (((s.setVs rest).setMem m).advance (Operand.memory e).instrLength)
  | call {t n} : toOffset t = some n →
      Completes s (.call t) ((s.setCs (ofNat (s.pc + 10) :: s.cs)).setPc n)
  | ret {v rest n} : s.cs = v :: rest → toOffset v = some n → Completes s .ret ((s.setCs rest).setPc n)
  | jump {t n} : toOffset t = some n → Completes s (.jmp t) (s.setPc n)
  | jumpTaken {i t a b rest n} : i ∈ compareJumps t → s.vs = b :: a :: rest → toOffset t = some n →
      Completes s i ((s.setVs rest).setPc n)
  | jumpNotTaken {i t a b rest} : i ∈ compareJumps t → s.vs = b :: a :: rest →
      Completes s i ((s.setVs rest).advance 10)
  | present : Completes s .upd ((s.addFrame (presentedFrame s)).advance 1)
  | clear : Completes s .clr ((s.setMem (clearVram s.mem s.platform.vramBytes)).advance 1)
  | halt : Completes s .hlt ((s.advance 1).setStatus .halted)

/-- The next state `t` of an instruction that faults at `s`: only `STATUS` is written, but that `in` consumes its
answer (R225, R120). -/
inductive Faults (s : State) : Instr → State → Prop where
  | raised (i : Instr) (k : FaultKind) : Faults s i (s.setStatus (.faulted k))
  | inputFailed {rest} : s.input = .fail :: rest →
      Faults s .inp ((s.setInput rest).setStatus (.faulted .ioError))

/-! ### The shared shapes complete or fault -/

section Shapes

variable {i : Instr} {s t : State}

theorem faults_of_raise {k : FaultKind} (h : raise k s = .next t) : Faults s i t := by
  cases h
  exact .raised i k

theorem binary_next {domain : F64 → F64 → Bool} {op : F64 → F64 → Option F64}
    (h : binary domain op s = .next t) :
    (∃ a b rest, s.vs = b :: a :: rest ∧ t = (pushResult (s.setVs rest) (op a b)).advance 1) ∨
    Faults s i t := by
  rcases binary_cases domain op s with ⟨_, e⟩ | ⟨a, b, rest, hv, ⟨_, e⟩ | ⟨_, e⟩⟩ <;> rw [e] at h
  · exact .inr (faults_of_raise h)
  · exact .inr (faults_of_raise h)
  · cases h
    exact .inl ⟨a, b, rest, hv, rfl⟩

theorem unary_next {domain : F64 → Bool} {op : F64 → Option F64} (h : unary domain op s = .next t) :
    (∃ a rest, s.vs = a :: rest ∧ t = (pushResult (s.setVs rest) (op a)).advance 1) ∨ Faults s i t := by
  rcases unary_cases domain op s with ⟨_, e⟩ | ⟨a, rest, hv, ⟨_, e⟩ | ⟨_, e⟩⟩ <;> rw [e] at h
  · exact .inr (faults_of_raise h)
  · exact .inr (faults_of_raise h)
  · cases h
    exact .inl ⟨a, rest, hv, rfl⟩

theorem binary_completes_or_faults {domain : F64 → F64 → Bool} {op : F64 → F64 → Option F64}
    (hi : i ∈ binaryInstrs) (h : binary domain op s = .next t) : Completes s i t ∨ Faults s i t := by
  refine (binary_next h).imp_left ?_
  rintro ⟨a, b, rest, hv, rfl⟩
  exact .binary (op a b) hi hv

theorem unary_completes_or_faults {domain : F64 → Bool} {op : F64 → Option F64}
    (hi : i ∈ unaryInstrs) (h : unary domain op s = .next t) : Completes s i t ∨ Faults s i t := by
  refine (unary_next h).imp_left ?_
  rintro ⟨a, rest, hv, rfl⟩
  exact .unary (op a) hi hv

theorem trig_completes_or_faults {domain : F64 → Bool} {f : F64 → F64}
    (hi : i ∈ trigInstrs) (h : unary domain (fun a => some (f a)) s = .next t) :
    Completes s i t ∨ Faults s i t := by
  refine (unary_next h).imp_left ?_
  rintro ⟨a, rest, hv, rfl⟩
  exact .trig (f a) hi hv

theorem compareJump_completes_or_faults {rel : F64 → F64 → Bool} {x : F64} (hi : i ∈ compareJumps x)
    (h : compareJump rel x s = .next t) : Completes s i t ∨ Faults s i t := by
  rcases compareJump_cases rel x s with
    ⟨_, e⟩ | ⟨a, b, rest, hv, ⟨_, n, hn, e⟩ | ⟨_, _, e⟩ | ⟨_, e⟩⟩ <;> rw [e] at h
  · exact .inr (faults_of_raise h)
  · cases h
    exact .inl (.jumpTaken hi hv hn)
  · exact .inr (faults_of_raise h)
  · cases h
    exact .inl (.jumpNotTaken hi hv)

theorem popToReg_completes_or_faults {e : EaForm} {r : Reg}
    (h : popToReg r (Operand.direct e).instrLength s = .next t) :
    Completes s (.pop (.direct e)) t ∨ Faults s (.pop (.direct e)) t := by
  rcases popToReg_cases r (Operand.direct e).instrLength s with ⟨_, e'⟩ | ⟨v, rest, hv, e'⟩ <;> rw [e'] at h
  · exact .inr (faults_of_raise h)
  · cases h
    exact .inl (.popDirect e r hv)

theorem popToMemory_completes_or_faults {e : EaForm}
    (h : popToMemory e (Operand.memory e).instrLength s = .next t) :
    Completes s (.pop (.memory e)) t ∨ Faults s (.pop (.memory e)) t := by
  rcases popToMemory_cases e (Operand.memory e).instrLength s with
    ⟨_, e'⟩ | ⟨v, rest, hv, ⟨_, e'⟩ | ⟨n, hn, ⟨_, e'⟩ | ⟨m, hm, e'⟩⟩⟩ <;> rw [e'] at h
  · exact .inr (faults_of_raise h)
  · exact .inr (faults_of_raise h)
  · exact .inr (faults_of_raise h)
  · cases h
    exact .inl (.popMemory hv hn hm)

theorem execPop_completes_or_faults {a : Operand} (h : execPop a s = .next t) :
    Completes s (.pop a) t ∨ Faults s (.pop a) t := by
  match a with
  | .direct (.reg r) => exact popToReg_completes_or_faults h
  | .direct (.regCst r c) => exact popToReg_completes_or_faults h
  | .direct (.cst c) => exact .inr (faults_of_raise h)
  | .memory e => exact popToMemory_completes_or_faults h

theorem execPush_completes_or_faults {a : Operand} (h : execPush a s = .next t) :
    Completes s (.push a) t ∨ Faults s (.push a) t := by
  match a with
  | .direct e =>
    cases h
    exact .inl (.pushDirect e)
  | .memory e =>
    simp only [execPush] at h
    split at h
    next n hn =>
      cases h
      exact .inl (.pushMemory hn)
    next => exact .inr (faults_of_raise h)

theorem execIn_completes_or_faults (h : execIn s = .next t) : Completes s .inp t ∨ Faults s .inp t := by
  unfold execIn at h
  split at h
  next v rest hin =>
    cases h
    exact .inl (.input hin)
  next rest hin =>
    cases h
    exact .inr (.inputFailed hin)
  next => cases h
  next => exact .inr (faults_of_raise h)

theorem execOut_completes_or_faults (h : execOut s = .next t) : Completes s .out t ∨ Faults s .out t := by
  unfold execOut at h
  split at h
  next => exact .inr (faults_of_raise h)
  next v rest hv =>
    split at h
    next => exact .inr (faults_of_raise h)
    next =>
      cases h
      exact .inl (.output hv)

theorem execPow_completes_or_faults (h : execPow s = .next t) : Completes s .pow t ∨ Faults s .pow t := by
  refine (binary_next h).imp_left ?_
  rintro ⟨a, b, rest, hv, rfl⟩
  exact .power hv

theorem execCall_completes_or_faults {x : F64} (h : execCall x s = .next t) :
    Completes s (.call x) t ∨ Faults s (.call x) t := by
  unfold execCall at h
  split at h
  next n hn =>
    cases h
    exact .inl (.call hn)
  next => exact .inr (faults_of_raise h)

theorem execJmp_completes_or_faults {x : F64} (h : execJmp x s = .next t) :
    Completes s (.jmp x) t ∨ Faults s (.jmp x) t := by
  unfold execJmp at h
  split at h
  next n hn =>
    cases h
    exact .inl (.jump hn)
  next => exact .inr (faults_of_raise h)

theorem execRet_completes_or_faults (h : execRet s = .next t) : Completes s .ret t ∨ Faults s .ret t := by
  unfold execRet at h
  split at h
  next v rest hv =>
    split at h
    next n hn =>
      cases h
      exact .inl (.ret hv hn)
    next => exact .inr (faults_of_raise h)
  next => exact .inr (faults_of_raise h)

end Shapes

/-! ### Every instruction completes or faults -/

/-- A next state of an instruction is one it completes with or one it faults with. -/
theorem exec_completes_or_faults {i : Instr} {s t : State} (h : exec i s = .next t) :
    Completes s i t ∨ Faults s i t := by
  cases i with
  | inp => exact execIn_completes_or_faults h
  | out => exact execOut_completes_or_faults h
  | add => exact binary_completes_or_faults (by decide) h
  | sub => exact binary_completes_or_faults (by decide) h
  | mul => exact binary_completes_or_faults (by decide) h
  | div => exact binary_completes_or_faults (by decide) h
  | pow => exact execPow_completes_or_faults h
  | sqrt => exact unary_completes_or_faults (by decide) h
  | sin => exact trig_completes_or_faults (by decide) h
  | cos => exact trig_completes_or_faults (by decide) h
  | push a => exact execPush_completes_or_faults h
  | pop a => exact execPop_completes_or_faults h
  | call x => exact execCall_completes_or_faults h
  | ret => exact execRet_completes_or_faults h
  | jmp x => exact execJmp_completes_or_faults h
  | jae x => exact compareJump_completes_or_faults (x := x) (by simp [compareJumps]) h
  | ja x => exact compareJump_completes_or_faults (x := x) (by simp [compareJumps]) h
  | jb x => exact compareJump_completes_or_faults (x := x) (by simp [compareJumps]) h
  | jbe x => exact compareJump_completes_or_faults (x := x) (by simp [compareJumps]) h
  | je x => exact compareJump_completes_or_faults (x := x) (by simp [compareJumps]) h
  | jne x => exact compareJump_completes_or_faults (x := x) (by simp [compareJumps]) h
  | upd =>
    cases h
    exact .inl .present
  | clr =>
    cases h
    exact .inl .clear
  | abs => exact unary_completes_or_faults (by decide) h
  | flr => exact unary_completes_or_faults (by decide) h
  | hlt =>
    cases h
    exact .inl .halt

/-! ### What the instructions of one shape have in common -/

theorem binaryInstrs_spec : ∀ i ∈ binaryInstrs,
    neededDepth i = 2 ∧ pushCount i = 1 ∧ i.length = 1 ∧ i.isControlFlow = false := by decide

theorem unaryInstrs_spec : ∀ i ∈ unaryInstrs,
    neededDepth i = 1 ∧ pushCount i = 1 ∧ i.length = 1 ∧ i.isControlFlow = false := by decide

theorem trigInstrs_spec : ∀ i ∈ trigInstrs,
    neededDepth i = 1 ∧ pushCount i = 1 ∧ i.length = 1 ∧ i.isControlFlow = false := by decide

theorem compareJumps_spec (t : F64) : ∀ i ∈ compareJumps t,
    neededDepth i = 2 ∧ pushCount i = 0 ∧ i.length = 10 ∧ i.isControlFlow = true := by
  simp [compareJumps, neededDepth, pushCount, Instr.length, targetInstrLength, Instr.isControlFlow, Instr.format]

end Machine

end Sys2Proof
end

section
/-!
PROOFS. The state (`spec/10_state.md`): reset, the states without a step, what each component's writers are, the
effect on the value stack and on `pc`, and what every step and every run keeps.
-/

namespace Sys2Proof

namespace Machine

/-! ### Reset and the states without a step (R29, R30, R46) -/

/-- Settles O5: past the image no byte is left to decode (R29). -/
theorem fetchPastTheImageFaults : Obligations.FetchPastTheImageFaults := by
  intro s hs hpc
  have hd : decode (s.prog.drop s.pc) = .error .pastEnd := by rw [List.drop_eq_nil_of_le hpc, decode]
  exact step_of_error hs hd

/-- Settles O12, by the three arms of the model that answer a stop. -/
theorem statesWithoutAStep : Obligations.StatesWithoutAStep := by
  refine ⟨fun s hs => ?_, fun s k hs => ?_, fun s rest hin => ?_⟩
  · rw [step, hs]
  · rw [step, hs]
  · rw [exec, execIn, hin]

/-- With no byte listed, every cell reads as `+0.0` (R38). -/
theorem readCell_nil (n : Nat) : readCell [] n = 0#64 := by
  simp only [readCell, readBytes, readByte, unlistedByte]
  decide

/-- Settles O58: the memory of a booted machine lists no byte, and every other field is written out (R46). -/
theorem resetValues : Obligations.ResetValues := by
  intro image input outs p
  refine ⟨rfl, rfl, fun r => ?_, rfl, rfl, fun n _ => readCell_nil n, fun _ _ => rfl, rfl, rfl, rfl, rfl, rfl, rfl⟩
  simp [State.boot]

/-! ### Underflow (R33) -/

theorem binary_of_shallow {domain : F64 → F64 → Bool} {op : F64 → F64 → Option F64} {s : State}
    (h : s.vs.length < 2) : binary domain op s = raise .notEnoughValuesForOperation s := by
  rcases binary_cases domain op s with ⟨_, e⟩ | ⟨a, b, rest, hv, _⟩
  · exact e
  · simp [hv] at h

theorem unary_of_shallow {domain : F64 → Bool} {op : F64 → Option F64} {s : State}
    (h : s.vs.length < 1) : unary domain op s = raise .notEnoughValuesForOperation s := by
  rcases unary_cases domain op s with ⟨_, e⟩ | ⟨a, rest, hv, _⟩
  · exact e
  · simp [hv] at h

theorem compareJump_of_shallow {rel : F64 → F64 → Bool} {x : F64} {s : State}
    (h : s.vs.length < 2) : compareJump rel x s = raise .notEnoughValuesForOperation s := by
  rcases compareJump_cases rel x s with ⟨_, e⟩ | ⟨a, b, rest, hv, _⟩
  · exact e
  · simp [hv] at h

theorem execOut_of_shallow {s : State} (h : s.vs.length < 1) :
    execOut s = raise .notEnoughValuesForOperation s := by
  rw [execOut, List.length_eq_zero_iff.1 (Nat.lt_one_iff.1 h)]

theorem popToReg_of_shallow {r : Reg} {len : Nat} {s : State} (h : s.vs.length < 1) :
    popToReg r len s = raise .notEnoughValuesForOperation s := by
  rcases popToReg_cases r len s with ⟨_, e⟩ | ⟨v, rest, hv, _⟩
  · exact e
  · simp [hv] at h

theorem popToMemory_of_shallow {e : EaForm} {len : Nat} {s : State} (h : s.vs.length < 1) :
    popToMemory e len s = raise .notEnoughValuesForOperation s := by
  rcases popToMemory_cases e len s with ⟨_, e⟩ | ⟨v, rest, hv, _⟩
  · exact e
  · simp [hv] at h

/-- The depth check of `pop` comes first once there is a destination (R163). -/
theorem execPop_of_shallow {a : Operand} {s : State} (hw : a.isDestination = true) (h : s.vs.length < 1) :
    execPop a s = raise .notEnoughValuesForOperation s := by
  match a with
  | .direct (.reg r) => exact popToReg_of_shallow h
  | .direct (.regCst r c) => exact popToReg_of_shallow h
  | .direct (.cst c) => cases hw
  | .memory e => exact popToMemory_of_shallow h

/-- Settles O50: each shape of instruction looks at the depth first; an instruction that needs no value cannot
find too few. -/
theorem underflowFaults : Obligations.UnderflowFaults := by
  intro i s hw h
  cases i with
  | inp | push _ | call _ | ret | jmp _ | upd | clr | hlt => exact absurd h (Nat.not_lt_zero _)
  | add | sub | mul | div | pow => exact binary_of_shallow h
  | sqrt | sin | cos | abs | flr => exact unary_of_shallow h
  | jae _ | ja _ | jb _ | jbe _ | je _ | jne _ => exact compareJump_of_shallow h
  | out => exact execOut_of_shallow h
  | pop a => exact execPop_of_shallow hw h

/-! ### What an instruction that completes writes -/

section Completes

variable {i : Instr} {s t : State}

/-- The effect on the value stack, read off from the values popped and pushed above a common `rest`. -/
theorem stackEffect_of_append {rest : List F64} (popped pushed : List F64) (hs : s.vs = popped ++ rest)
    (ht : t.vs = pushed ++ rest) (hd : neededDepth i = popped.length) (hp : pushCount i = pushed.length) :
    ∃ pushed, pushed.length = pushCount i ∧ neededDepth i ≤ s.vs.length ∧
      t.vs = pushed ++ s.vs.drop (neededDepth i) :=
  ⟨pushed, hp.symm, by simp [hs, hd], by simp [hs, ht, hd]⟩

/-- The table of R32. -/
theorem Completes.stackEffect (h : Completes s i t) :
    ∃ pushed, pushed.length = pushCount i ∧ neededDepth i ≤ s.vs.length ∧
      t.vs = pushed ++ s.vs.drop (neededDepth i) := by
  cases h with
  | @input v => exact stackEffect_of_append [] [v] rfl rfl rfl rfl
  | @output v _ hv => exact stackEffect_of_append [v] [] hv rfl rfl rfl
  | @binary _ a b rest r hi hv =>
    obtain ⟨hd, hp, _, _⟩ := binaryInstrs_spec i hi
    obtain ⟨v, hr⟩ := pushResult_vs (s.setVs rest) r
    exact stackEffect_of_append [b, a] [v] hv hr hd hp
  | @power a b _ hv => exact stackEffect_of_append [b, a] [fPow a b] hv rfl rfl rfl
  | @unary _ a rest r hi hv =>
    obtain ⟨hd, hp, _, _⟩ := unaryInstrs_spec i hi
    obtain ⟨v, hr⟩ := pushResult_vs (s.setVs rest) r
    exact stackEffect_of_append [a] [v] hv hr hd hp
  | @trig _ a _ v hi hv =>
    obtain ⟨hd, hp, _, _⟩ := trigInstrs_spec i hi
    exact stackEffect_of_append [a] [v] hv rfl hd hp
  | pushDirect e =>
    obtain ⟨v, hr⟩ := pushResult_vs s (effectiveValue s e)
    exact stackEffect_of_append [] [v] rfl hr rfl rfl
  | @pushMemory _ n => exact stackEffect_of_append [] [readData s.mem n] rfl rfl rfl rfl
  | @popDirect v _ _ _ hv => exact stackEffect_of_append [v] [] hv rfl rfl rfl
  | @popMemory _ v _ _ _ hv => exact stackEffect_of_append [v] [] hv rfl rfl rfl
  | @jumpTaken _ x a b _ _ hi hv =>
    obtain ⟨hd, hp, _, _⟩ := compareJumps_spec x i hi
    exact stackEffect_of_append [b, a] [] hv rfl hd hp
  | @jumpNotTaken _ x a b _ hi hv =>
    obtain ⟨hd, hp, _, _⟩ := compareJumps_spec x i hi
    exact stackEffect_of_append [b, a] [] hv rfl hd hp
  | call | ret | jump | present | clear | halt => exact stackEffect_of_append [] [] rfl rfl rfl rfl

/-- What neither needs nor pushes a value leaves the value stack alone (R32). -/
theorem Completes.vs_eq (h : Completes s i t) (hd : neededDepth i = 0) (hp : pushCount i = 0) : t.vs = s.vs := by
  obtain ⟨pushed, hl, _, ht⟩ := h.stackEffect
  rw [hp, List.length_eq_zero_iff] at hl
  rw [ht, hl, hd, List.nil_append, List.drop_zero]

/-- Only `hlt` writes `STATUS` (R30). -/
theorem Completes.status_cases (h : Completes s i t) :
    t.status = s.status ∨ (i = .hlt ∧ t.status = .halted) := by
  cases h with
  | halt => exact .inr ⟨rfl, rfl⟩
  | _ => simp

/-- An instruction that completes in a running machine has not faulted. -/
theorem Completes.not_faulted (h : Completes s i t) (hs : s.status = .running) (k : FaultKind) :
    t.status ≠ .faulted k := by
  rcases h.status_cases with ht | ⟨_, ht⟩ <;> simp [ht, hs]

/-- Only a control transfer moves `pc` otherwise than past itself (R27). -/
theorem Completes.pc_eq (h : Completes s i t) (hf : i.isControlFlow = false) (hr : i ≠ .ret) :
    t.pc = s.pc + i.length := by
  cases h with
  | binary r hi =>
    obtain ⟨_, _, hl, _⟩ := binaryInstrs_spec i hi
    simp [hl]
  | unary r hi =>
    obtain ⟨_, _, hl, _⟩ := unaryInstrs_spec i hi
    simp [hl]
  | trig v hi =>
    obtain ⟨_, _, hl, _⟩ := trigInstrs_spec i hi
    simp [hl]
  | @jumpTaken _ x _ _ _ _ hi =>
    obtain ⟨_, _, _, hc⟩ := compareJumps_spec x i hi
    simp [hc] at hf
  | @jumpNotTaken _ x _ _ _ hi =>
    obtain ⟨_, _, _, hc⟩ := compareJumps_spec x i hi
    simp [hc] at hf
  | ret => exact absurd rfl hr
  | call | jump => simp [Instr.isControlFlow, Instr.format] at hf
  | _ => simp [Instr.length]

theorem Completes.regs_eq (h : Completes s i t) (hi : ∀ e, i ≠ .pop (.direct e)) : t.regs = s.regs := by
  cases h with
  | popDirect e => exact absurd rfl (hi e)
  | _ => simp

theorem Completes.cs_eq (h : Completes s i t) (hc : ∀ x, i ≠ .call x) (hr : i ≠ .ret) : t.cs = s.cs := by
  cases h with
  | @call x => exact absurd rfl (hc x)
  | ret => exact absurd rfl hr
  | _ => simp

theorem Completes.mem_eq (h : Completes s i t) (hp : ∀ e, i ≠ .pop (.memory e)) (hc : i ≠ .clr) :
    t.mem = s.mem := by
  cases h with
  | @popMemory e => exact absurd rfl (hp e)
  | clear => exact absurd rfl hc
  | _ => simp

theorem Completes.output_eq (h : Completes s i t) (hi : i ≠ .out) :
    t.output = s.output ∧ t.outAnswers = s.outAnswers := by
  cases h with
  | output => exact absurd rfl hi
  | _ => simp

theorem Completes.frames_eq (h : Completes s i t) (hi : i ≠ .upd) : t.frames = s.frames := by
  cases h with
  | present => exact absurd rfl hi
  | _ => simp

theorem Completes.input_eq (h : Completes s i t) (hi : i ≠ .inp) : t.input = s.input := by
  cases h with
  | input => exact absurd rfl hi
  | _ => simp

/-- A NaN is drawn only by the instructions that compute a result with `pushResult` (log entry 2); a register or a
constant that is only moved is no such result. -/
theorem Completes.nanDraws_eq (h : Completes s i t) (hi : i ∉ binaryInstrs) (hi' : i ∉ unaryInstrs)
    (hp : ∀ r c, i ≠ .push (.direct (.regCst r c))) : t.nanDraws = s.nanDraws := by
  cases h with
  | binary _ h => exact absurd h hi
  | unary _ h => exact absurd h hi'
  | pushDirect e =>
    cases e with
    | reg r => rfl
    | cst c => rfl
    | regCst r c => exact absurd rfl (hp r c)
  | _ => rfl

theorem Completes.prog_eq (h : Completes s i t) : t.prog = s.prog := by
  cases h <;> simp

theorem Completes.platform_eq (h : Completes s i t) : t.platform = s.platform := by
  cases h <;> simp

end Completes

/-! ### What an instruction that faults writes -/

section Faults

variable {i : Instr} {s t : State}

theorem Faults.status_eq (h : Faults s i t) : ∃ k, t.status = .faulted k := by
  cases h <;> exact ⟨_, rfl⟩

theorem Faults.input_eq (h : Faults s i t) (hi : i ≠ .inp) : t.input = s.input := by
  cases h with
  | raised => rfl
  | inputFailed => exact absurd rfl hi

/-- But for `STATUS` and the answer that `in` consumes, a fault writes nothing (R225). -/
theorem Faults.eq_update (h : Faults s i t) : t = { s with status := t.status, input := t.input } := by
  cases h <;> rfl

end Faults

/-! ### The statements about every instruction -/

/-- Settles O47: an instruction that completes leaves `STATUS` alone unless it is `hlt`, and one that faults
does not end in `Halted`. -/
theorem onlyHltHalts : Obligations.OnlyHltHalts := by
  intro i s t hs h ht
  rcases exec_completes_or_faults h with hc | hf
  · rcases hc.status_cases with e | ⟨hi, _⟩
    · simp [ht, hs] at e
    · exact hi
  · obtain ⟨k, hk⟩ := hf.status_eq
    simp [ht] at hk

/-- An instruction whose next state is no fault has completed. -/
theorem completes_of_not_faulted {i : Instr} {s t : State} (h : exec i s = .next t)
    (hk : ∀ k, t.status ≠ .faulted k) : Completes s i t := by
  refine (exec_completes_or_faults h).resolve_right fun hf => ?_
  obtain ⟨k, hf⟩ := hf.status_eq
  exact hk k hf

/-- Settles O51, by the next states an instruction completes with. -/
theorem stackEffect : Obligations.StackEffect :=
  fun _ _ _ _ h hk => (completes_of_not_faulted h hk).stackEffect

/-- Settles O52, by the next states an instruction completes with. -/
theorem pcAdvancesPastTheInstruction : Obligations.PcAdvancesPastTheInstruction :=
  fun _ _ _ hf hr _ h hk => (completes_of_not_faulted h hk).pc_eq hf hr

/-- The instructions that the statement exempts by name are those that draw NaNs. -/
theorem not_mem_drawing {i : Instr} (h : i ∉ [.add, .sub, .mul, .div, .sqrt, .abs, .flr]) :
    i ∉ binaryInstrs ∧ i ∉ unaryInstrs := by
  rw [← not_or, ← List.mem_append]
  exact h

/-- Settles O53: the writers of each component among the instructions that complete, and STATUS and INPUT alone
for those that fault. -/
theorem noOtherWriter : Obligations.NoOtherWriter := by
  intro i s t h
  rcases exec_completes_or_faults h with hc | hf
  · refine ⟨fun hi => .inl (hc.status_cases.resolve_right fun h => hi h.1), ?_,
      fun hf hr => .inr (hc.pc_eq hf hr), hc.vs_eq, hc.regs_eq, hc.cs_eq, hc.mem_eq, hc.output_eq, hc.frames_eq,
      hc.input_eq, ?_, hc.prog_eq, hc.platform_eq⟩
    · rintro hs ⟨k, hk⟩
      exact absurd hk (hc.not_faulted hs k)
    · intro hi hp
      obtain ⟨hb, hu⟩ := not_mem_drawing hi
      exact hc.nanDraws_eq hb hu hp
  · have hin := hf.input_eq
    have hk := hf.status_eq
    rw [hf.eq_update] at hin hk ⊢
    exact ⟨fun _ => .inr hk, fun _ _ => rfl, fun _ _ => .inl rfl, fun _ _ => rfl, fun _ => rfl, fun _ _ => rfl,
      fun _ _ => rfl, fun _ => ⟨rfl, rfl⟩, fun _ => rfl, hin, fun _ _ => rfl, rfl, rfl⟩

/-! ### What every run keeps (R40, R41) -/

/-- From `s` to `t` the image and the platform stay and the traces only grow. -/
def OnlyExtends (s t : State) : Prop :=
  t.prog = s.prog ∧ t.platform = s.platform ∧ s.output <+: t.output ∧ s.frames <+: t.frames

theorem OnlyExtends.refl (s : State) : OnlyExtends s s :=
  ⟨rfl, rfl, ⟨[], List.append_nil _⟩, ⟨[], List.append_nil _⟩⟩

theorem OnlyExtends.trans {s t u : State} (h : OnlyExtends s t) (h' : OnlyExtends t u) : OnlyExtends s u := by
  obtain ⟨hprog, hplat, hout, hframes⟩ := h
  obtain ⟨hprog', hplat', hout', hframes'⟩ := h'
  exact ⟨hprog'.trans hprog, hplat'.trans hplat, hout.trans hout', hframes.trans hframes'⟩

theorem Completes.onlyExtends {i : Instr} {s t : State} (h : Completes s i t) : OnlyExtends s t := by
  refine ⟨h.prog_eq, h.platform_eq, ?_, ?_⟩
  · cases h with
    | @output v => exact ⟨[v], rfl⟩
    | _ => simp
  · cases h with
    | present => exact ⟨[presentedFrame s], rfl⟩
    | _ => simp

theorem step_onlyExtends {s t : State} (h : step s = .next t) : OnlyExtends s t := by
  obtain ⟨_, ⟨i, _, hx⟩ | ⟨e, _, rfl⟩⟩ := step_cases h
  · rcases exec_completes_or_faults hx with hc | hf
    · exact hc.onlyExtends
    · rw [hf.eq_update]
      exact .refl s
  · exact .refl s

/-- Settles O54, by induction on the run. -/
theorem runsOnlyExtendTheTraces : Obligations.RunsOnlyExtendTheTraces := by
  intro s t h
  induction h with
  | refl => exact OnlyExtends.refl _
  | tail _ hstep ih => exact OnlyExtends.trans ih (step_onlyExtends hstep)

/-! ### What every step keeps (R28, R35, R51, R63) -/

/-- A store keeps data memory canonical. -/
theorem wf_storeData {m m' : Memory} {n : Nat} {v : F64} (hm : m.wf) (h : storeData m n v = some m') : m'.wf := by
  rcases storeData_cases m n v with ⟨_, e⟩ | ⟨_, b, _, e⟩ | ⟨_, _, e⟩ <;> rw [e] at h <;> cases h
  · exact wf_writeCell hm n v
  · exact wf_writeVram hm _ b

/-- A store to a data address lists no byte past VRAM (R63). -/
theorem storeData_lt_vramOffset {m m' : Memory} {n size : Nat} {v : F64}
    (hm : ∀ c ∈ m, c.1 < vramOffset size) (hn : n < 1024 + size) (h : storeData m n v = some m') :
    ∀ c ∈ m', c.1 < vramOffset size := by
  intro c hc
  rcases storeData_cases m n v with ⟨hlt, e⟩ | ⟨hle, b, _, e⟩ | ⟨_, _, e⟩ <;> rw [e] at h <;> cases h
  · rcases mem_writeCell hlt hc with h0 | hc
    · exact lt_of_lt_of_le h0 (Nat.add_le_add_left (Nat.zero_le size) _)
    · exact hm c hc
  · rcases mem_writeVram hc with h0 | hc
    · simp only [h0, vramOffset]
      omega
    · exact hm c hc

/-- A mapped answer of the decoder comes from an answer. -/
theorem except_map_eq_ok {ε α β : Type} {f : α → β} {x : Except ε α} {b : β} :
    x.map f = .ok b ↔ ∃ a, x = .ok a ∧ f a = b := by
  cases x <;> simp [Except.map]

/-- Bytes that decode to a `call` are an opcode and a target operand (R87). -/
theorem decode_eq_call {bytes : List Byte} {x : F64} (h : decode bytes = .ok (.call x)) :
    ∃ op bs, bytes = op :: bs ∧ decodeTarget bs = .ok x := by
  cases bytes with
  | nil => cases h
  | cons op bs =>
    refine ⟨op, bs, rfl, ?_⟩
    simp only [decode] at h
    split at h <;> simp [except_map_eq_ok] at h
    exact h

/-- A target operand that is read takes nine bytes (R87). -/
theorem length_of_decodeTarget {bs : List Byte} {x : F64} (h : decodeTarget bs = .ok x) : 9 ≤ bs.length := by
  unfold decodeTarget at h
  split at h
  next => cases h
  next m bs =>
    split at h
    next => cases h
    next =>
      obtain ⟨rest, rfl⟩ := takeF64_eq_ok h
      simp

/-- A `call` that is fetched lies within the image, and so does its return address (R35). -/
theorem pc_add_le_of_decode_call {s : State} {x : F64} (h : decode (s.prog.drop s.pc) = .ok (.call x)) :
    s.pc + 10 ≤ s.prog.length := by
  obtain ⟨op, bs, hb, ht⟩ := decode_eq_call h
  have hlen : s.prog.length - s.pc = bs.length + 1 := by rw [← List.length_drop, hb, List.length_cons]
  have := length_of_decodeTarget ht
  omega

section Invariant

variable {i : Instr} {s t : State}

theorem Completes.mem_wf (h : Completes s i t) (hs : s.mem.wf) : t.mem.wf := by
  cases h with
  | popMemory _ _ hm => exact wf_storeData hs hm
  | clear => exact wf_clearVram hs _
  | _ => simpa using hs

theorem Completes.mem_bound (h : Completes s i t) (hs : ∀ c ∈ s.mem, c.1 < vramOffset s.platform.vramBytes) :
    ∀ c ∈ t.mem, c.1 < vramOffset s.platform.vramBytes := by
  cases h with
  | popMemory _ hn hm => exact storeData_lt_vramOffset hs (dataAddress_lt hn) hm
  | clear => exact fun c hc => hs c (mem_clearVram hc)
  | _ => simpa using hs

/-- Only `call` adds a call-stack element: the offset of the byte after itself (R35). -/
theorem Completes.return_addresses (h : Completes s i t)
    (hi : ∀ x, i = .call x → s.pc + 10 ≤ s.prog.length) (hs : ∀ v ∈ s.cs, IsReturnAddress s.prog.length v) :
    ∀ v ∈ t.cs, IsReturnAddress s.prog.length v := by
  cases h with
  | @call x =>
    exact List.forall_mem_cons.2 ⟨⟨s.pc + 10, Nat.le_add_left 10 s.pc, hi x rfl, rfl⟩, hs⟩
  | ret hv => exact (List.forall_mem_cons.1 (hv ▸ hs)).2
  | _ => simpa using hs

theorem Completes.inv (h : Completes s i t) (hi : ∀ x, i = .call x → s.pc + 10 ≤ s.prog.length) (hs : Inv s) :
    Inv t where
  mem_wf := h.mem_wf hs.mem_wf
  mem_bound := by
    rw [h.platform_eq]
    exact h.mem_bound hs.mem_bound
  return_addresses := by
    rw [h.prog_eq]
    exact h.return_addresses hi hs.return_addresses
  image_fits := by
    rw [ImageFits, h.prog_eq]
    exact hs.image_fits

/-- The invariant says nothing of `STATUS` and INPUT. -/
theorem Inv.update (hs : Inv s) (x : Status) (l : List InAnswer) : Inv { s with status := x, input := l } :=
  ⟨hs.mem_wf, hs.mem_bound, hs.return_addresses, hs.image_fits⟩

end Invariant

/-- Settles O56: an instruction that completes keeps each part of the invariant, the return address of a `call`
lying in the image because the `call` was fetched there; a fault touches none of them. -/
theorem stepKeepsTheInvariant : Obligations.StepKeepsTheInvariant := by
  intro s t hs h
  obtain ⟨_, ⟨i, hd, hx⟩ | ⟨e, _, rfl⟩⟩ := step_cases h
  · rcases exec_completes_or_faults hx with hc | hf
    · refine hc.inv (fun x hi => ?_) hs
      subst hi
      exact pc_add_le_of_decode_call hd
    · rw [hf.eq_update]
      exact hs.update _ _
  · exact hs.update _ _

end Machine

end Sys2Proof
end

section
/-!
PROOFS. Memory access (`spec/20_memory.md`): which doubles are data addresses and which are VRAM bytes, what a store
changes in each of the two regions, and that no step but a store to a RAM cell changes what that cell reads as.
-/

namespace Sys2Proof

namespace Machine

open Ieee

/-! ### From a double to a data address (R53, R161) -/

/-- `ToAddr` is the strict conversion to a natural number, with the bound of the data space. -/
theorem toAddr_eq_some_iff {size : Nat} {v : F64} {n : Nat} :
    toAddr size v = some n ↔ toNatural .strict v = some n ∧ n < 1024 + size := by
  rw [toAddr, addrConv, Config.vramBase]
  cases toNatural .strict v with
  | none => simp
  | some k =>
    rw [Option.ite_none_right_eq_some, Option.some.injEq]
    constructor
    · rintro ⟨hk, rfl⟩
      exact ⟨rfl, hk⟩
    · rintro ⟨rfl, hk⟩
      exact ⟨hk, rfl⟩

/-- An operand has a data address when it has an effective value, and that value is one. -/
theorem dataAddress_eq_some_iff {s : State} {e : EaForm} {n : Nat} :
    dataAddress s e = some n ↔
      ∃ v, effectiveValue s e = some v ∧ toAddr s.platform.vramBytes v = some n := by
  rw [dataAddress]
  cases effectiveValue s e <;> simp

theorem toAddr_eq_some_iff_isNatural {size : Nat} {v : F64} {n : Nat} :
    toAddr size v = some n ↔ IsNatural v n ∧ n < 1024 + size := by
  rw [toAddr_eq_some_iff, toNatural_strict_iff]

/-- Settles O27: the strict conversion answers the natural number a double is, and `ToAddr` adds the bound. -/
theorem toAddrAcceptsExactIntegers : Obligations.ToAddrAcceptsExactIntegers := by
  refine ⟨fun _ _ _ => toAddr_eq_some_iff_isNatural, fun s e n => ?_⟩
  rw [dataAddress_eq_some_iff]
  exact exists_congr fun v => and_congr_right fun _ => toAddr_eq_some_iff_isNatural

/-! ### From a double to a VRAM byte (R59) -/

/-- The magnitude of a finite value, in units. -/
theorem abs_value (v : F64) : |value v| = (magUnits v : ℚ) / oneUnits := by
  have hone : (2 : ℚ) ^ 1074 = (oneUnits : ℚ) := by rw [oneUnits, Nat.cast_pow, Nat.cast_ofNat]
  have habs : |signedUnits (negative v) (magUnits v)| = (magUnits v : ℤ) := by
    cases negative v <;> simp [signedUnits]
  rw [value_eq, hone, abs_div, Nat.abs_cast, ← Int.cast_abs, habs, Int.cast_natCast]

/-- The whole number that `ToByte` truncates a finite value to. -/
theorem floor_abs_value (v : F64) : ⌊|value v|⌋ = ((magUnits v / oneUnits : ℕ) : ℤ) := by
  rw [abs_value, Rat.floor_natCast_div_natCast, Int.natCast_div]

theorem value_of_negative {v : F64} (h : negative v = true) : value v = -|value v| := by
  have hv : value v ≤ 0 := by
    rw [value_eq, h]
    exact div_nonpos_of_nonpos_of_nonneg (by simp [signedUnits]) (by positivity)
  rw [abs_of_nonpos hv, neg_neg]

theorem value_of_not_negative {v : F64} (h : negative v = false) : value v = |value v| := by
  have hv : 0 ≤ value v := by
    rw [value_eq, h]
    exact div_nonneg (by simp [signedUnits]) (by positivity)
  rw [abs_of_nonneg hv]

/-- `ToByte` in units: the whole part of the magnitude, which must be 0 below zero. -/
theorem toByte_eq_some_iff {v : F64} {b : Byte} :
    toByte v = some b ↔
      IsFinite v ∧ b.toNat = magUnits v / oneUnits ∧ (negative v = true → b.toNat = 0) := by
  refine ⟨toByte_spec, fun ⟨hf, hb, hn⟩ => ?_⟩
  cases h : toByte v with
  | none =>
    rcases toByte_none h with h | h | ⟨hneg, h⟩
    · exact absurd hf h
    · exact absurd h (by rw [← hb]; exact Nat.not_lt.2 (Nat.le_of_lt_succ b.isLt))
    · exact absurd (hb.symm.trans (hn hneg)) h
  | some c =>
    obtain ⟨_, hc, _⟩ := toByte_spec h
    rw [BitVec.eq_of_toNat_eq (hc.trans hb.symm)]

/-- A value truncates to a byte, to 0 if it is below zero, exactly in the open interval `(-1, 256)`. -/
theorem truncates_to_byte_iff {v : F64} {b : Byte} (hb : (b.toNat : ℤ) = ⌊|value v|⌋) :
    (negative v = true → b.toNat = 0) ↔ -1 < value v ∧ value v < 256 := by
  have habs := abs_nonneg (value v)
  cases hneg : negative v with
  | true =>
    have hlt : b.toNat = 0 ↔ |value v| < 1 := by
      rw [← Int.natCast_eq_zero, hb, Int.floor_eq_zero_iff, Set.mem_Ico, and_iff_right habs]
    rw [value_of_negative hneg, hlt, imp_iff_right rfl]
    exact ⟨fun h => ⟨by linarith, by linarith⟩, fun ⟨h, _⟩ => by linarith⟩
  | false =>
    have hlt : |value v| < 256 := by
      have h256 : ⌊|value v|⌋ < 256 := by
        rw [← hb]
        exact_mod_cast b.isLt
      exact_mod_cast Int.floor_lt.1 h256
    rw [value_of_not_negative hneg]
    exact ⟨fun _ => ⟨by linarith, hlt⟩, fun _ h => by cases h⟩

/-- Settles O29: `ToByte` takes the whole part of the magnitude, and below zero accepts only the whole part 0. -/
theorem toByteTruncates : Obligations.ToByteTruncates := by
  intro v b
  rw [toByte_eq_some_iff, ← Nat.cast_inj (R := ℤ) (m := b.toNat), ← floor_abs_value]
  constructor
  · rintro ⟨hf, hb, hn⟩
    obtain ⟨hlow, hhigh⟩ := (truncates_to_byte_iff hb).1 hn
    exact ⟨hf, hlow, hhigh, hb⟩
  · rintro ⟨hf, hlow, hhigh, hb⟩
    exact ⟨hf, hb, (truncates_to_byte_iff hb).2 ⟨hlow, hhigh⟩⟩

/-! ### A store in each region (R57, R58) -/

/-- Below 1024 a store writes a whole RAM cell. -/
theorem storeData_ram {m : Memory} {n : Nat} {v : F64} (h : n < 1024) :
    storeData m n v = some (writeCell m n v) := by
  rcases storeData_cases m n v with ⟨_, e⟩ | ⟨hn, _⟩ | ⟨hn, _⟩
  · exact e
  · omega
  · omega

/-- From 1024 on a store writes the VRAM byte that the value converts to, if it converts. -/
theorem storeData_vram {m : Memory} {n : Nat} {v : F64} (h : 1024 ≤ n) :
    storeData m n v = (toByte v).map (writeVram m (n - 1024)) := by
  rcases storeData_cases m n v with ⟨hn, _⟩ | ⟨_, b, hb, e⟩ | ⟨_, hb, e⟩
  · omega
  · rw [e, hb, Option.map_some]
  · rw [e, hb, Option.map_none]

/-- A store to another data address leaves a RAM cell alone (R52). -/
theorem readCell_storeData_other {m m' : Memory} {n k : Nat} {v : F64} (hm : m.wf) (hn : n < 1024) (hk : k ≠ n)
    (h : storeData m k v = some m') : readCell m' n = readCell m n := by
  rcases storeData_cases m k v with ⟨_, e⟩ | ⟨_, b, _, e⟩ | ⟨_, _, e⟩ <;> rw [e] at h <;> cases h
  · exact readCell_writeCell_other hm v hk.symm
  · exact readCell_writeVram hm b hn

theorem readData_ram {m : Memory} {n : Nat} (h : n < 1024) : readData m n = readCell m n := if_pos h

/-! ### `push` and `pop` with a data address (R165, R170) -/

/-- A memory operand takes an opcode, a mode byte and its fields (R94). -/
@[simp] theorem instrLength_memory (e : EaForm) : (Operand.memory e).instrLength = addressedLength e := by
  cases e <;> simp [Operand.instrLength, Operand.form, addressedLength]

/-- A `pop` whose value can be stored at its data address completes. -/
theorem exec_pop_memory {s : State} {e : EaForm} {v : F64} {rest : List F64} {n : Nat} {m : Memory}
    (hv : s.vs = v :: rest) (hn : dataAddress s e = some n) (hm : storeData s.mem n v = some m) :
    exec (.pop (.memory e)) s =
      .next { s with vs := rest, mem := m, pc := s.pc + addressedLength e } := by
  have hpop : popToMemory e (addressedLength e) s =
      .next (((s.setVs rest).setMem m).advance (addressedLength e)) := by
    simp only [popToMemory, hv, hn, hm]
  rw [exec, execPop, instrLength_memory, hpop]
  rfl

/-- A `pop` whose value cannot be stored at its data address faults, and the value stays. -/
theorem exec_pop_memory_of_no_byte {s : State} {e : EaForm} {v : F64} {rest : List F64} {n : Nat}
    (hv : s.vs = v :: rest) (hn : dataAddress s e = some n) (hm : storeData s.mem n v = none) :
    exec (.pop (.memory e)) s = .next { s with status := .faulted .invalidCmdArgument } := by
  have hpop : popToMemory e (addressedLength e) s = raise .invalidCmdArgument s := by
    simp only [popToMemory, hv, hn, hm]
  rw [exec, execPop, instrLength_memory, hpop, raise_eq_next]

/-- A `push` from a data address completes with what is read there. -/
theorem exec_push_memory {s : State} {e : EaForm} {n : Nat} (hn : dataAddress s e = some n) :
    exec (.push (.memory e)) s =
      .next { s with vs := readData s.mem n :: s.vs, pc := s.pc + addressedLength e } := by
  have hpush : execPush (.memory e) s =
      .next ((pushValue s (readData s.mem n)).advance (addressedLength e)) := by
    simp only [execPush, hn, instrLength_memory]
  rw [exec, hpush]
  rfl

/-- Settles O34: the memory after the store is the one with cell `n` written. -/
theorem popRamCell : Obligations.PopRamCell := by
  intro s e v rest n hm hv hn hlt
  exact ⟨writeCell s.mem n v, exec_pop_memory hv hn (storeData_ram hlt), readCell_writeCell_same hm n v,
    fun a ha => readByte_writeCell_other hm v ha⟩

/-- Settles O35: a value that converts to a byte is stored as that byte, and one that does not is refused before
anything is popped. -/
theorem popVramByte : Obligations.PopVramByte := by
  intro s e v rest n hm hv hn hle
  have hstore := storeData_vram (m := s.mem) (v := v) hle
  constructor
  · intro b hb
    rw [hb, Option.map_some] at hstore
    exact ⟨writeVram s.mem (n - 1024) b, exec_pop_memory hv hn hstore, readVram_writeVram_same hm _ b,
      fun a ha => readByte_writeVram_other hm b ha⟩
  · intro hb
    rw [hb, Option.map_none] at hstore
    exact exec_pop_memory_of_no_byte hv hn hstore

/-! ### A RAM cell along a run (R65) -/

/-- Data memory is canonical and RAM cell `n` reads as `v`. -/
def CellHolds (n : Nat) (v : F64) (s : State) : Prop := s.mem.wf ∧ readCell s.mem n = v

/-- An instruction that completes changes a RAM cell only if it is a `pop` to that cell: the other stores reach
other cells or VRAM, and so does `clr` (R54). -/
theorem Completes.cellHolds {i : Instr} {s t : State} {n : Nat} {v : F64} (h : Completes s i t) (hn : n < 1024)
    (hi : ∀ e, i = .pop (.memory e) → dataAddress s e ≠ some n) (hs : CellHolds n v s) : CellHolds n v t := by
  obtain ⟨hwf, hcell⟩ := hs
  refine ⟨h.mem_wf hwf, ?_⟩
  cases h with
  | @popMemory e w rest k m _ hk hm =>
    have hne : k ≠ n := fun hkn => hi e rfl (hkn ▸ hk)
    exact (readCell_storeData_other hwf hn hne hm).trans hcell
  | clear => exact (readCell_clearVram hn).trans hcell
  | _ => simpa using hcell

/-- A step that is no `pop` to a RAM cell leaves what the cell holds. -/
theorem step_cellHolds {s t : State} {n : Nat} {v : F64} (h : step s = .next t) (hn : n < 1024)
    (hi : ∀ e, decode (s.prog.drop s.pc) = .ok (.pop (.memory e)) → dataAddress s e ≠ some n)
    (hs : CellHolds n v s) : CellHolds n v t := by
  obtain ⟨_, ⟨i, hd, hx⟩ | ⟨_, _, rfl⟩⟩ := step_cases h
  · rcases exec_completes_or_faults hx with hc | hf
    · exact hc.cellHolds hn (fun e he => hi e (he ▸ hd)) hs
    · rw [hf.eq_update]
      exact hs
  · exact hs

theorem ReachesWithoutStore.cellHolds {s t : State} {n : Nat} {v : F64} (h : ReachesWithoutStore n s t)
    (hn : n < 1024) (hs : CellHolds n v s) : CellHolds n v t := by
  induction h with
  | refl => exact hs
  | tail _ hstep hi ih => exact step_cellHolds hstep hn hi ih

/-- Settles O37: the store makes the cell hold `v`, the run keeps it, and the load reads it. -/
theorem storeThenLoadIsExact : Obligations.StoreThenLoadIsExact := by
  intro s t u e e' v rest n hm hv hn hlt hpop hrun hn'
  have hstored : CellHolds n v t := by
    rw [exec_pop_memory hv hn (storeData_ram hlt)] at hpop
    cases hpop
    exact ⟨wf_writeCell hm n v, readCell_writeCell_same hm n v⟩
  obtain ⟨_, hcell⟩ := hrun.cellHolds hlt hstored
  rw [exec_push_memory hn', readData_ram hlt, hcell]

end Machine

end Sys2Proof
end

section
/-!
PROOFS. The encoding (`spec/30_encoding.md`). `decode_eq_ok_iff` is the whole of it: bytes decode to an instruction
just when it is well formed and they begin with its encoding (R84 to R98). Beside it: which bytes the decoder
accepts (R101 to R104), what it raises for the others and for an instruction cut off by the end of the image (R83),
and that every instruction has a next state (R95).
-/

namespace Sys2Proof

open Machine

/-! ### The fields of an addressed operand (R84, R86) -/

/-- The bits REG and CST of a mode byte, as the mode byte of a form has them (R88). -/
theorem formBits_eq (m : Byte) :
    m &&& 0x06#8 = (if hasReg m then modeReg else 0#8) ||| (if hasCst m then modeCst else 0#8) := by
  revert m
  decide

/-- A legal mode byte has REG or CST (R101). -/
theorem hasCst_of_legal {m : Byte} (hm : modeIllegal m = false) (hr : hasReg m = false) : hasCst m = true := by
  revert m
  decide

/-- The bit RAM says which of the two operands with a form was encoded (R86). -/
theorem operand_of_hasRam_mode (a : Operand) : (if hasRam a.mode then Operand.memory else .direct) a.form = a := by
  rcases a with (_ | _ | _) | (_ | _ | _) <;>
  simp [hasRam, Operand.mode, Operand.form, EaForm.mode, modeReg, modeCst, modeRam]

/-- A legal mode byte is RAM and the bits of the form (R86). -/
theorem mode_of_formBits {m : Byte} {e : EaForm} (hm : modeIllegal m = false) (he : e.mode = m &&& 0x06#8) :
    ((if hasRam m then Operand.memory else .direct) e).mode = m := by
  obtain rfl | rfl | rfl | rfl | rfl | rfl := mode_of_legal hm <;> simp [hasRam, modeRam, Operand.mode, he]

/-- A register index that is read is the byte of what was read (R89). -/
theorem takeReg_eq_ok {bs rest : List Byte} {r : Reg} (h : takeReg bs = .ok (r, rest)) : bs = regByte r :: rest := by
  unfold takeReg at h
  split at h
  next => cases h
  next b bs =>
    split at h
    next q hq =>
      cases h
      rw [regOfByte_eq_some.1 hq]
    next => cases h

theorem takeReg_cons {b : Byte} {r : Reg} (bs : List Byte) (h : regOfByte b = some r) :
    takeReg (b :: bs) = .ok (r, bs) := by
  simp only [takeReg, h]

theorem takeReg_illegal {b : Byte} (bs : List Byte) (h : regOfByte b = none) :
    takeReg (b :: bs) = .error (.illegalRegister b) := by
  simp only [takeReg, h]

/-- The fields that are read are those of the form that was read, and the form is the one announced. -/
theorem takeForm_eq_ok {m : Byte} {bs : List Byte} {e : EaForm} (hm : modeIllegal m = false)
    (h : takeForm m bs = .ok e) : e.fields <+: bs ∧ e.mode = m &&& 0x06#8 := by
  rw [formBits_eq]
  unfold takeForm at h
  split at h
  next hr =>
    split at h
    next => cases h
    next r rest hreg =>
      rw [takeReg_eq_ok hreg]
      split at h
      next hc =>
        obtain ⟨c, hf, rfl⟩ := except_map_eq_ok.1 h
        obtain ⟨rest', rfl⟩ := takeF64_eq_ok hf
        exact ⟨⟨rest', rfl⟩, by simp [hr, hc, EaForm.mode]⟩
      next hc =>
        cases h
        exact ⟨⟨rest, rfl⟩, by simp [hr, hc, EaForm.mode]⟩
  next hr =>
    have hc := hasCst_of_legal hm (Bool.eq_false_iff.2 hr)
    obtain ⟨c, hf, rfl⟩ := except_map_eq_ok.1 h
    obtain ⟨rest, rfl⟩ := takeF64_eq_ok hf
    exact ⟨⟨rest, rfl⟩, by simp [hr, hc, EaForm.mode]⟩

/-- Eight bytes at hand are a constant (R90). -/
theorem takeF64_of_le {e : DecodeError} {bs : List Byte} (h : 8 ≤ bs.length) :
    takeF64 e bs = .ok (f64OfBytes (bs.take 8)) :=
  if_neg (Nat.not_lt.2 h)

/-- A constant cut off by the end of the image is missing (R83). -/
theorem takeF64_cut {e : DecodeError} {c : F64} {n : Nat} (h : n < 8) : takeF64 e ((f64Bytes c).take n) = .error e :=
  takeF64_short ((List.length_take_le n _).trans_lt h)

/-- With all the announced fields at hand and a legal register index, a form is read. -/
theorem exists_takeForm {m : Byte} {bs : List Byte} (hm : modeIllegal m = false)
    (hlen : lengthOfMode m ≤ 2 + bs.length)
    (hreg : ∀ b, bs[0]? = some b → hasReg m = true → ∃ r, regOfByte b = some r) :
    ∃ e, takeForm m bs = .ok e := by
  have hl : (if hasReg m then 1 else 0) + (if hasCst m then 8 else 0) ≤ bs.length := by
    simp only [hasReg, hasCst, modeReg, modeCst, bne_iff_ne]
    unfold lengthOfMode at hlen
    omega
  unfold takeForm
  cases hr : hasReg m with
  | true =>
    cases bs with
    | nil => simp [hr] at hl
    | cons b bs =>
      obtain ⟨r, hb⟩ := hreg b rfl hr
      simp only [takeReg_cons bs hb, if_true]
      cases hc : hasCst m with
      | true =>
        rw [takeF64_of_le (by simp [hr, hc] at hl; omega)]
        exact ⟨_, rfl⟩
      | false => exact ⟨_, rfl⟩
  | false =>
    rw [takeF64_of_le (by simpa [hr, hasCst_of_legal hm hr] using hl)]
    exact ⟨_, rfl⟩

/-- Fields cut off by the end of the image are missing (R83). -/
theorem takeForm_cut {a : Operand} {n : Nat} (h : n < a.form.fields.length) :
    ∃ e, takeForm a.mode (a.form.fields.take n) = .error e ∧ decodeFault e = .reachedEndNotHalted := by
  unfold takeForm
  rw [hasReg_mode, hasCst_mode]
  cases hf : a.form with
  | reg r =>
    obtain rfl : n = 0 := by simpa [hf, EaForm.fields] using h
    exact ⟨_, rfl, rfl⟩
  | cst c =>
    have hn : n < 8 := by simpa [hf, EaForm.fields] using h
    refine ⟨.missingConstant, ?_, rfl⟩
    simp only [EaForm.fields, takeF64_cut hn]
    rfl
  | regCst r c =>
    cases n with
    | zero => exact ⟨_, rfl, rfl⟩
    | succ n =>
      have hn : n + 1 < 8 + 1 := by simpa [hf, EaForm.fields] using h
      refine ⟨.missingConstant, ?_, rfl⟩
      simp only [EaForm.fields, List.take_succ_cons, takeReg_cons _ (regOfByte_regByte r),
        takeF64_cut (Nat.lt_of_succ_lt_succ hn)]
      rfl

/-! ### The addressed operand (R86, R101 to R103) -/

theorem decodeOperand_illegal {p : Bool} {m : Byte} (bs : List Byte) (hm : modeIllegal m = true) :
    decodeOperand p (m :: bs) = .error (.illegalMode m) :=
  if_pos hm

/-- Past the checks of the mode byte only its fields matter. -/
theorem decodeOperand_legal {p : Bool} {m : Byte} (bs : List Byte) (hm : modeIllegal m = false)
    (hp : p = true → popModeIllegal m = false) :
    decodeOperand p (m :: bs) = (takeForm m bs).map (if hasRam m then .memory else .direct) := by
  unfold decodeOperand
  cases p <;> simp [hm, hp]

/-- The mode byte of an operand passes the checks, for `pop` if the operand is a destination (R102). -/
theorem decodeOperand_mode {p : Bool} {a : Operand} {bs : List Byte} (hp : p = true → a.isDestination = true) :
    decodeOperand p (a.mode :: bs) =
      (takeForm a.mode bs).map (if hasRam a.mode then Operand.memory else .direct) :=
  decodeOperand_legal bs (modeIllegal_mode a) fun h => by rw [popModeIllegal_mode, hp h, Bool.not_true]

/-- The bytes that an addressed operand is read from: those that begin with its encoding. -/
theorem decodeOperand_eq_ok_iff {p : Bool} {bs : List Byte} {a : Operand} :
    decodeOperand p bs = .ok a ↔ (p = true → a.isDestination = true) ∧ a.bytes <+: bs := by
  constructor
  · intro h
    cases bs with
    | nil => cases h
    | cons m bs =>
      have hm : modeIllegal m = false := by
        cases hm : modeIllegal m with
        | false => rfl
        | true =>
          rw [decodeOperand_illegal bs hm] at h
          cases h
      have hp : p = true → popModeIllegal m = false := by
        rintro rfl
        cases hp : popModeIllegal m with
        | false => rfl
        | true => simp [decodeOperand, hm, hp] at h
      rw [decodeOperand_legal bs hm hp] at h
      obtain ⟨e, he, rfl⟩ := except_map_eq_ok.1 h
      obtain ⟨hf, hbits⟩ := takeForm_eq_ok hm he
      have hmode := mode_of_formBits hm hbits
      refine ⟨fun h => ?_, List.cons_prefix_cons.2 ⟨hmode, ?_⟩⟩
      · have := hp h
        rw [← hmode, popModeIllegal_mode] at this
        simpa using this
      · have hform : ((if hasRam m then Operand.memory else .direct) e).form = e := by split <;> rfl
        rwa [hform]
  · rintro ⟨hp, rest, rfl⟩
    rw [Operand.bytes, List.cons_append, decodeOperand_mode hp, takeForm_fields]
    exact congrArg Except.ok (operand_of_hasRam_mode a)

/-- With a mode byte that passes the checks, the announced fields at hand and a legal register index, an operand with
that mode byte is read. -/
theorem exists_decodeOperand {p : Bool} {m : Byte} {bs : List Byte} (hm : modeIllegal m = false)
    (hp : p = true → popModeIllegal m = false) (hlen : lengthOfMode m ≤ 2 + bs.length)
    (hreg : ∀ b, bs[0]? = some b → hasReg m = true → ∃ r, regOfByte b = some r) :
    ∃ a : Operand, a.mode = m ∧ decodeOperand p (m :: bs) = .ok a := by
  obtain ⟨e, he⟩ := exists_takeForm hm hlen hreg
  have hd : decodeOperand p (m :: bs) = .ok ((if hasRam m then Operand.memory else .direct) e) := by
    rw [decodeOperand_legal bs hm hp, he]
    rfl
  exact ⟨_, mode_of_formBits hm (takeForm_eq_ok hm he).2, hd⟩

/-- An addressed operand cut off by the end of the image is missing (R83). -/
theorem decodeOperand_cut {p : Bool} {a : Operand} {n : Nat} (hp : p = true → a.isDestination = true)
    (h : n < a.bytes.length) :
    ∃ e, decodeOperand p (a.bytes.take n) = .error e ∧ decodeFault e = .reachedEndNotHalted := by
  cases n with
  | zero => exact ⟨_, rfl, rfl⟩
  | succ n =>
    obtain ⟨e, he, hk⟩ := takeForm_cut (a := a) (Nat.lt_of_succ_lt_succ h)
    refine ⟨e, ?_, hk⟩
    rw [Operand.bytes, List.take_succ_cons, decodeOperand_mode hp, he]
    rfl

/-! ### The target operand (R87, R104) -/

theorem decodeTarget_illegal {m : Byte} (bs : List Byte) (hm : m ≠ 0x04#8) :
    decodeTarget (m :: bs) = .error (.illegalTargetMode m) :=
  if_pos (by simpa [modeCst, cfModeCheck] using hm)

@[simp] theorem decodeTarget_modeCst (bs : List Byte) : decodeTarget (modeCst :: bs) = takeF64 .missingTarget bs :=
  rfl

/-- The bytes that a target is read from: those that begin with its encoding. -/
theorem decodeTarget_eq_ok_iff {bs : List Byte} {t : F64} : decodeTarget bs = .ok t ↔ targetBytes t <+: bs := by
  constructor
  · intro h
    cases bs with
    | nil => cases h
    | cons m bs =>
      by_cases hm : m = modeCst
      · subst hm
        rw [decodeTarget_modeCst] at h
        obtain ⟨rest, rfl⟩ := takeF64_eq_ok h
        exact ⟨rest, rfl⟩
      · rw [decodeTarget_illegal bs hm] at h
        cases h
  · rintro ⟨rest, rfl⟩
    rw [targetBytes, List.cons_append, decodeTarget_modeCst, takeF64_append]

/-- A target cut off by the end of the image is missing (R83). -/
theorem decodeTarget_cut {t : F64} {n : Nat} (h : n < (targetBytes t).length) :
    ∃ e, decodeTarget ((targetBytes t).take n) = .error e ∧ decodeFault e = .reachedEndNotHalted := by
  cases n with
  | zero => exact ⟨_, rfl, rfl⟩
  | succ n =>
    have hn : n + 1 < 8 + 1 := by rwa [Laws.EncodedShape.length_target] at h
    refine ⟨.missingTarget, ?_, rfl⟩
    rw [targetBytes, List.take_succ_cons, decodeTarget_modeCst, takeF64_cut (Nat.lt_of_succ_lt_succ hn)]

/-! ### The opcode (R81, R96, R100) -/

/-- How the decoder reads what follows the opcode byte of `i`: the three formats of R81. -/
inductive ReadAs (i : Instr) : Prop where
  | bare (wf : i.wf = true) (bytes : i.operandBytes = [])
      (read : ∀ bs, decode (BitVec.ofNat 8 i.opcode :: bs) = .ok i)
  | addressed (isPop : Bool) (f : Operand → Instr) (a : Operand) (eq : i = f a) (inj : f.Injective)
      (wf : i.wf = true ↔ (isPop = true → a.isDestination = true)) (bytes : i.operandBytes = a.bytes)
      (read : ∀ bs, decode (BitVec.ofNat 8 i.opcode :: bs) = (decodeOperand isPop bs).map f)
  | target (f : F64 → Instr) (t : F64) (eq : i = f t) (inj : f.Injective) (wf : i.wf = true)
      (bytes : i.operandBytes = targetBytes t)
      (read : ∀ bs, decode (BitVec.ofNat 8 i.opcode :: bs) = (decodeTarget bs).map f)

theorem readAs (i : Instr) : ReadAs i := by
  cases i with
  | push a => exact .addressed false .push a rfl (fun _ _ => Instr.push.inj) (by simp [Instr.wf]) rfl (fun _ => rfl)
  | pop a => exact .addressed true .pop a rfl (fun _ _ => Instr.pop.inj) (by simp [Instr.wf]) rfl (fun _ => rfl)
  | call t | jmp t | jae t | ja t | jb t | jbe t | je t | jne t =>
    exact .target _ t rfl (fun _ _ h => by cases h; rfl) rfl rfl (fun _ => rfl)
  | _ => exact .bare rfl rfl (fun _ => rfl)

/-- An opcode byte of 26 or more is no instruction's (R100). -/
theorem decode_unknown {op : Byte} (bs : List Byte) (h : 26 ≤ op.toNat) :
    decode (op :: bs) = .error (.unknownOpcode op) := by
  simp only [decode]
  split
  case h_27 => rfl
  all_goals omega

/-- The first byte is the opcode of what the bytes decode to (R96). -/
theorem toNat_eq_opcode {op : Byte} {bs : List Byte} {i : Instr} (h : decode (op :: bs) = .ok i) :
    op.toNat = i.opcode := by
  simp only [decode] at h
  split at h <;> simp only [except_map_eq_ok, reduceCtorEq, Except.ok.injEq] at h
  all_goals
    rename_i hop
    rw [hop]
  -- The ten opcodes with an operand: the answer is a constructor applied to what was read.
  case h_11 | h_12 | h_13 | h_15 | h_16 | h_17 | h_18 | h_19 | h_20 | h_21 =>
    obtain ⟨_, _, rfl⟩ := h
    rfl
  all_goals
    subst h
    rfl

/-- Under an injective map the answer is the image of `a` just when it was `a`. -/
theorem except_map_eq_ok_apply {ε α β : Type} {f : α → β} (hf : f.Injective) {x : Except ε α} {a : α} :
    x.map f = .ok (f a) ↔ x = .ok a := by
  rw [except_map_eq_ok]
  constructor
  · rintro ⟨b, hb, hab⟩
    rwa [← hf hab]
  · exact fun h => ⟨a, h, rfl⟩

/-- After the opcode byte of `i`, the bytes that `i` is read from are those that begin with its operand's. -/
theorem decode_opcode_eq_ok_iff {i : Instr} {bs : List Byte} :
    decode (BitVec.ofNat 8 i.opcode :: bs) = .ok i ↔ i.wf = true ∧ i.operandBytes <+: bs := by
  cases readAs i with
  | bare wf bytes read => simp [wf, bytes, read]
  | addressed p f a eq inj wf bytes read =>
    rw [read, bytes, wf, ← decodeOperand_eq_ok_iff, ← except_map_eq_ok_apply inj, eq]
  | target f t eq inj wf bytes read =>
    rw [read, bytes, ← decodeTarget_eq_ok_iff, ← except_map_eq_ok_apply inj, eq]
    simp [← eq, wf]

/-- Bytes decode to `i` just when `i` is well formed and they begin with its encoding (R98). -/
theorem decode_eq_ok_iff {bytes : List Byte} {i : Instr} :
    decode bytes = .ok i ↔ i.wf = true ∧ encode i <+: bytes := by
  constructor
  · intro h
    cases bytes with
    | nil => cases h
    | cons op bs =>
      obtain rfl : BitVec.ofNat 8 i.opcode = op := by
        rw [← toNat_eq_opcode h, BitVec.ofNat_toNat, BitVec.setWidth_eq]
      obtain ⟨hw, hb⟩ := decode_opcode_eq_ok_iff.1 h
      exact ⟨hw, List.cons_prefix_cons.2 ⟨rfl, hb⟩⟩
  · rintro ⟨hw, rest, rfl⟩
    exact decode_opcode_eq_ok_iff.2 ⟨hw, rest, rfl⟩

/-- The encoding has the length of R94. -/
theorem length_encode (i : Instr) : (encode i).length = i.length := by
  cases i with
  | push a | pop a => exact (Laws.EncodedShape.length_operand a).1
  | call t | jmp t | jae t | ja t | jb t | jbe t | je t | jne t =>
    exact congrArg (· + 1) (Laws.EncodedShape.length_target t)
  | _ => rfl

/-! ### Decoding and encoding (R84 to R98) -/

/-- Settles O1: what follows the encoding plays no part. -/
theorem decodeInvertsEncode : Obligations.DecodeInvertsEncode :=
  fun _ rest hw => decode_eq_ok_iff.2 ⟨hw, rest, rfl⟩

/-- Settles O2: bytes that decode begin with the encoding, whose length is that of R94. -/
theorem decodedBytesAreTheEncoding : Obligations.DecodedBytesAreTheEncoding := by
  intro bytes i h
  obtain ⟨hw, hb⟩ := decode_eq_ok_iff.1 h
  exact ⟨hw, hb, length_encode i⟩

/-- Settles O3, row by row. -/
theorem workedDecodes : Obligations.WorkedDecodes :=
  ⟨by decide, by decide, by decide, by decide, by decide, by decide, by decide, by decide, by decide, by decide,
    by decide, ⟨_, rfl, rfl⟩, ⟨_, rfl, rfl⟩, fun _ => ⟨_, rfl, rfl⟩, fun _ => ⟨_, rfl, rfl⟩, ⟨_, rfl, rfl⟩,
    ⟨_, rfl, rfl⟩, fun _ => ⟨_, rfl, rfl⟩, ⟨_, rfl, rfl⟩⟩

/-! ### The step (R95, R100) -/

/-- Settles O4, by the one arm of `step` for a running machine whose bytes decode. -/
theorem stepRunsTheDecodedInstruction : Obligations.StepRunsTheDecodedInstruction := by
  intro s i hs hd
  rw [step, hs, fetchBytes, hd]

/-- The bytes of the image from `n` on, when the first of them is known. -/
theorem drop_eq_cons {l : List Byte} {n : Nat} {b : Byte} (h : l[n]? = some b) : l.drop n = b :: l.drop (n + 1) := by
  obtain ⟨hn, rfl⟩ := List.getElem?_eq_some_iff.1 h
  exact List.drop_eq_getElem_cons hn

/-- Settles O6: the opcode byte alone is looked at. -/
theorem unknownOpcodeFaults : Obligations.UnknownOpcodeFaults := by
  intro s op hs hop h
  have hd : decode (s.prog.drop s.pc) = .error (.unknownOpcode op) := by rw [drop_eq_cons hop, decode_unknown _ h]
  exact step_of_error hs hd

/-- An instruction cut off by the end of the image is missing a field (R83, R95). -/
theorem decode_cut {i : Instr} {n : Nat} (hw : i.wf = true) (h : n < (encode i).length) :
    ∃ e, decode ((encode i).take n) = .error e ∧ decodeFault e = .reachedEndNotHalted := by
  cases n with
  | zero => exact ⟨_, rfl, rfl⟩
  | succ n =>
    have hn : n < i.operandBytes.length := Nat.lt_of_succ_lt_succ h
    rw [encode, List.take_succ_cons]
    cases readAs i with
    | bare _ bytes _ => simp [bytes] at hn
    | addressed p f a _ _ wf bytes read =>
      rw [bytes] at hn ⊢
      obtain ⟨e, he, hk⟩ := decodeOperand_cut (wf.1 hw) hn
      exact ⟨e, by rw [read, he]; rfl, hk⟩
    | target f t _ _ _ bytes read =>
      rw [bytes] at hn ⊢
      obtain ⟨e, he, hk⟩ := decodeTarget_cut hn
      exact ⟨e, by rw [read, he]; rfl, hk⟩

/-- Settles O11: the field that is cut off is missing, and all that the decoder says before it is in order. -/
theorem cutOffInstructionFaults : Obligations.CutOffInstructionFaults := by
  intro s i n hs hw hn hd
  obtain ⟨e, he, hk⟩ := decode_cut hw (by rwa [length_encode])
  rw [← hk]
  exact step_of_error hs (by rw [hd, he])

/-! ### Mode bytes and register indices (R101 to R104) -/

/-- The illegal mode bytes by their bits (R101). -/
theorem modeIllegal_iff {m : Byte} : modeIllegal m = true ↔ m &&& 0xF8#8 ≠ 0#8 ∨ m &&& 0x06#8 = 0#8 := by
  revert m
  decide

/-- `push` and `pop` read an addressed operand and nothing else (R81). -/
theorem decode_of_addressed {op : Byte} (h : op = 0x0A#8 ∨ op = 0x0B#8) :
    ∃ (p : Bool) (f : Operand → Instr), ∀ bs, decode (op :: bs) = (decodeOperand p bs).map f := by
  obtain rfl | rfl := h
  · exact ⟨false, .push, fun _ => rfl⟩
  · exact ⟨true, .pop, fun _ => rfl⟩

/-- The eight FT opcodes read a target and nothing else (R81). -/
theorem decode_of_target {op : Byte}
    (h : op ∈ [0x0C#8, 0x0E#8, 0x0F#8, 0x10#8, 0x11#8, 0x12#8, 0x13#8, 0x14#8]) :
    ∃ f : F64 → Instr, ∀ bs, decode (op :: bs) = (decodeTarget bs).map f := by
  simp only [List.mem_cons, List.not_mem_nil, or_false] at h
  obtain rfl | rfl | rfl | rfl | rfl | rfl | rfl | rfl := h <;> exact ⟨_, fun _ => rfl⟩

/-- The image from `pc` on, when its first two bytes are known. -/
theorem drop_eq_cons_cons {l : List Byte} {n : Nat} {b c : Byte} (hb : l[n]? = some b) (hc : l[n + 1]? = some c) :
    l.drop n = b :: c :: l.drop (n + 2) := by
  rw [drop_eq_cons hb, drop_eq_cons hc]

/-- An opcode whose operand is `m` and the bytes after it, with `m` accepted and the fields inside the image. -/
theorem exists_decodeOperand_of_image {p : Bool} {prog : List Byte} {n : Nat} {m : Byte}
    (hm : modeIllegal m = false) (hp : p = true → popModeIllegal m = false) (hmode : prog[n + 1]? = some m)
    (hlen : n + lengthOfMode m ≤ prog.length)
    (hreg : ∀ r : Byte, prog[n + 2]? = some r → m &&& 0x02#8 ≠ 0#8 → 1 ≤ r.toNat ∧ r.toNat ≤ 18) :
    ∃ a : Operand, a.mode = m ∧ decodeOperand p (m :: prog.drop (n + 2)) = .ok a := by
  refine exists_decodeOperand hm hp ?_ fun b hb hr => ?_
  · obtain ⟨hn, _⟩ := List.getElem?_eq_some_iff.1 hmode
    rw [List.length_drop]
    omega
  · rw [List.getElem?_drop] at hb
    have hb := hreg b hb (bne_iff_ne.1 hr)
    refine Option.ne_none_iff_exists'.1 fun h => ?_
    have := regOfByte_eq_none.1 h
    omega

/-- Settles O7: an illegal mode byte is refused before anything after it is read, and one that is legal leaves only
the fields to be read. -/
theorem modeByteLegality : Obligations.ModeByteLegality := by
  intro s op m hs hop hm
  have hbytes := drop_eq_cons_cons hop hm
  refine ⟨fun h hill => ?_, ?_⟩
  · obtain ⟨p, f, hread⟩ := decode_of_addressed h
    have hd : decode (s.prog.drop s.pc) = .error (.illegalMode m) := by
      rw [hbytes, hread, decodeOperand_illegal _ (modeIllegal_iff.2 hill)]
      rfl
    exact step_of_error hs hd
  · rintro rfl hhigh hlow hlen hreg
    have hleg : modeIllegal m = false := by
      rw [← Bool.not_eq_true, modeIllegal_iff]
      tauto
    obtain ⟨a, ha, hd⟩ := exists_decodeOperand_of_image (p := false) hleg (by simp) hm hlen hreg
    refine ⟨a, ha, ?_⟩
    rw [hbytes]
    exact congrArg (Except.map Instr.push) hd

/-- The five mode bytes that `pop` accepts (R102, R172). -/
theorem pop_accepts : ∀ m ∈ [0x02#8, 0x03#8, 0x05#8, 0x06#8, 0x07#8],
    modeIllegal m = false ∧ popModeIllegal m = false := by decide

/-- Settles O8: CST alone passes the check of R101 and fails that of R102; the five others pass both. -/
theorem popModeLegality : Obligations.PopModeLegality := by
  intro s m hs hop hm
  have hbytes := drop_eq_cons_cons hop hm
  refine ⟨?_, fun hmem hlen hreg => ?_⟩
  · rintro rfl
    have hd : decode (s.prog.drop s.pc) = .error (.popWithoutTarget 0x04#8) := by
      rw [hbytes]
      rfl
    exact step_of_error hs hd
  · obtain ⟨hleg, hpop⟩ := pop_accepts m hmem
    obtain ⟨a, ha, hd⟩ := exists_decodeOperand_of_image (p := true) hleg (fun _ => hpop) hm hlen hreg
    refine ⟨a, ha, ?_⟩
    rw [hbytes]
    exact congrArg (Except.map Instr.pop) hd

/-- With REG there is a destination, whatever else the mode byte has (R102, R172). -/
theorem popModeIllegal_of_hasReg {m : Byte} (h : hasReg m = true) : popModeIllegal m = false := by
  simp [popModeIllegal, h, popRegCst]

/-- An index byte that names no register is an illegal argument, be the mode byte before it legal or not (R101,
R103). -/
theorem decodeOperand_illegal_register {p : Bool} {m b : Byte} (bs : List Byte) (hm : hasReg m = true)
    (hb : regOfByte b = none) :
    ∃ e, decodeOperand p (m :: b :: bs) = .error e ∧ decodeFault e = .invalidCmdArgument := by
  cases hleg : modeIllegal m with
  | true => exact ⟨_, decodeOperand_illegal _ hleg, rfl⟩
  | false =>
    refine ⟨.illegalRegister b, ?_, rfl⟩
    rw [decodeOperand_legal _ hleg fun _ => popModeIllegal_of_hasReg hm, takeForm, if_pos hm, takeReg_illegal bs hb]
    rfl

/-- Settles O9: the index is checked before the constant is read. -/
theorem registerIndexLegality : Obligations.RegisterIndexLegality := by
  intro s op m r hs hop hm hr h hreg hill
  obtain ⟨p, f, hread⟩ := decode_of_addressed h
  obtain ⟨e, he, hk⟩ := decodeOperand_illegal_register (p := p) (s.prog.drop (s.pc + 3)) (bne_iff_ne.2 hreg)
    (regOfByte_eq_none.2 hill)
  have hd : decode (s.prog.drop s.pc) = .error e := by
    rw [drop_eq_cons_cons hop hm, drop_eq_cons hr, hread, he]
    rfl
  rw [← hk]
  exact step_of_error hs hd

/-- Settles O10: the mode byte is checked before the target is read. -/
theorem targetModeLegality : Obligations.TargetModeLegality := by
  intro s op m hs hop hm h hill
  obtain ⟨f, hread⟩ := decode_of_target h
  have hd : decode (s.prog.drop s.pc) = .error (.illegalTargetMode m) := by
    rw [drop_eq_cons_cons hop hm, hread, decodeTarget_illegal _ hill]
    rfl
  exact step_of_error hs hd

namespace Machine

/-! ### Every instruction has a next state (R95, R121, R272) -/

section Total

variable (s : State)

theorem binary_total (domain : F64 → F64 → Bool) (op : F64 → F64 → Option F64) :
    ∃ t, binary domain op s = .next t := by
  rcases binary_cases domain op s with ⟨_, e⟩ | ⟨_, _, _, _, ⟨_, e⟩ | ⟨_, e⟩⟩ <;> exact ⟨_, e⟩

theorem unary_total (domain : F64 → Bool) (op : F64 → Option F64) : ∃ t, unary domain op s = .next t := by
  rcases unary_cases domain op s with ⟨_, e⟩ | ⟨_, _, _, ⟨_, e⟩ | ⟨_, e⟩⟩ <;> exact ⟨_, e⟩

theorem compareJump_total (rel : F64 → F64 → Bool) (x : F64) : ∃ t, compareJump rel x s = .next t := by
  rcases compareJump_cases rel x s with ⟨_, e⟩ | ⟨_, _, _, _, ⟨_, _, _, e⟩ | ⟨_, _, e⟩ | ⟨_, e⟩⟩ <;> exact ⟨_, e⟩

theorem popToReg_total (r : Reg) (len : Nat) : ∃ t, popToReg r len s = .next t := by
  rcases popToReg_cases r len s with ⟨_, e⟩ | ⟨_, _, _, e⟩ <;> exact ⟨_, e⟩

theorem popToMemory_total (e : EaForm) (len : Nat) : ∃ t, popToMemory e len s = .next t := by
  rcases popToMemory_cases e len s with ⟨_, h⟩ | ⟨_, _, _, ⟨_, h⟩ | ⟨_, _, ⟨_, h⟩ | ⟨_, _, h⟩⟩⟩ <;> exact ⟨_, h⟩

theorem execPop_total (a : Operand) : ∃ t, execPop a s = .next t := by
  match a with
  | .direct (.reg r) | .direct (.regCst r _) => exact popToReg_total s r _
  | .direct (.cst _) => exact ⟨_, rfl⟩
  | .memory e => exact popToMemory_total s e _

theorem execPush_total (a : Operand) : ∃ t, execPush a s = .next t := by
  unfold execPush
  split
  next => exact ⟨_, rfl⟩
  next => split <;> exact ⟨_, rfl⟩

theorem execOut_total : ∃ t, execOut s = .next t := by
  unfold execOut
  split
  next => exact ⟨_, rfl⟩
  next => split <;> exact ⟨_, rfl⟩

theorem execCall_total (x : F64) : ∃ t, execCall x s = .next t := by
  unfold execCall
  split <;> exact ⟨_, rfl⟩

theorem execJmp_total (x : F64) : ∃ t, execJmp x s = .next t := by
  unfold execJmp
  split <;> exact ⟨_, rfl⟩

theorem execRet_total : ∃ t, execRet s = .next t := by
  unfold execRet
  split
  next => split <;> exact ⟨_, rfl⟩
  next => exact ⟨_, rfl⟩

/-- Only a request that the host never answers leaves `in` without a next state (R272). -/
theorem execIn_total_or_silent : (∃ t, execIn s = .next t) ∨ ∃ rest, s.input = .silent :: rest := by
  unfold execIn
  split
  next => exact .inl ⟨_, rfl⟩
  next => exact .inl ⟨_, rfl⟩
  next rest hin => exact .inr ⟨rest, hin⟩
  next => exact .inl ⟨_, rfl⟩

end Total

/-- Settles O55, shape by shape: a fault too is a next state (R225). -/
theorem everyInstructionHasANextState : Obligations.EveryInstructionHasANextState := by
  intro i s
  cases i with
  | inp => exact (execIn_total_or_silent s).imp_right fun h => ⟨rfl, h⟩
  | out => exact .inl (execOut_total s)
  | add | sub | mul | div | pow => exact .inl (binary_total s _ _)
  | sqrt | sin | cos | abs | flr => exact .inl (unary_total s _ _)
  | push a => exact .inl (execPush_total s a)
  | pop a => exact .inl (execPop_total s a)
  | call x => exact .inl (execCall_total s x)
  | ret => exact .inl (execRet_total s)
  | jmp x => exact .inl (execJmp_total s x)
  | jae x | ja x | jb x | jbe x | je x | jne x => exact .inl (compareJump_total s _ x)
  | upd | clr | hlt => exact .inl ⟨_, rfl⟩

end Machine

end Sys2Proof
end

section
/-!
PROOFS. Input and output (`spec/40_io.md`): what `in` does with each answer of the host, and what `out` does with a
value to send and either answer of the host.
-/

namespace Sys2Proof

namespace Machine

/-! ### `in` (R120, R121) -/

section In

variable {s : State} {rest : List InAnswer}

theorem execIn_of_value {v : F64} (h : s.input = .value v :: rest) :
    execIn s = .next { s with input := rest, vs := v :: s.vs, pc := s.pc + 1 } := by
  rw [execIn, h]
  rfl

theorem execIn_of_fail (h : s.input = .fail :: rest) : execIn s = raise .ioError (s.setInput rest) := by
  rw [execIn, h]

theorem execIn_of_exhausted (h : s.input = []) : execIn s = raise .ioError s := by
  rw [execIn, h]

end In

/-- Settles O13, answer by answer. -/
theorem inResult : Obligations.InResult :=
  fun _ => ⟨fun _ _ => execIn_of_value, fun _ => execIn_of_fail, execIn_of_exhausted⟩

/-! ### `out` (R122, R123) -/

section Out

variable {s : State}

/-- The listed answers come first (log entry 8). -/
theorem nextOutAnswer_of_listed {a : OutAnswer} {more : List OutAnswer} (h : s.outAnswers = a :: more) :
    nextOutAnswer s = a := by
  rw [nextOutAnswer, h]

/-- On `Ok` the value moves to OUTPUT, and the answer is taken off the list if it was listed. -/
theorem execOut_of_ok {v : F64} {rest : List F64} (hv : s.vs = v :: rest) (h : nextOutAnswer s = .ok) :
    execOut s = .next { s with
      vs := rest, outAnswers := s.outAnswers.tail, output := s.output ++ [v], pc := s.pc + 1 } := by
  simp only [execOut, hv, h]
  rfl

/-- On `Fail` the value stays, and so does the answer (log entry 8). -/
theorem execOut_of_fail {v : F64} {rest : List F64} (hv : s.vs = v :: rest) (h : nextOutAnswer s = .fail) :
    execOut s = raise .ioError s := by
  simp only [execOut, hv, h]

end Out

/-- Settles O14: the depth first, then the answer, which is the first listed one or, with none listed, either. -/
theorem outResult : Obligations.OutResult := by
  refine fun s => ⟨fun hv => ?_, fun v rest more hv ha => ?_, fun v rest more hv ha => ?_, fun v rest hv ha => ?_⟩
  · exact execOut_of_shallow (by rw [hv]; exact Nat.zero_lt_one)
  · exact (execOut_of_ok hv (nextOutAnswer_of_listed ha)).trans (by rw [ha, List.tail_cons])
  · exact execOut_of_fail hv (nextOutAnswer_of_listed ha)
  · cases hans : nextOutAnswer s with
    | ok => exact .inl ((execOut_of_ok hv hans).trans (by rw [ha, List.tail_nil]))
    | fail => exact .inr (execOut_of_fail hv hans)

end Machine

end Sys2Proof
end

section
/-!
PROOFS. Arithmetic, the shape of the instructions (`spec/41_arithmetic.md` R136, R137): what each answers on a stack
that is deep enough, with the result said by the values of `Ieee.lean` (R131, R132, R143, R145, R148, R149).
-/

namespace Sys2Proof

namespace Machine

open Ieee

/-! ### The two shapes on a deep enough stack (R136, R137) -/

section Shapes

variable {s : State} {a b : F64} {rest : List F64}

theorem binary_of_domain {domain : F64 → F64 → Bool} (op : F64 → F64 → Option F64) (hv : s.vs = b :: a :: rest)
    (hd : domain a b = true) :
    binary domain op s = .next ((pushResult (s.setVs rest) (op a b)).advance 1) := by
  simp only [binary, hv, hd, if_true]

theorem binary_of_not_domain {domain : F64 → F64 → Bool} (op : F64 → F64 → Option F64)
    (hv : s.vs = b :: a :: rest) (hd : domain a b = false) : binary domain op s = raise .mathError s := by
  simp only [binary, hv, hd, Bool.false_eq_true, if_false]

theorem unary_of_domain {domain : F64 → Bool} (op : F64 → Option F64) (hv : s.vs = a :: rest)
    (hd : domain a = true) :
    unary domain op s = .next ((pushResult (s.setVs rest) (op a)).advance 1) := by
  simp only [unary, hv, hd, if_true]

theorem unary_of_not_domain {domain : F64 → Bool} (op : F64 → Option F64) (hv : s.vs = a :: rest)
    (hd : domain a = false) : unary domain op s = raise .mathError s := by
  simp only [unary, hv, hd, Bool.false_eq_true, if_false]

theorem unary_of_empty {domain : F64 → Bool} {op : F64 → Option F64} (hv : s.vs = []) :
    unary domain op s = raise .notEnoughValuesForOperation s :=
  unary_of_shallow (by rw [hv]; exact Nat.zero_lt_one)

/-- `s` completes to `r` with some `v` that meets `P` above `rest`, one byte on; the count of drawn NaNs moves only
if `v` is a NaN (R134, log entry 2). -/
def CompletesWith (P : F64 → Prop) (rest : List F64) (s : State) (r : Result) : Prop :=
  ∃ v d, r = .next { s with vs := v :: rest, pc := s.pc + 1, nanDraws := d } ∧ P v ∧
    (¬ IsNaN v → d = s.nanDraws)

/-- A result in place of the operands, where every answer, and every NaN for want of one, meets `P`. -/
theorem completesWith_pushResult {P : F64 → Prop} {r : Option F64} (hs : ∀ v, r = some v → P v)
    (hn : r = none → ∀ v, IsNaN v → P v) :
    CompletesWith P rest s (.next ((pushResult (s.setVs rest) r).advance 1)) := by
  obtain ⟨v, d, e, hP, hd⟩ := pushResult_spec (s.setVs rest) r hs hn
  exact ⟨v, d, by rw [e]; rfl, hP, hd⟩

theorem completesWith_binary {P : F64 → Prop} {domain : F64 → F64 → Bool} {op : F64 → F64 → Option F64}
    (hv : s.vs = b :: a :: rest) (hd : domain a b = true) (hs : ∀ v, op a b = some v → P v)
    (hn : op a b = none → ∀ v, IsNaN v → P v) : CompletesWith P rest s (binary domain op s) := by
  rw [binary_of_domain op hv hd]
  exact completesWith_pushResult hs hn

theorem completesWith_unary {P : F64 → Prop} {domain : F64 → Bool} {op : F64 → Option F64}
    (hv : s.vs = a :: rest) (hd : domain a = true) (hs : ∀ v, op a = some v → P v)
    (hn : op a = none → ∀ v, IsNaN v → P v) : CompletesWith P rest s (unary domain op s) := by
  rw [unary_of_domain op hv hd]
  exact completesWith_pushResult hs hn

end Shapes

/-! ### Sum, difference, product (R140 to R142) -/

/-- Settles O15: `fAdd` answers the sum, or nothing where every NaN is the sum. -/
theorem addResult : Obligations.AddResult :=
  ⟨fun _ _ _ _ hv => completesWith_binary hv rfl (fun _ h => (fAdd_some h).2) fun h _ => fAdd_none h,
    fun _ => binary_of_shallow⟩

/-- Settles O16: `fSub` answers the difference, or nothing where every NaN is the difference. -/
theorem subResult : Obligations.SubResult :=
  ⟨fun _ _ _ _ hv => completesWith_binary hv rfl (fun _ h => (fSub_some h).2) fun h _ => fSub_none h,
    fun _ => binary_of_shallow⟩

/-- Settles O17: `fMul` answers the product, or nothing where every NaN is the product. -/
theorem mulResult : Obligations.MulResult :=
  ⟨fun _ _ _ _ hv => completesWith_binary hv rfl (fun _ h => (fMul_some h).2) fun h _ => fMul_none h,
    fun _ => binary_of_shallow⟩

/-! ### Quotient and root, with their domain checks (R143, R145) -/

theorem isFinite_zero (n : Bool) : IsFinite (zero n) := by
  rw [← zeroOf_eq]
  exact isFinite_pack.2 (by decide)

theorem value_zero (n : Bool) : value (zero n) = 0 := by
  cases n <;> simp [value, exponent, fraction, zero]

/-- A value is zero only at the two zeros. -/
theorem value_eq_zero_iff_eq_zero {x : F64} : value x = 0 ↔ x = zero (negative x) :=
  value_eq_zero_iff.trans magUnits_eq_zero_iff

theorem place_zero (n : Bool) : place (zero n) = ((0 : ℚ) : WithTop ℚ) := by
  rw [place_of_isFinite (isFinite_zero n), value_zero]

/-- An infinity lies beyond every number. -/
theorem place_ne_of_isInfinite {x : F64} (h : IsInfinite x) (q : ℚ) : place x ≠ (q : WithTop ℚ) := by
  rw [place_of_isInfinite h]
  cases negative x <;> simp

/-- What equals `+0.0` is a finite value, and it is zero. -/
theorem equal_zero_iff {x : F64} : Equal x (zero false) ↔ IsFinite x ∧ value x = 0 := by
  unfold Equal Ordered
  rw [place_zero]
  rcases class_cases x with ⟨_, hx⟩ | ⟨_, hx⟩ | ⟨_, hx⟩
  · simp [hx]
  · simp only [hx, place_ne_of_isInfinite hx.2.1, and_false, false_and]
  · simp [hx, place_of_isFinite hx.2.2, not_isNaN_zero]

/-- The domain check of `div` sees the zero of either sign (R143). -/
theorem isZero_iff {x : F64} : isZero x = true ↔ x = zero false ∨ x = zero true := by
  rw [isZero, show 0#64 = zero false from rfl, fEq_iff, equal_zero_iff, value_eq_zero_iff_eq_zero]
  constructor
  · rintro ⟨_, hx⟩
    cases hn : negative x <;> rw [hn] at hx
    · exact .inl hx
    · exact .inr hx
  · rintro (rfl | rfl)
    · exact ⟨isFinite_zero _, by decide⟩
    · exact ⟨isFinite_zero _, by decide⟩

/-- Every negative value but `-0.0` is less than zero. -/
theorem less_zero_of_negative {a : F64} (hn : negative a = true) (ha : ¬ IsNaN a) (h0 : a ≠ zero true) :
    Less a (zero false) := by
  refine ⟨⟨ha, not_isNaN_zero _⟩, ?_⟩
  rw [place_zero]
  rcases class_cases a with ⟨_, h, _⟩ | ⟨_, _, h, _⟩ | ⟨_, _, _, h⟩
  · exact absurd h ha
  · rw [place_of_isInfinite h, if_pos hn]
    exact WithBot.bot_lt_coe _
  · have hv : value a ≠ 0 := fun h => h0 (by rw [value_eq_zero_iff_eq_zero.1 h, hn])
    have habs : 0 < |value a| := abs_pos.2 hv
    rw [place_of_isFinite h, WithBot.coe_lt_coe, WithTop.coe_lt_coe, value_of_negative hn]
    linarith

/-- Where `sqrt` does not fault and answers nothing, every NaN is the root (R134, R145). -/
theorem fSqrt_none_of_not_less {a v : F64} (hl : ¬ Less a (zero false)) (h : fSqrt a = none) (hv : IsNaN v) :
    IsSquareRoot a v := by
  have hz : negative a = true → ¬ IsNaN a → a = zero true := fun hn ha =>
    of_not_not fun h0 => hl (less_zero_of_negative hn ha h0)
  refine fSqrt_none h hv (fun hn hi => ?_) fun hn hf => ?_
  · rw [hz hn (not_isNaN_of_isInfinite hi)] at hi
    exact not_isInfinite_of_isFinite (isFinite_zero _) hi
  · rw [magUnits_eq_zero_iff, hn]
    exact hz hn (not_isNaN_of_isFinite hf)

/-- Settles O18: `div` refuses exactly the two zeros, and `fDiv` answers the quotient, or nothing where every NaN
is the quotient. -/
theorem divResult : Obligations.DivResult := by
  refine ⟨fun s a b rest hv => ⟨fun hp hm => ?_, fun hz => ?_⟩, fun _ => binary_of_shallow⟩
  · have hd : isZero b = false := by
      rw [← Bool.not_eq_true, isZero_iff, not_or]
      exact ⟨hp, hm⟩
    exact completesWith_binary hv (congrArg not hd) (fun _ h => (fDiv_some h).2) fun h _ => fDiv_none h
  · exact binary_of_not_domain fDiv hv (congrArg not (isZero_iff.2 hz))

/-- The domain check of `sqrt` is `a < 0` (R145). -/
theorem sqrtDomain_iff {a : F64} : (!fLt a 0#64) = true ↔ ¬ Less a (zero false) := by
  rw [show 0#64 = zero false from rfl, ← fLt_iff, Bool.not_eq_true', Bool.not_eq_true]

/-- Settles O19: `sqrt` refuses exactly what is less than zero, and `fSqrt` answers the root, or nothing where every
NaN is the root. -/
theorem sqrtResult : Obligations.SqrtResult := by
  refine ⟨fun s a rest hv => ⟨fun hl => ?_, fun hl => ?_⟩, fun _ => unary_of_empty⟩
  · exact completesWith_unary hv (sqrtDomain_iff.2 hl) (fun _ h => (fSqrt_some h).2)
      fun h _ => fSqrt_none_of_not_less hl h
  · exact unary_of_not_domain fSqrt hv (congrArg not (fLt_iff.2 hl))

/-! ### Absolute value and floor (R148, R149) -/

/-- Settles O20: `fAbs` answers the operand without its sign bit, or nothing for a NaN. -/
theorem absResult : Obligations.AbsResult :=
  ⟨fun _ _ _ hv => completesWith_unary hv rfl (fun _ h => (fAbs_some h).2) fun h _ => fAbs_none h,
    fun _ => unary_of_empty⟩

/-- Settles O21: `fFloor` answers the floor, or nothing for a NaN. -/
theorem flrResult : Obligations.FlrResult :=
  ⟨fun _ _ _ hv => completesWith_unary hv rfl (fun _ h => (fFloor_some h).2) fun h _ => fFloor_none h,
    fun _ => unary_of_empty⟩

/-! ### The functions of the C library (R144, R146, R147) -/

/-- Settles O22: `pow` has no domain check, and `fPow` always answers. -/
theorem powResult : Obligations.PowResult :=
  ⟨fun _ _ _ _ hv => binary_of_domain _ hv rfl, fun _ => binary_of_shallow⟩

/-- Settles O23: neither has a domain check, and `fSin` and `fCos` always answer. -/
theorem trigonometricResults : Obligations.TrigonometricResults :=
  ⟨fun _ _ _ hv => ⟨unary_of_domain _ hv rfl, unary_of_domain _ hv rfl⟩,
    fun _ hv => ⟨unary_of_empty hv, unary_of_empty hv⟩⟩

end Machine

end Sys2Proof
end

section
/-!
PROOFS. The functions of the C library (`spec/41_arithmetic.md` R150): the sure properties of `FSin`, `FCos` and
`FPow`, each read off from the one arm of the model that gives it. First what 1.0, a whole number and an odd number
are in units, and which values lie within -1.0 and 1.0.
-/

namespace Sys2Proof

namespace Machine

open Ieee

/-! ### The values 1.0 and -1.0 -/

theorem magUnits_oneF64 : magUnits oneF64 = oneUnits := by
  rw [magUnits, show expField oneF64 = 1023 by decide, show fracField oneF64 = 0 by decide, if_neg (by decide),
    Nat.add_zero, ← pow_add, oneUnits]

theorem isFinite_oneF64 : IsFinite oneF64 := by
  unfold IsFinite
  decide

theorem value_oneF64 : value oneF64 = 1 := by
  rw [value_of_not_negative (by decide), abs_value, magUnits_oneF64,
    div_self (Nat.cast_ne_zero.2 oneUnits_pos.ne')]

theorem isFinite_negate {x : F64} (h : IsFinite x) : IsFinite (negate x) := by
  rwa [IsFinite, exponent_negate]

theorem magUnits_negate (x : F64) : magUnits (negate x) = magUnits x := by
  simp only [magUnits, ← exponent_toNat, ← fraction_toNat, exponent_negate, fraction_negate]

/-- Another value than 1 is not 1.0. -/
theorem ne_oneF64_of_value_ne {a : F64} (h : value a ≠ 1) : a ≠ oneF64 := by
  rintro rfl
  exact h value_oneF64

/-- A zero or an infinity is not 1.0. -/
theorem zero_ne_oneF64 (n : Bool) : zero n ≠ oneF64 := by
  cases n <;> decide

theorem infinity_ne_oneF64 (n : Bool) : infinity n ≠ oneF64 := by
  cases n <;> decide

/-! ### The classes of the two zeros and the two infinities -/

theorem classify_zero (n : Bool) : classify (zero n) = .fin n 0 := by
  cases n <;> decide

theorem isInfinite_infinity (n : Bool) : IsInfinite (infinity n) := by
  rw [← infOf_eq]
  exact isInfinite_pack le_rfl

theorem classify_infinity (n : Bool) : classify (infinity n) = .inf n := by
  cases n <;> decide

/-! ### Values within -1.0 and 1.0 (P-range) -/

/-- What lies between two finite values is finite. -/
theorem isFinite_of_between {a b x : F64} (ha : IsFinite a) (hb : IsFinite b) (hax : LessOrEqual a x)
    (hxb : LessOrEqual x b) : IsFinite x ∧ value a ≤ value x ∧ value x ≤ value b := by
  obtain ⟨⟨_, hx⟩, hax⟩ := hax
  obtain ⟨_, hxb⟩ := hxb
  rw [place_of_isFinite ha] at hax
  rw [place_of_isFinite hb] at hxb
  rcases class_cases x with ⟨_, h, _⟩ | ⟨_, _, h, _⟩ | ⟨_, _, _, h⟩
  · exact absurd h hx
  · rw [place_of_isInfinite h] at hax hxb
    cases hn : negative x <;> simp [hn] at hax hxb
  · rw [place_of_isFinite h, WithBot.coe_le_coe, WithTop.coe_le_coe] at hax hxb
    exact ⟨h, hax, hxb⟩

/-- A free value is kept within -1.0 and 1.0. -/
theorem withinOne_spec (x : F64) : IsFinite (withinOne x) ∧ |value (withinOne x)| ≤ 1 := by
  unfold withinOne
  split
  next h =>
    rw [Bool.and_eq_true, fLe_iff, fLe_iff] at h
    obtain ⟨hf, hlow, hhigh⟩ := isFinite_of_between (isFinite_negate isFinite_oneF64) isFinite_oneF64 h.1 h.2
    rw [value_negate, value_oneF64] at hlow
    rw [value_oneF64] at hhigh
    exact ⟨hf, abs_le.2 ⟨hlow, hhigh⟩⟩
  next =>
    have h0 : value 0#64 = 0 := value_zero false
    exact ⟨isFinite_zero false, by rw [h0, abs_zero]; exact zero_le_one⟩

/-! ### `FSin` and `FCos` -/

/-- P-sin0, P-cos0. -/
theorem trig_zero (n : Bool) : fSin (zero n) = zero n ∧ fCos (zero n) = oneF64 := by
  simp only [fSin, fCos, classify_zero, if_true, and_self]

/-- P-trig-inf, P-nan. -/
theorem isNaN_trig {a : F64} (h : ¬ IsFinite a) : IsNaN (fSin a) ∧ IsNaN (fCos a) := by
  rcases class_cases a with ⟨e, _⟩ | ⟨e, _⟩ | ⟨_, _, _, hf⟩
  · rw [fSin, fCos, e]
    exact ⟨isNaN_asNaN _, isNaN_asNaN _⟩
  · rw [fSin, fCos, e]
    exact ⟨isNaN_asNaN _, isNaN_asNaN _⟩
  · exact absurd hf h

/-- P-range, for `FSin`. -/
theorem fSin_range {a : F64} (h : IsFinite a) : IsFinite (fSin a) ∧ |value (fSin a)| ≤ 1 := by
  simp only [fSin, classify_of_isFinite h]
  split
  next h0 => exact ⟨h, by rw [value_eq_zero_iff.2 h0, abs_zero]; exact zero_le_one⟩
  next => exact withinOne_spec _

/-- P-range, for `FCos`. -/
theorem fCos_range {a : F64} (h : IsFinite a) : IsFinite (fCos a) ∧ |value (fCos a)| ≤ 1 := by
  simp only [fCos, classify_of_isFinite h]
  split
  next => exact ⟨isFinite_oneF64, by rw [value_oneF64, abs_one]⟩
  next => exact withinOne_spec _

/-- Settles O24: the zeros, the infinities and NaN have arms of their own, and every other value is kept in range. -/
theorem trigonometricProperties : Obligations.TrigonometricProperties := by
  refine ⟨trig_zero, fun n => isNaN_trig fun h => ?_, fun a ha => isNaN_trig fun h => ?_, fun a ha => ?_⟩
  · exact not_isInfinite_of_isFinite h (isInfinite_infinity n)
  · exact not_isNaN_of_isFinite h ha
  · obtain ⟨hsin, hsin'⟩ := fSin_range ha
    exact ⟨hsin, hsin', fCos_range ha⟩

/-! ### Whole numbers and odd numbers in units -/

/-- A value is a whole number with property `P` of its magnitude when its units divide evenly and the quotient has
`P`. -/
theorem exists_int_value_iff (b : F64) (P : ℕ → Prop) :
    (∃ z : ℤ, value b = z ∧ P z.natAbs) ↔ magUnits b % oneUnits = 0 ∧ P (magUnits b / oneUnits) := by
  have hone : (oneUnits : ℚ) ≠ 0 := Nat.cast_ne_zero.2 oneUnits_pos.ne'
  have hunits : ∀ k : ℕ, |value b| = k ↔ magUnits b = k * oneUnits := fun k => by
    rw [abs_value, div_eq_iff hone]
    exact_mod_cast Iff.rfl
  constructor
  · rintro ⟨z, hz, hP⟩
    have hm := (hunits z.natAbs).1 (by rw [hz, Nat.cast_natAbs, Int.cast_abs])
    rw [hm, Nat.mul_mod_left, Nat.mul_div_cancel _ oneUnits_pos]
    exact ⟨rfl, hP⟩
  · rintro ⟨hmod, hP⟩
    have habs := (hunits _).2 (Nat.div_mul_cancel (Nat.dvd_of_mod_eq_zero hmod)).symm
    rcases eq_or_eq_neg_of_abs_eq habs with h | h
    · exact ⟨(magUnits b / oneUnits : ℕ), by rw [h, Int.cast_natCast], hP⟩
    · exact ⟨-(magUnits b / oneUnits : ℕ), by rw [h, Int.cast_neg, Int.cast_natCast], by
        rwa [Int.natAbs_neg, Int.natAbs_natCast]⟩

theorem isInteger_iff {b : F64} (hb : IsFinite b) : isInteger b = true ↔ ∃ z : ℤ, value b = z := by
  have h := exists_int_value_iff b fun _ => True
  simp only [and_true] at h
  rw [h, isInteger, classify_of_isFinite hb, beq_iff_eq]

/-- The value is an odd integer. -/
def HasOddValue (b : F64) : Prop := ∃ z : ℤ, value b = ((2 * z + 1 : ℤ) : ℚ)

theorem isOddInteger_iff {b : F64} (hb : IsFinite b) : isOddInteger b = true ↔ HasOddValue b := by
  have hodd : HasOddValue b ↔ ∃ z : ℤ, value b = z ∧ z.natAbs % 2 = 1 := by
    constructor
    · rintro ⟨z, hz⟩
      exact ⟨2 * z + 1, hz, by omega⟩
    · rintro ⟨z, hz, hp⟩
      exact ⟨z / 2, by rw [hz, show 2 * (z / 2) + 1 = z by omega]⟩
  rw [hodd, exists_int_value_iff b fun k => k % 2 = 1, isOddInteger, classify_of_isFinite hb, Bool.and_eq_true,
    beq_iff_eq, beq_iff_eq]

theorem abs_value_lt_one_iff {a : F64} : |value a| < 1 ↔ magUnits a < oneUnits := by
  rw [abs_value, div_lt_one (Nat.cast_pos.2 oneUnits_pos), Nat.cast_lt]

theorem one_lt_abs_value_iff {a : F64} : 1 < |value a| ↔ oneUnits < magUnits a := by
  rw [abs_value, one_lt_div (Nat.cast_pos.2 oneUnits_pos), Nat.cast_lt]

theorem negative_of_value_neg {a : F64} (h : value a < 0) : negative a = true := by
  by_contra hn
  rw [Bool.not_eq_true] at hn
  exact absurd h (not_lt.2 (by rw [value_of_not_negative hn]; exact abs_nonneg _))

theorem negative_of_value_pos {a : F64} (h : 0 < value a) : negative a = false := (value_pos_iff.1 h).1

theorem isZero_zero (n : Bool) : isZero (zero n) = true := by
  rw [isZero_iff]
  cases n <;> simp

theorem isZero_of_value_ne {b : F64} (h : value b ≠ 0) : isZero b = false := by
  rw [← Bool.not_eq_true, isZero_iff]
  rintro (rfl | rfl) <;> exact h (value_zero _)

theorem isZero_infinity (n : Bool) : isZero (infinity n) = false := by
  rw [← Bool.not_eq_true, isZero_iff]
  cases n <;> decide

/-! ### The arms of `FPow` -/

/-- P-pow-one, the exponent. -/
theorem fPow_of_isZero {a b : F64} (h : isZero b = true) : fPow a b = oneF64 := by
  rw [fPow, h, Bool.true_or, if_pos rfl]

/-- P-pow-one, the base. -/
theorem fPow_oneF64 (b : F64) : fPow oneF64 b = oneF64 := by
  rw [fPow, beq_self_eq_true, Bool.or_true, if_pos rfl]

section Arms

variable {a b : F64} (ha : a ≠ oneF64) (hb : isZero b = false)

include ha hb

/-- Neither case of P-pow-one applies. -/
theorem powOne_guard : ¬ (isZero b || a == oneF64) = true := by
  rw [hb, Bool.false_or, beq_iff_eq]
  exact ha

/-- P-nan. -/
theorem isNaN_fPow (h : IsNaN a ∨ IsNaN b) : IsNaN (fPow a b) := by
  rw [fPow, if_neg (powOne_guard ha hb)]
  rcases class_cases a with ⟨ea, _⟩ | ⟨ea, hna, _⟩ | ⟨ea, hna, _⟩
  · rw [ea]
    exact isNaN_asNaN _
  · rw [ea, classify_of_isNaN (h.resolve_left hna)]
    exact isNaN_asNaN _
  · rw [ea, classify_of_isNaN (h.resolve_left hna)]
    exact isNaN_asNaN _

/-- P-pow-neg. -/
theorem isNaN_fPow_of_value_neg (hf : IsFinite a) (hneg : value a < 0) (hfb : IsFinite b)
    (hint : isInteger b = false) : IsNaN (fPow a b) := by
  have hm : magUnits a ≠ 0 := fun h => hneg.ne (value_eq_zero_iff.2 h)
  rw [fPow, if_neg (powOne_guard ha hb), classify_of_isFinite hf, classify_of_isFinite hfb]
  simp only [hm, if_false, negative_of_value_neg hneg, hint, Bool.not_false, Bool.and_true, if_true]
  exact isNaN_asNaN _

end Arms

/-- P-pow-inf, the exponent. -/
theorem fPow_infinity {a : F64} (ha : a ≠ oneF64) (hna : ¬ IsNaN a) (n : Bool) :
    fPow a (infinity n) = powToInf a n := by
  rw [fPow, if_neg (powOne_guard ha (isZero_infinity n)), classify_infinity]
  rcases class_cases a with ⟨_, h, _⟩ | ⟨ea, _⟩ | ⟨ea, _⟩
  · exact absurd h hna
  · rw [ea]
  · rw [ea]

section Extreme

variable {b : F64} (hf : IsFinite b) (h0 : value b ≠ 0) (p : Bool)

include hf h0

/-- P-pow-inf, the base. -/
theorem fPow_of_infinity : fPow (infinity p) b = powExtreme p b (negative b) := by
  rw [fPow, if_neg (powOne_guard (infinity_ne_oneF64 p) (isZero_of_value_ne h0)), classify_infinity,
    classify_of_isFinite hf]

/-- P-pow-zero. -/
theorem fPow_of_zero : fPow (zero p) b = powExtreme p b (!negative b) := by
  rw [fPow, if_neg (powOne_guard (zero_ne_oneF64 p) (isZero_of_value_ne h0)), classify_zero, classify_of_isFinite hf]
  simp only [if_true]

end Extreme

/-- For an odd exponent the result has the sign of the base. -/
theorem powExtreme_of_odd {b : F64} (hf : IsFinite b) (h : HasOddValue b) (p vanish : Bool) :
    powExtreme p b vanish = if vanish then zero p else infinity p := by
  simp only [powExtreme, (isOddInteger_iff hf).2 h, Bool.and_true, zeroOf_eq, infOf_eq]

/-- For any other exponent the result is positive. -/
theorem powExtreme_of_not_odd {b : F64} (hf : IsFinite b) (h : ¬ HasOddValue b) (p vanish : Bool) :
    powExtreme p b vanish = if vanish then zero false else infinity false := by
  rw [← isOddInteger_iff hf, Bool.not_eq_true] at h
  simp only [powExtreme, h, Bool.and_false, zeroOf_eq, infOf_eq]

/-- So it is for a positive base. -/
theorem powExtreme_of_positive (b : F64) (vanish : Bool) :
    powExtreme false b vanish = if vanish then zero false else infinity false := by
  simp only [powExtreme, Bool.false_and, zeroOf_eq, infOf_eq]

section ToInfinity

variable {a : F64} (n : Bool)

theorem powToInf_of_lt (hf : IsFinite a) (h : |value a| < 1) :
    powToInf a n = if n then infinity false else zero false := by
  have hlt := abs_value_lt_one_iff.1 h
  simp only [powToInf, classify_of_isFinite hf, hlt.ne, hlt, if_false, decide_true, zeroOf_eq, infOf_eq]
  cases n <;> rfl

theorem powToInf_of_gt (hf : IsFinite a) (h : 1 < |value a|) :
    powToInf a n = if n then zero false else infinity false := by
  have hlt := one_lt_abs_value_iff.1 h
  simp only [powToInf, classify_of_isFinite hf, hlt.ne', hlt.not_gt, if_false, decide_false, zeroOf_eq, infOf_eq]
  cases n <;> rfl

theorem powToInf_of_isInfinite (h : IsInfinite a) :
    powToInf a n = if n then zero false else infinity false := by
  simp only [powToInf, classify_of_isInfinite h, zeroOf_eq, infOf_eq]

end ToInfinity

/-- P-pow-inf at the base -1.0, whose magnitude is neither below nor above one. -/
theorem fPow_minusOne_infinity (n : Bool) : fPow (negate oneF64) (infinity n) = oneF64 := by
  have hf := isFinite_negate isFinite_oneF64
  rw [fPow_infinity (by decide) (not_isNaN_of_isFinite hf)]
  simp only [powToInf, classify_of_isFinite hf, magUnits_negate, magUnits_oneF64, if_true]

/-- P-pow-inf at a base of magnitude below one. -/
theorem fPow_infinity_of_lt {a : F64} (n : Bool) (hf : IsFinite a) (h : |value a| < 1) :
    fPow a (infinity n) = if n then infinity false else zero false := by
  rw [fPow_infinity (ne_oneF64_of_value_ne (abs_lt.1 h).2.ne) (not_isNaN_of_isFinite hf), powToInf_of_lt n hf h]

/-- P-pow-inf at an infinite base, or one of magnitude above one. -/
theorem fPow_infinity_of_gt {a : F64} (n : Bool) (h : IsInfinite a ∨ (IsFinite a ∧ 1 < |value a|)) :
    fPow a (infinity n) = if n then zero false else infinity false := by
  rcases h with hi | ⟨hf, hgt⟩
  · have ha : a ≠ oneF64 := fun h => not_isInfinite_of_isFinite isFinite_oneF64 (h ▸ hi)
    rw [fPow_infinity ha (not_isNaN_of_isInfinite hi), powToInf_of_isInfinite n hi]
  · have ha : value a ≠ 1 := fun h => by simp [h] at hgt
    rw [fPow_infinity (ne_oneF64_of_value_ne ha) (not_isNaN_of_isFinite hf), powToInf_of_gt n hf hgt]

/-- Settles O25: each property is an arm of `FPow`, the arm told by the values of the operands. -/
theorem powerProperties : Obligations.PowerProperties := by
  refine ⟨fun a n => fPow_of_isZero (isZero_zero n), fPow_oneF64, fun a b hnan ha hp hm => ?_,
    fun a b ha hneg hb hint => ?_, fun n b hb hneg => ?_, fun n b hb hpos => ?_, fPow_minusOne_infinity,
    fun a n => fPow_infinity_of_lt n, fun a n => fPow_infinity_of_gt n, fun b hb => ?_⟩
  · have hb : isZero b = false := by
      rw [← Bool.not_eq_true, isZero_iff, not_or]
      exact ⟨hp, hm⟩
    exact isNaN_fPow ha hb hnan
  · have hint' : isInteger b = false := by
      rw [← Bool.not_eq_true, isInteger_iff hb, not_exists]
      exact hint
    have ha1 : value a ≠ 1 := by linarith
    have hb0 : value b ≠ 0 := by exact_mod_cast hint 0
    exact isNaN_fPow_of_value_neg (ne_oneF64_of_value_ne ha1) (isZero_of_value_ne hb0) ha hneg hb hint'
  · rw [fPow_of_zero hb hneg.ne, negative_of_value_neg hneg]
    exact ⟨fun h => powExtreme_of_odd hb h n _, fun h => powExtreme_of_not_odd hb h n _⟩
  · rw [fPow_of_zero hb hpos.ne', negative_of_value_pos hpos]
    exact ⟨fun h => powExtreme_of_odd hb h n _, fun h => powExtreme_of_not_odd hb h n _⟩
  · have hneg : value b < 0 → ∀ p, fPow (infinity p) b = powExtreme p b true := fun h p => by
      rw [fPow_of_infinity hb h.ne, negative_of_value_neg h]
    have hpos : 0 < value b → ∀ p, fPow (infinity p) b = powExtreme p b false := fun h p => by
      rw [fPow_of_infinity hb h.ne', negative_of_value_pos h]
    exact ⟨fun h => (hneg h _).trans (powExtreme_of_positive b _),
      fun h => (hpos h _).trans (powExtreme_of_positive b _),
      fun h ho => (hneg h _).trans (powExtreme_of_odd hb ho _ _),
      fun h ho => (hneg h _).trans (powExtreme_of_not_odd hb ho _ _),
      fun h ho => (hpos h _).trans (powExtreme_of_odd hb ho _ _),
      fun h ho => (hpos h _).trans (powExtreme_of_not_odd hb ho _ _)⟩

end Machine

end Sys2Proof
end

section
/-!
PROOFS. Unspecified NaNs (`spec/41_arithmetic.md` R134): no instruction can tell two NaNs apart. The operations come
first: what asks a pattern for its number answers the same at every NaN, and what only moves a pattern keeps it one.
Then the updates of the state, each keeping `AgreeUpToNaN`, and the shapes of the instructions.
-/

namespace Sys2Proof

namespace Machine

open Ieee

/-! ### Operations at two patterns that agree -/

@[refl] theorem SameUpToNaN.refl (x : F64) : SameUpToNaN x x := .inl rfl

/-- No two patterns that agree are told apart by being a given value that is no NaN. -/
theorem eq_iff_of_not_isNaN {x y c : F64} (h : SameUpToNaN x y) (hc : ¬ IsNaN c) : x = c ↔ y = c := by
  rcases h with rfl | ⟨hx, hy⟩
  · rfl
  · exact iff_of_false (fun e => hc (e ▸ hx)) fun e => hc (e ▸ hy)

/-- What answers `c` at every NaN cannot tell two of them apart. -/
theorem congr_of_nan {α : Type} {f : F64 → α} {c : α} (hf : ∀ x, IsNaN x → f x = c) {x y : F64}
    (h : SameUpToNaN x y) : f x = f y := by
  rcases h with rfl | ⟨hx, hy⟩
  · rfl
  · rw [hf x hx, hf y hy]

/-- What makes a NaN of every NaN keeps two patterns in agreement. -/
theorem map_sameUpToNaN {f : F64 → F64} (hf : ∀ x, IsNaN x → IsNaN (f x)) {x y : F64} (h : SameUpToNaN x y) :
    SameUpToNaN (f x) (f y) :=
  h.imp (congrArg f) fun ⟨hx, hy⟩ => ⟨hf x hx, hf y hy⟩

section Operations

variable {a a' b b' x y : F64}

theorem classify_congr (h : SameUpToNaN x y) : classify x = classify y :=
  congr_of_nan (fun _ => classify_of_isNaN) h

theorem isNaN_negate (h : IsNaN x) : IsNaN (negate x) := by
  rwa [IsNaN, exponent_negate, fraction_negate]

theorem fAdd_congr (ha : SameUpToNaN a a') (hb : SameUpToNaN b b') : fAdd a b = fAdd a' b' := by
  rw [fAdd, fAdd, classify_congr ha, classify_congr hb]

theorem fSub_congr (ha : SameUpToNaN a a') (hb : SameUpToNaN b b') : fSub a b = fSub a' b' :=
  fAdd_congr ha (map_sameUpToNaN (fun _ => isNaN_negate) hb)

theorem fMul_congr (ha : SameUpToNaN a a') (hb : SameUpToNaN b b') : fMul a b = fMul a' b' := by
  rw [fMul, fMul, classify_congr ha, classify_congr hb]

theorem fDiv_congr (ha : SameUpToNaN a a') (hb : SameUpToNaN b b') : fDiv a b = fDiv a' b' := by
  rw [fDiv, fDiv, classify_congr ha, classify_congr hb]

theorem fSqrt_congr (h : SameUpToNaN x y) : fSqrt x = fSqrt y := by
  rw [fSqrt, fSqrt, classify_congr h]

theorem fFloor_congr (h : SameUpToNaN x y) : fFloor x = fFloor y := by
  rw [fFloor, fFloor, classify_congr h]

theorem fAbs_congr (h : SameUpToNaN x y) : fAbs x = fAbs y :=
  congr_of_nan (c := none) (fun x hx => by simp [fAbs, isNaN, classify_of_isNaN hx]) h

theorem fCompare_congr (ha : SameUpToNaN a a') (hb : SameUpToNaN b b') : fCompare a b = fCompare a' b' := by
  rw [fCompare, fCompare, classify_congr ha, classify_congr hb]

theorem toNatural_congr (conv : AddrConv) (h : SameUpToNaN x y) : toNatural conv x = toNatural conv y := by
  rw [toNatural, toNatural, classify_congr h]

theorem toByte_congr (h : SameUpToNaN x y) : toByte x = toByte y := by
  rw [toByte, toByte, classify_congr h]

theorem fEq_congr (ha : SameUpToNaN a a') (hb : SameUpToNaN b b') : fEq a b = fEq a' b' := by
  rw [fEq, fEq, fCompare_congr ha hb]

theorem fLt_congr (ha : SameUpToNaN a a') (hb : SameUpToNaN b b') : fLt a b = fLt a' b' := by
  rw [fLt, fLt, fCompare_congr ha hb]

theorem fGt_congr (ha : SameUpToNaN a a') (hb : SameUpToNaN b b') : fGt a b = fGt a' b' := by
  rw [fGt, fGt, fCompare_congr ha hb]

theorem fLe_congr (ha : SameUpToNaN a a') (hb : SameUpToNaN b b') : fLe a b = fLe a' b' := by
  rw [fLe, fLe, fLt_congr ha hb, fEq_congr ha hb]

theorem fGe_congr (ha : SameUpToNaN a a') (hb : SameUpToNaN b b') : fGe a b = fGe a' b' := by
  rw [fGe, fGe, fGt_congr ha hb, fEq_congr ha hb]

theorem fNe_congr (ha : SameUpToNaN a a') (hb : SameUpToNaN b b') : fNe a b = fNe a' b' := by
  rw [fNe, fNe, fEq_congr ha hb]

theorem isNaN_trig_of_isNaN (h : IsNaN x) : IsNaN (fSin x) ∧ IsNaN (fCos x) :=
  isNaN_trig fun hf => not_isNaN_of_isFinite hf h

theorem fSin_congr (h : SameUpToNaN x y) : SameUpToNaN (fSin x) (fSin y) :=
  map_sameUpToNaN (fun _ hx => (isNaN_trig_of_isNaN hx).1) h

theorem fCos_congr (h : SameUpToNaN x y) : SameUpToNaN (fCos x) (fCos y) :=
  map_sameUpToNaN (fun _ hx => (isNaN_trig_of_isNaN hx).2) h

/-- The two cases of P-pow-one are told by the number of an operand; beyond them a NaN operand gives a NaN. -/
theorem fPow_congr (ha : SameUpToNaN a a') (hb : SameUpToNaN b b') : SameUpToNaN (fPow a b) (fPow a' b') := by
  have hz : isZero b = isZero b' := fEq_congr hb (.refl _)
  have h1 : a = oneF64 ↔ a' = oneF64 := eq_iff_of_not_isNaN ha (not_isNaN_of_isFinite isFinite_oneF64)
  cases hzb : isZero b with
  | true => rw [fPow_of_isZero hzb, fPow_of_isZero (hz ▸ hzb)]
  | false =>
    by_cases ha1 : a = oneF64
    · rw [ha1, h1.1 ha1, fPow_oneF64, fPow_oneF64]
    · have hn := isNaN_fPow ha1 hzb
      have hn' := isNaN_fPow (mt h1.2 ha1) (hz ▸ hzb)
      rcases ha with rfl | ⟨hna, hna'⟩
      · exact hb.imp (congrArg _) fun ⟨hnb, hnb'⟩ => ⟨hn (.inr hnb), hn' (.inr hnb')⟩
      · exact .inr ⟨hn (.inl hna), hn' (.inl hna')⟩

end Operations

/-- The answers of two operations agree: none for both, or values that agree. -/
abbrev OptionsAgree : Option F64 → Option F64 → Prop := Option.Rel SameUpToNaN

theorem optionsAgree_of_eq {r r' : Option F64} (h : r = r') : OptionsAgree r r' := by
  subst h
  cases r
  · exact .none
  · exact .some (.refl _)

/-! ### Updates at two states that agree -/

namespace AgreeUpToNaN

variable {s s' : State} (h : AgreeUpToNaN s s')

include h

theorem setStatus (x : Status) : AgreeUpToNaN (s.setStatus x) (s'.setStatus x) := { h with status := rfl }

theorem setPc (n : Nat) : AgreeUpToNaN (s.setPc n) (s'.setPc n) := { h with pc := rfl }

theorem advance (n : Nat) : AgreeUpToNaN (s.advance n) (s'.advance n) := { h with pc := congrArg (· + n) h.pc }

theorem setVs {l l' : List F64} (hl : List.Forall₂ SameUpToNaN l l') :
    AgreeUpToNaN (s.setVs l) (s'.setVs l') := { h with vs := hl }

theorem setCs (l : List F64) : AgreeUpToNaN (s.setCs l) (s'.setCs l) := { h with cs := rfl }

theorem setReg (r : Reg) {v v' : F64} (hv : SameUpToNaN v v') :
    AgreeUpToNaN (s.setReg r v) (s'.setReg r v') := by
  refine { h with regs := fun q => ?_ }
  rw [readReg, readReg, setReg_regs, setReg_regs]
  by_cases hq : q = r
  · subst hq
    rwa [getElem_set_self, getElem_set_self]
  · rw [getElem_set_other _ _ hq, getElem_set_other _ _ hq]
    exact h.regs q

theorem setInput {l l' : List InAnswer} (hl : List.Forall₂ AnswersAgree l l') :
    AgreeUpToNaN (s.setInput l) (s'.setInput l') := { h with input := hl }

theorem setOutAnswers (l : List OutAnswer) : AgreeUpToNaN (s.setOutAnswers l) (s'.setOutAnswers l) :=
  { h with outAnswers := rfl }

theorem addOutput {v v' : F64} (hv : SameUpToNaN v v') : AgreeUpToNaN (s.addOutput v) (s'.addOutput v') :=
  { h with output := List.rel_append h.output (.cons hv .nil) }

theorem addFrame (f : Frame) : AgreeUpToNaN (s.addFrame f) (s'.addFrame f) :=
  { h with frames := congrArg (· ++ [f]) h.frames }

theorem countDraw : AgreeUpToNaN s.countDraw s'.countDraw := { h with }

end AgreeUpToNaN

section Pushed

variable {s s' : State} (h : AgreeUpToNaN s s')

include h

theorem pushValue_agree {v v' : F64} (hv : SameUpToNaN v v') : AgreeUpToNaN (pushValue s v) (pushValue s' v') :=
  h.setVs (.cons hv h.vs)

/-- Two drawn NaNs agree, whichever draws they are. -/
theorem pushResult_agree {r r' : Option F64} (hr : OptionsAgree r r') :
    AgreeUpToNaN (pushResult s r) (pushResult s' r') := by
  cases hr with
  | none => exact (pushValue_agree h (.inr ⟨isNaN_drawnNaN _, isNaN_drawnNaN _⟩)).countDraw
  | some hv => exact pushValue_agree h hv

end Pushed

/-! ### Data memory at two states that agree -/

/-- Two data memories that differ only in the bits of NaNs in RAM cells. -/
structure MemoriesAgree (size : Nat) (m m' : Memory) : Prop where
  ram : ∀ i, i < Config.ramCells → SameUpToNaN (readCell m i) (readCell m' i)
  vram : ∀ j, j < size → readVram m j = readVram m' j

section Memories

variable {s s' : State} {m m' : Memory} {size n : Nat}

theorem AgreeUpToNaN.memories (h : AgreeUpToNaN s s') : MemoriesAgree s.platform.vramBytes s.mem s'.mem :=
  ⟨h.ram, h.vram⟩

theorem AgreeUpToNaN.setMem (h : AgreeUpToNaN s s') (hm : MemoriesAgree s.platform.vramBytes m m') :
    AgreeUpToNaN (s.setMem m) (s'.setMem m') :=
  { h with ram := hm.ram, vram := hm.vram }

/-- A load agrees: a RAM cell may hold different NaNs, a VRAM byte is the same. -/
theorem readData_agree (hm : MemoriesAgree size m m') (hn : n < 1024 + size) :
    SameUpToNaN (readData m n) (readData m' n) := by
  unfold readData Config.vramBase
  split
  next hlt => exact hm.ram n hlt
  next hge => rw [hm.vram (n - 1024) (by omega)]

theorem writeCell_agree (hm : MemoriesAgree size m m') (hw : m.wf) (hw' : m'.wf) (hn : n < 1024)
    {v v' : F64} (hv : SameUpToNaN v v') : MemoriesAgree size (writeCell m n v) (writeCell m' n v') where
  ram i hi := by
    by_cases h : i = n
    · subst h
      rwa [readCell_writeCell_same hw, readCell_writeCell_same hw']
    · rw [readCell_writeCell_other hw v h, readCell_writeCell_other hw' v' h]
      exact hm.ram i hi
  vram j hj := by
    rw [readVram_writeCell hw v hn, readVram_writeCell hw' v' hn]
    exact hm.vram j hj

theorem writeVram_agree (hm : MemoriesAgree size m m') (hw : m.wf) (hw' : m'.wf) (k : Nat) (b : Byte) :
    MemoriesAgree size (writeVram m k b) (writeVram m' k b) where
  ram i hi := by
    rw [readCell_writeVram hw b hi, readCell_writeVram hw' b hi]
    exact hm.ram i hi
  vram j hj := by
    by_cases h : j = k
    · subst h
      rw [readVram_writeVram_same hw, readVram_writeVram_same hw']
    · rw [readVram_writeVram_other hw b h, readVram_writeVram_other hw' b h]
      exact hm.vram j hj

theorem clearVram_agree (hm : MemoriesAgree size m m') :
    MemoriesAgree size (clearVram m size) (clearVram m' size) where
  ram i hi := by
    rw [readCell_clearVram hi, readCell_clearVram hi]
    exact hm.ram i hi
  vram j hj := by rw [readVram_clearVram hj, readVram_clearVram hj]

/-- A store agrees: both are refused, or both memories are written (R57, R58). -/
theorem storeData_agree (hm : MemoriesAgree size m m') (hw : m.wf) (hw' : m'.wf) (n : Nat) {v v' : F64}
    (hv : SameUpToNaN v v') :
    Option.Rel (MemoriesAgree size) (storeData m n v) (storeData m' n v') := by
  by_cases hn : n < 1024
  · rw [storeData_ram hn, storeData_ram hn]
    exact .some (writeCell_agree hm hw hw' hn hv)
  · rw [storeData_vram (Nat.not_lt.1 hn), storeData_vram (Nat.not_lt.1 hn), toByte_congr hv]
    cases toByte v' with
    | none => exact .none
    | some b => exact .some (writeVram_agree hm hw hw' _ b)

/-- The frame presented shows VRAM, which is the same. -/
theorem presentedFrame_agree (h : AgreeUpToNaN s s') : presentedFrame s = presentedFrame s' := by
  have hbytes : vramBytes s.mem s.platform.vramBytes = vramBytes s'.mem s.platform.vramBytes :=
    List.map_congr_left fun j hj => h.vram j (List.mem_range.1 hj)
  rw [presentedFrame, presentedFrame, ← h.platform, hbytes]

end Memories

/-! ### The shapes of the instructions -/

/-- Where the one answers a next state, so does the other, and the two next states agree. -/
def ResultsAgree (r r' : Result) : Prop := ∀ t, r = .next t → ∃ t', r' = .next t' ∧ AgreeUpToNaN t t'

theorem resultsAgree_next {t t' : State} (h : AgreeUpToNaN t t') : ResultsAgree (.next t) (.next t') := by
  intro u hu
  cases hu
  exact ⟨t', rfl, h⟩

section Shapes

variable {s s' : State} (h : AgreeUpToNaN s s')

include h

theorem raise_agree (k : FaultKind) : ResultsAgree (raise k s) (raise k s') :=
  resultsAgree_next (h.setStatus _)

/-- Binary instructions whose domain check and operation cannot tell two NaNs apart (R136). -/
theorem binary_agree {domain : F64 → F64 → Bool} {op : F64 → F64 → Option F64}
    (hd : ∀ {a a' b b'}, SameUpToNaN a a' → SameUpToNaN b b' → domain a b = domain a' b')
    (hop : ∀ {a a' b b'}, SameUpToNaN a a' → SameUpToNaN b b' → OptionsAgree (op a b) (op a' b')) :
    ResultsAgree (binary domain op s) (binary domain op s') := by
  have hvs := h.vs
  unfold binary
  generalize s.vs = l, s'.vs = l' at hvs ⊢
  rcases hvs with _ | ⟨hb, _ | ⟨ha, hrest⟩⟩
  · exact raise_agree h _
  · exact raise_agree h _
  · simp only [hd ha hb]
    split
    · exact resultsAgree_next ((pushResult_agree (h.setVs hrest) (hop ha hb)).advance 1)
    · exact raise_agree h _

/-- Unary instructions whose domain check and operation cannot tell two NaNs apart (R137). -/
theorem unary_agree {domain : F64 → Bool} {op : F64 → Option F64}
    (hd : ∀ {a a'}, SameUpToNaN a a' → domain a = domain a')
    (hop : ∀ {a a'}, SameUpToNaN a a' → OptionsAgree (op a) (op a')) :
    ResultsAgree (unary domain op s) (unary domain op s') := by
  have hvs := h.vs
  unfold unary
  generalize s.vs = l, s'.vs = l' at hvs ⊢
  rcases hvs with _ | ⟨ha, hrest⟩
  · exact raise_agree h _
  · simp only [hd ha]
    split
    · exact resultsAgree_next ((pushResult_agree (h.setVs hrest) (hop ha)).advance 1)
    · exact raise_agree h _

/-- Comparison jumps whose relation cannot tell two NaNs apart (R185). -/
theorem compareJump_agree {rel : F64 → F64 → Bool} (x : F64)
    (hrel : ∀ {a a' b b'}, SameUpToNaN a a' → SameUpToNaN b b' → rel a b = rel a' b') :
    ResultsAgree (compareJump rel x s) (compareJump rel x s') := by
  have hvs := h.vs
  unfold compareJump
  generalize s.vs = l, s'.vs = l' at hvs ⊢
  rcases hvs with _ | ⟨hb, _ | ⟨ha, hrest⟩⟩
  · exact raise_agree h _
  · exact raise_agree h _
  · simp only [hrel ha hb]
    split
    · cases toOffset x with
      | none => exact raise_agree h _
      | some n => exact resultsAgree_next ((h.setVs hrest).setPc n)
    · exact resultsAgree_next ((h.setVs hrest).advance _)

/-! ### `push` and `pop` -/

theorem effectiveValue_agree (e : EaForm) : OptionsAgree (effectiveValue s e) (effectiveValue s' e) := by
  cases e with
  | reg r => exact .some (h.regs r)
  | cst c => exact .some (.refl c)
  | regCst r c => exact optionsAgree_of_eq (fAdd_congr (h.regs r) (.refl c))

/-- No NaN is an address, so both states address the same place. -/
theorem dataAddress_agree (e : EaForm) : dataAddress s e = dataAddress s' e := by
  have he := effectiveValue_agree h e
  unfold dataAddress
  generalize effectiveValue s e = r, effectiveValue s' e = r' at he ⊢
  cases he with
  | none => rfl
  | some hv => simp only [toAddr, toNatural_congr addrConv hv, h.platform]

theorem execPush_agree (a : Operand) : ResultsAgree (execPush a s) (execPush a s') := by
  cases a with
  | direct e => exact resultsAgree_next ((pushResult_agree h (effectiveValue_agree h e)).advance _)
  | memory e =>
    simp only [execPush, ← dataAddress_agree h e]
    cases hn : dataAddress s e with
    | none => exact raise_agree h _
    | some n => exact resultsAgree_next ((pushValue_agree h (readData_agree h.memories (dataAddress_lt hn))).advance _)

theorem popToReg_agree (r : Reg) (len : Nat) : ResultsAgree (popToReg r len s) (popToReg r len s') := by
  have hvs := h.vs
  unfold popToReg
  generalize s.vs = l, s'.vs = l' at hvs ⊢
  rcases hvs with _ | ⟨hv, hrest⟩
  · exact raise_agree h _
  · exact resultsAgree_next (((h.setVs hrest).setReg r hv).advance len)

theorem popToMemory_agree (hw : s.mem.wf) (hw' : s'.mem.wf) (e : EaForm) (len : Nat) :
    ResultsAgree (popToMemory e len s) (popToMemory e len s') := by
  have hvs := h.vs
  unfold popToMemory
  generalize s.vs = l, s'.vs = l' at hvs ⊢
  rcases hvs with _ | ⟨hv, hrest⟩
  · exact raise_agree h _
  · simp only [← dataAddress_agree h e]
    cases dataAddress s e with
    | none => exact raise_agree h _
    | some n =>
      have hstore := storeData_agree h.memories hw hw' n hv
      simp only []
      generalize storeData s.mem n _ = r, storeData s'.mem n _ = r' at hstore ⊢
      cases hstore with
      | none => exact raise_agree h _
      | some hm => exact resultsAgree_next (((h.setVs hrest).setMem hm).advance len)

theorem execPop_agree (hw : s.mem.wf) (hw' : s'.mem.wf) (a : Operand) :
    ResultsAgree (execPop a s) (execPop a s') := by
  match a with
  | .direct (.reg r) | .direct (.regCst r _) => exact popToReg_agree h r _
  | .direct (.cst _) => exact raise_agree h _
  | .memory e => exact popToMemory_agree h hw hw' e _

/-! ### Input, output and control transfer -/

theorem execIn_agree : ResultsAgree (execIn s) (execIn s') := by
  have hin := h.input
  unfold execIn
  generalize s.input = l, s'.input = l' at hin ⊢
  cases hin with
  | nil => exact raise_agree h _
  | @cons x y _ _ ha hrest =>
    match x, y, ha with
    | .value v, .value w, hv => exact resultsAgree_next ((pushValue_agree (h.setInput hrest) hv).advance 1)
    | .fail, .fail, _ => exact raise_agree (h.setInput hrest) _
    | .silent, .silent, _ => exact fun t ht => by cases ht

/-- OUT answers by the number of values sent, not by what they are (log entry 8). -/
theorem nextOutAnswer_agree : nextOutAnswer s = nextOutAnswer s' := by
  rw [nextOutAnswer, nextOutAnswer, h.outAnswers, h.output.length_eq]

theorem execOut_agree : ResultsAgree (execOut s) (execOut s') := by
  have hvs := h.vs
  unfold execOut
  generalize s.vs = l, s'.vs = l' at hvs ⊢
  rcases hvs with _ | ⟨hv, hrest⟩
  · exact raise_agree h _
  · simp only [← nextOutAnswer_agree h, ← h.outAnswers]
    cases nextOutAnswer s with
    | fail => exact raise_agree h _
    | ok => exact resultsAgree_next ((((h.setVs hrest).setOutAnswers _).addOutput hv).advance 1)

theorem execCall_agree (x : F64) : ResultsAgree (execCall x s) (execCall x s') := by
  unfold execCall
  rw [← h.pc, ← h.cs]
  cases toOffset x with
  | none => exact raise_agree h _
  | some n => exact resultsAgree_next ((h.setCs _).setPc n)

theorem execRet_agree : ResultsAgree (execRet s) (execRet s') := by
  unfold execRet
  rw [← h.cs]
  cases s.cs with
  | nil => exact raise_agree h _
  | cons v rest =>
    simp only []
    cases toOffset v with
    | none => exact raise_agree h _
    | some n => exact resultsAgree_next ((h.setCs rest).setPc n)

theorem execJmp_agree (x : F64) : ResultsAgree (execJmp x s) (execJmp x s') := by
  unfold execJmp
  cases toOffset x with
  | none => exact raise_agree h _
  | some n => exact resultsAgree_next (h.setPc n)

/-! ### Display and halt -/

theorem execUpd_agree : ResultsAgree (execUpd s) (execUpd s') := by
  rw [execUpd, execUpd, ← presentedFrame_agree h]
  exact resultsAgree_next ((h.addFrame _).advance 1)

theorem execClr_agree : ResultsAgree (execClr s) (execClr s') := by
  rw [execClr, execClr, ← h.platform]
  exact resultsAgree_next ((h.setMem (clearVram_agree h.memories)).advance 1)

theorem execHlt_agree : ResultsAgree (execHlt s) (execHlt s') :=
  resultsAgree_next ((h.advance 1).setStatus .halted)

/-! ### Every instruction -/

/-- No instruction tells two states that agree apart; canonical memory is needed for `pop` to memory alone, where the
reads after the two stores are compared. -/
theorem exec_agree (hw : s.mem.wf) (hw' : s'.mem.wf) (i : Instr) : ResultsAgree (exec i s) (exec i s') := by
  cases i with
  | inp => exact execIn_agree h
  | out => exact execOut_agree h
  | add => exact binary_agree h (fun _ _ => rfl) fun ha hb => optionsAgree_of_eq (fAdd_congr ha hb)
  | sub => exact binary_agree h (fun _ _ => rfl) fun ha hb => optionsAgree_of_eq (fSub_congr ha hb)
  | mul => exact binary_agree h (fun _ _ => rfl) fun ha hb => optionsAgree_of_eq (fMul_congr ha hb)
  | div =>
    exact binary_agree h (fun _ hb => congrArg not (fEq_congr hb (.refl _))) fun ha hb =>
      optionsAgree_of_eq (fDiv_congr ha hb)
  | pow => exact binary_agree h (fun _ _ => rfl) fun ha hb => .some (fPow_congr ha hb)
  | sqrt =>
    exact unary_agree h (fun ha => congrArg not (fLt_congr ha (.refl _))) fun ha =>
      optionsAgree_of_eq (fSqrt_congr ha)
  | sin => exact unary_agree h (fun _ => rfl) fun ha => .some (fSin_congr ha)
  | cos => exact unary_agree h (fun _ => rfl) fun ha => .some (fCos_congr ha)
  | push a => exact execPush_agree h a
  | pop a => exact execPop_agree h hw hw' a
  | call x => exact execCall_agree h x
  | ret => exact execRet_agree h
  | jmp x => exact execJmp_agree h x
  | jae x => exact compareJump_agree h x fGe_congr
  | ja x => exact compareJump_agree h x fGt_congr
  | jb x => exact compareJump_agree h x fLt_congr
  | jbe x => exact compareJump_agree h x fLe_congr
  | je x => exact compareJump_agree h x fEq_congr
  | jne x => exact compareJump_agree h x fNe_congr
  | upd => exact execUpd_agree h
  | clr => exact execClr_agree h
  | abs => exact unary_agree h (fun _ => rfl) fun ha => optionsAgree_of_eq (fAbs_congr ha)
  | flr => exact unary_agree h (fun _ => rfl) fun ha => optionsAgree_of_eq (fFloor_congr ha)
  | hlt => exact execHlt_agree h

end Shapes

/-- Settles O59, shape by shape: every operation on values respects the agreement, and so does every update of the
state. -/
theorem naNBitsAreUnobservable : Obligations.NaNBitsAreUnobservable :=
  fun i _ _ t h hw hw' => exec_agree h hw hw' i t

end Machine

end Sys2Proof
end

section
/-!
PROOFS. `push` and `pop` (`spec/42_push_pop.md` R160 to R173): the value an operand names, a `push` of it and from
memory, a `pop` to a register, and the checks of `pop` in their order.
-/

namespace Sys2Proof

namespace Machine

/-! ### The effective value (R161) -/

/-- Settles O30: the one shape that computes is the sum of `add`, the other two move a pattern. -/
theorem effectiveValue_spec : Obligations.EffectiveValue :=
  fun _ _ _ => ⟨rfl, rfl, fun _ => fAdd_some, fun h _ => fAdd_none h⟩

/-! ### `push` (R165) -/

/-- RAM adds no field: a direct operand is as long as the memory operand of its shape (R94). -/
@[simp] theorem instrLength_direct (e : EaForm) : (Operand.direct e).instrLength = addressedLength e := by
  cases e <;> simp [Operand.instrLength, Operand.form, addressedLength]

section Push

variable {s : State} {e : EaForm}

/-- A `push` without RAM completes whatever its operand names. -/
theorem exec_push_direct :
    exec (.push (.direct e)) s =
      .next ((pushResult s (effectiveValue s e)).advance (addressedLength e)) := by
  rw [exec, execPush, instrLength_direct]

/-- A `push` of an operand whose value the rules fix draws no NaN. -/
theorem exec_push_direct_of_some {v : F64} (h : effectiveValue s e = some v) :
    exec (.push (.direct e)) s =
      .next { s with vs := v :: s.vs, pc := s.pc + addressedLength e } := by
  rw [exec_push_direct, h]
  rfl

/-- A `push` whose operand is no data address faults. -/
theorem exec_push_memory_of_no_address (h : dataAddress s e = none) :
    exec (.push (.memory e)) s = .next { s with status := .faulted .invalidCmdArgument } := by
  have hpush : execPush (.memory e) s = raise .invalidCmdArgument s := by
    simp only [execPush, h]
  rw [exec, hpush, raise_eq_next]

end Push

/-- Settles O31: register and constant are moved, and their sum is pushed as an arithmetic result is. -/
theorem pushDirect : Obligations.PushDirect := by
  intro s r c
  refine ⟨exec_push_direct_of_some rfl, exec_push_direct_of_some rfl, ?_⟩
  obtain ⟨_, _, hsome, hnone⟩ := effectiveValue_spec s r c
  obtain ⟨v, d, hpush, hsum, hdraws⟩ := pushResult_spec s _ (fun v h => (hsome v h).2) hnone
  refine ⟨v, d, ?_, hsum, hdraws⟩
  rw [exec_push_direct, hpush]
  rfl

/-- From 1024 on a load reads one VRAM byte as a number (R51, R56). -/
theorem readData_vram {m : Memory} {n : Nat} (h : 1024 ≤ n) :
    readData m n = ofNat (readByte m (8192 + (n - 1024))).toNat := if_neg (Nat.not_lt.2 h)

/-- The number that a byte is loaded as is the byte (R13, R56). -/
theorem isNatural_ofNat_byte (b : Byte) : IsNatural (ofNat b.toNat) b.toNat :=
  fromNatIsExact _ (b.isLt.le.trans (by decide))

/-- Settles O32: what is read at a data address is the cell, or the number of the byte. -/
theorem pushMemory : Obligations.PushMemory := by
  intro s e
  refine ⟨fun n hn hlt => ?_, fun n hn hle => ?_, exec_push_memory_of_no_address⟩
  · rw [exec_push_memory hn, readData_ram hlt]
  · exact ⟨_, by rw [exec_push_memory hn, readData_vram hle], isNatural_ofNat_byte _⟩

/-! ### `pop` (R163, R170 to R172) -/

section Pop

variable {s : State}

/-- On a stack that is not empty, `pop` to a register moves the top there. -/
theorem popToReg_of_cons {v : F64} {rest : List F64} (r : Reg) (len : Nat) (hv : s.vs = v :: rest) :
    popToReg r len s = .next { s with vs := rest, regs := s.regs.set r v, pc := s.pc + len } := by
  rw [popToReg, hv]
  rfl

theorem exec_pop_reg (r : Reg) : exec (.pop (.direct (.reg r))) s = popToReg r 3 s := by
  rw [exec, execPop, instrLength_direct, addressedLength]

/-- The constant has no effect but on the length (R172). -/
theorem exec_pop_regCst (r : Reg) (c : F64) : exec (.pop (.direct (.regCst r c))) s = popToReg r 11 s := by
  rw [exec, execPop, instrLength_direct, addressedLength]

/-- On an empty stack a `pop` that has a destination faults, whatever its address is. -/
theorem exec_pop_of_empty {a : Operand} (hd : a.isDestination = true) (hv : s.vs = []) :
    exec (.pop a) s = .next { s with status := .faulted .notEnoughValuesForOperation } :=
  execPop_of_shallow hd (by rw [hv]; exact Nat.zero_lt_one)

/-- With a value on the stack, a `pop` to no data address faults. -/
theorem exec_pop_memory_of_no_address {e : EaForm} (hv : s.vs ≠ []) (h : dataAddress s e = none) :
    exec (.pop (.memory e)) s = .next { s with status := .faulted .invalidCmdArgument } := by
  rcases popToMemory_cases e (Operand.memory e).instrLength s with
    ⟨hnil, _⟩ | ⟨_, _, _, ⟨_, hpop⟩ | ⟨n, hn, _⟩⟩
  · exact absurd hnil hv
  · exact hpop
  · rw [h] at hn
    cases hn

end Pop

/-- Settles O33: both register forms are the one operation, with the length of each. -/
theorem popRegister : Obligations.PopRegister := by
  intro s r c
  refine ⟨fun v rest hv => ?_, fun hv => ⟨exec_pop_of_empty rfl hv, exec_pop_of_empty rfl hv⟩⟩
  rw [exec_pop_reg, exec_pop_regCst]
  exact ⟨popToReg_of_cons r 3 hv, popToReg_of_cons r 11 hv⟩

/-- Settles O36, check by check: a failed check answers whatever the later ones would say. -/
theorem popChecksInOrder : Obligations.PopChecksInOrder :=
  fun _ _ _ => ⟨rfl, exec_pop_of_empty rfl, exec_pop_memory_of_no_address⟩

end Machine

end Sys2Proof
end

section
/-!
PROOFS. Control transfer (`spec/43_control_flow.md` R180 to R192): which doubles are targets, what `jmp`, `call` and
`ret` do with one, that `ret` undoes `call`, and the shared rule of the six comparison jumps.
-/

namespace Sys2Proof

namespace Machine

open Ieee

/-! ### Targets (R181) -/

/-- Settles O28: `ToOffset` is the strict conversion to a natural number, with no bound added. -/
theorem toOffsetAcceptsExactIntegers : Obligations.ToOffsetAcceptsExactIntegers :=
  fun _ _ => toNatural_strict_iff

theorem toOffset_of_isNatural {t : F64} {n : Nat} (h : IsNatural t n) : toOffset t = some n :=
  (toOffsetAcceptsExactIntegers t n).2 h

theorem toOffset_of_not_isNatural {t : F64} (h : ∀ n, ¬ IsNatural t n) : toOffset t = none :=
  Option.eq_none_iff_forall_ne_some.2 fun n hn => h n ((toOffsetAcceptsExactIntegers t n).1 hn)

/-! ### `jmp`, `call` and `ret` (R182 to R184) -/

section Transfer

variable {s : State} {t v : F64} {rest : List F64} {n : Nat}

theorem exec_jmp_of_isNatural (h : IsNatural t n) : exec (.jmp t) s = .next { s with pc := n } := by
  rw [exec, execJmp, toOffset_of_isNatural h]
  rfl

theorem exec_jmp_of_not_isNatural (h : ∀ n, ¬ IsNatural t n) : exec (.jmp t) s = raise .invalidCmdArgument s := by
  rw [exec, execJmp, toOffset_of_not_isNatural h]

theorem exec_call_of_isNatural (h : IsNatural t n) :
    exec (.call t) s = .next { s with cs := ofNat (s.pc + 10) :: s.cs, pc := n } := by
  rw [exec, execCall, toOffset_of_isNatural h]
  rfl

/-- The target is converted before the push, so nothing is pushed (R183). -/
theorem exec_call_of_not_isNatural (h : ∀ n, ¬ IsNatural t n) : exec (.call t) s = raise .invalidCmdArgument s := by
  rw [exec, execCall, toOffset_of_not_isNatural h]

theorem exec_ret_of_isNatural (hc : s.cs = v :: rest) (h : IsNatural v n) :
    exec .ret s = .next { s with cs := rest, pc := n } := by
  simp only [exec, execRet, hc, toOffset_of_isNatural h]
  rfl

theorem exec_ret_of_empty (hc : s.cs = []) : exec .ret s = raise .notEnoughValuesForOperation s := by
  rw [exec, execRet, hc]

end Transfer

/-- Settles O38, by whether the target converts. -/
theorem jmpResult : Obligations.JmpResult :=
  fun _ _ => ⟨fun _ => exec_jmp_of_isNatural, exec_jmp_of_not_isNatural⟩

/-- Settles O39: up to `2^53` the pushed double is the offset it was made from (R28). -/
theorem callResult : Obligations.CallResult :=
  fun _ _ hpc => ⟨fun _ h => ⟨_, exec_call_of_isNatural h, fromNatIsExact _ hpc⟩, exec_call_of_not_isNatural⟩

/-- Settles O40, by whether the call stack holds a value. -/
theorem retResult : Obligations.RetResult :=
  fun _ => ⟨fun _ _ _ => exec_ret_of_isNatural, exec_ret_of_empty⟩

/-- Settles O41: `call` leaves its return address, exact, on top of the call stack, and `ret` looks at nothing
else. -/
theorem callThenReturn : Obligations.CallThenReturn := by
  intro s u w t n hpc ht hcall hw
  rw [exec_call_of_isNatural ht] at hcall
  cases hcall
  exact exec_ret_of_isNatural hw (fromNatIsExact _ hpc)

/-- In an image that fits, a return address is the natural number it was made from (R28, R35). -/
theorem IsReturnAddress.isNatural {pb : Nat} {v : F64} (h : IsReturnAddress pb v) (hpb : pb ≤ 2 ^ 53) :
    ∃ n, 10 ≤ n ∧ n ≤ pb ∧ IsNatural v n := by
  obtain ⟨n, hlow, hhigh, rfl⟩ := h
  exact ⟨n, hlow, hhigh, fromNatIsExact n (hhigh.trans hpb)⟩

/-- Settles O42: the invariant makes the top of the call stack a return address. -/
theorem returnTargetNeverFaults : Obligations.ReturnTargetNeverFaults := by
  intro s v rest hs hc
  have hv : IsReturnAddress s.prog.length v := hs.return_addresses v (hc ▸ List.mem_cons_self)
  obtain ⟨n, hlow, hhigh, hn⟩ := hv.isNatural (hs.image_fits.trans (Nat.sub_le _ _))
  exact ⟨n, hlow, hhigh, hn, exec_ret_of_isNatural hc hn⟩

/-! ### The comparison jumps (R185) -/

section CompareJump

variable {s : State} {rel : F64 → F64 → Bool} {a b t : F64} {rest : List F64}

theorem compareJump_of_rel {n : Nat} (hv : s.vs = b :: a :: rest) (hr : rel a b = true) (h : IsNatural t n) :
    compareJump rel t s = .next { s with vs := rest, pc := n } := by
  simp only [compareJump, hv, hr, if_true, toOffset_of_isNatural h]
  rfl

/-- A taken jump without a target faults before the operands are popped (R185). -/
theorem compareJump_of_rel_of_not_isNatural (hv : s.vs = b :: a :: rest) (hr : rel a b = true)
    (h : ∀ n, ¬ IsNatural t n) : compareJump rel t s = raise .invalidCmdArgument s := by
  simp only [compareJump, hv, hr, if_true, toOffset_of_not_isNatural h]

theorem compareJump_of_not_rel (hv : s.vs = b :: a :: rest) (hr : rel a b = false) :
    compareJump rel t s = .next { s with vs := rest, pc := s.pc + 10 } := by
  simp only [compareJump, hv, hr, Bool.false_eq_true, if_false]
  rfl

/-- A jump that is the shared rule over `rel` is taken under the condition that `rel` decides. -/
theorem jumpsWhen_of_compareJump {taken : Prop} {i : Instr} (hv : s.vs = b :: a :: rest)
    (hi : exec i s = compareJump rel t s) (hr : rel a b = true ↔ taken) : JumpsWhen taken i t s rest := by
  rw [JumpsWhen, ← hr, hi, Bool.not_eq_true]
  exact ⟨fun h _ => compareJump_of_rel hv h, compareJump_of_rel_of_not_isNatural hv, compareJump_of_not_rel hv⟩

end CompareJump

/-- Settles O43: each jump is the shared rule over one of the comparisons, and those are the IEEE 754 ones. -/
theorem comparisonJumps : Obligations.ComparisonJumps :=
  fun _ _ _ _ _ hv =>
    ⟨jumpsWhen_of_compareJump hv rfl fGe_iff, jumpsWhen_of_compareJump hv rfl fGt_iff,
      jumpsWhen_of_compareJump hv rfl fLt_iff, jumpsWhen_of_compareJump hv rfl fLe_iff,
      jumpsWhen_of_compareJump hv rfl fEq_iff, jumpsWhen_of_compareJump hv rfl fNe_iff⟩

end Machine

end Sys2Proof
end

section
/-!
PROOFS. The display (`spec/44_display.md` R200 to R203): the bytes of VRAM as a frame holds them, what `upd` presents
and what `clr` zeroes.
-/

namespace Sys2Proof

namespace Machine

/-! ### VRAM as one list of bytes (R203) -/

@[simp] theorem length_vramBytes (m : Memory) (size : Nat) : (vramBytes m size).length = size := by
  simp [vramBytes, readBytes]

/-- The list holds the bytes in order, byte `j` of VRAM at place `j`. -/
theorem getElem?_vramBytes {m : Memory} {size j : Nat} (h : j < size) :
    (vramBytes m size)[j]? = some (readVram m j) := by
  simp [vramBytes, readBytes, readVram, vramOffset, h]

/-! ### `upd` (R200) -/

theorem exec_upd (s : State) :
    exec .upd s = .next { s with frames := s.frames ++ [presentedFrame s], pc := s.pc + 1 } := rfl

/-- Settles O44: the frame that `upd` adds is the one presented, and its pixels are the list of VRAM's bytes. -/
theorem updResult : Obligations.UpdResult := fun s =>
  ⟨presentedFrame s, exec_upd s, length_vramBytes s.mem s.platform.vramBytes, fun _ hj => getElem?_vramBytes hj,
    rfl, rfl⟩

/-! ### `clr` (R201) -/

theorem exec_clr (s : State) :
    exec .clr s = .next { s with mem := clearVram s.mem s.platform.vramBytes, pc := s.pc + 1 } := rfl

/-- Settles O45: the memory after `clr` is the one with VRAM cleared, which reads 0 within VRAM and as before
outside it. -/
theorem clrResult : Obligations.ClrResult := fun s =>
  ⟨clearVram s.mem s.platform.vramBytes, exec_clr s, fun _ hj => readVram_clearVram hj,
    fun _ ha => readByte_clearVram_other ha⟩

end Machine

end Sys2Proof
end

section
/-!
PROOFS. Halt (`spec/45_halt.md` R210): `pc` moves past `hlt`, then `STATUS` becomes `Halted`.
-/

namespace Sys2Proof

namespace Machine

theorem exec_hlt (s : State) : exec .hlt s = .next ((s.advance 1).setStatus .halted) := rfl

/-- Settles O46: the two writes of `hlt`, to `pc` and to `STATUS`, are one update of the record. -/
theorem hltResult : Obligations.HltResult := by
  intro s
  rw [exec_hlt, State.advance, State.setStatus]

end Machine

end Sys2Proof
end

section
/-!
PROOFS. Faults (`spec/60_exceptions.md` R220 to R225): that they are precise, and which kinds the execute stage of each
instruction can raise, shape by shape.
-/

namespace Sys2Proof

namespace Machine

/-! ### Precision (R225) -/

/-- Settles O48: the decoder's faults write `STATUS` alone, and of the two ways an instruction faults only the failed
answer of `in` writes more. -/
theorem faultsArePrecise : Obligations.FaultsArePrecise := by
  intro s t k hs h hk
  obtain ⟨_, ⟨i, hd, hx⟩ | ⟨e, _, rfl⟩⟩ := step_cases h
  · rcases exec_completes_or_faults hx with hc | hf
    · exact absurd hk (hc.not_faulted hs k)
    · cases hf with
      | raised _ k' =>
        obtain rfl := Status.faulted.inj hk
        exact .inl rfl
      | @inputFailed rest hin =>
        obtain rfl := Status.faulted.inj hk
        exact .inr ⟨hd, rfl, rest, hin, rfl⟩
  · obtain rfl := Status.faulted.inj hk
    exact .inl rfl

/-! ### Kinds of the execute stage (R221) -/

/-- If the result `r` is a fault at all, its kind is one of `ks`. -/
def RaisesOnly (ks : List FaultKind) (r : Result) : Prop :=
  ∀ t k, r = .next t → t.status = .faulted k → k ∈ ks

theorem raisesOnly_raise {ks : List FaultKind} {k : FaultKind} (s : State) (h : k ∈ ks) :
    RaisesOnly ks (raise k s) := by
  rintro t k' ht hk
  cases ht
  obtain rfl := Status.faulted.inj hk
  exact h

theorem raisesOnly_next {ks : List FaultKind} {t : State} (h : ∀ k, t.status ≠ .faulted k) :
    RaisesOnly ks (.next t) := by
  rintro _ k ⟨⟩ hk
  exact absurd hk (h k)

theorem raisesOnly_of_running {ks : List FaultKind} {t : State} (h : t.status = .running) :
    RaisesOnly ks (.next t) :=
  raisesOnly_next (by simp [h])

/-- A transfer that only asks for its target to be a natural number refuses all others and nothing else (R181). -/
theorem transfer_raisesOnly {r : Result} {s : State} {x : F64}
    (hn : ∀ n, IsNatural x n → ∃ t, r = .next t ∧ t.status = .running)
    (hx : (∀ n, ¬ IsNatural x n) → r = raise .invalidCmdArgument s) : RaisesOnly [.invalidCmdArgument] r := by
  by_cases h : ∃ n, IsNatural x n
  · obtain ⟨n, h⟩ := h
    obtain ⟨t, rfl, ht⟩ := hn n h
    exact raisesOnly_of_running ht
  · rw [hx (not_exists.1 h)]
    exact raisesOnly_raise s (by decide)

section Kinds

variable {s : State} (hs : s.status = .running)

include hs

/-- A binary instruction whose domain check can fail needs both kinds (R135, R136). -/
theorem binary_raisesOnly {ks : List FaultKind} {domain : F64 → F64 → Bool} (op : F64 → F64 → Option F64)
    (hN : .notEnoughValuesForOperation ∈ ks) (hM : ∀ a b, domain a b = false → .mathError ∈ ks) :
    RaisesOnly ks (binary domain op s) := by
  rcases binary_cases domain op s with ⟨_, e⟩ | ⟨a, b, _, _, ⟨hd, e⟩ | ⟨_, e⟩⟩ <;> rw [e]
  · exact raisesOnly_raise s hN
  · exact raisesOnly_raise s (hM a b hd)
  · exact raisesOnly_of_running (by simp [hs])

/-- A unary instruction whose domain check can fail needs both kinds (R135, R137). -/
theorem unary_raisesOnly {ks : List FaultKind} {domain : F64 → Bool} (op : F64 → Option F64)
    (hN : .notEnoughValuesForOperation ∈ ks) (hM : ∀ a, domain a = false → .mathError ∈ ks) :
    RaisesOnly ks (unary domain op s) := by
  rcases unary_cases domain op s with ⟨_, e⟩ | ⟨a, _, _, ⟨hd, e⟩ | ⟨_, e⟩⟩ <;> rw [e]
  · exact raisesOnly_raise s hN
  · exact raisesOnly_raise s (hM a hd)
  · exact raisesOnly_of_running (by simp [hs])

theorem compareJump_raisesOnly (rel : F64 → F64 → Bool) (x : F64) :
    RaisesOnly [.notEnoughValuesForOperation, .invalidCmdArgument] (compareJump rel x s) := by
  rcases compareJump_cases rel x s with
    ⟨_, e⟩ | ⟨_, _, _, _, ⟨_, _, _, e⟩ | ⟨_, _, e⟩ | ⟨_, e⟩⟩ <;> rw [e]
  · exact raisesOnly_raise s (by decide)
  · exact raisesOnly_of_running (by simp [hs])
  · exact raisesOnly_raise s (by decide)
  · exact raisesOnly_of_running (by simp [hs])

theorem popToReg_raisesOnly (r : Reg) (len : Nat) :
    RaisesOnly [.notEnoughValuesForOperation, .invalidCmdArgument] (popToReg r len s) := by
  rcases popToReg_cases r len s with ⟨_, e⟩ | ⟨_, _, _, e⟩ <;> rw [e]
  · exact raisesOnly_raise s (by decide)
  · exact raisesOnly_of_running (by simp [hs])

theorem popToMemory_raisesOnly (e : EaForm) (len : Nat) :
    RaisesOnly [.notEnoughValuesForOperation, .invalidCmdArgument] (popToMemory e len s) := by
  rcases popToMemory_cases e len s with
    ⟨_, h⟩ | ⟨_, _, _, ⟨_, h⟩ | ⟨_, _, ⟨_, h⟩ | ⟨_, _, h⟩⟩⟩ <;> rw [h]
  · exact raisesOnly_raise s (by decide)
  · exact raisesOnly_raise s (by decide)
  · exact raisesOnly_raise s (by decide)
  · exact raisesOnly_of_running (by simp [hs])

theorem execPop_raisesOnly (a : Operand) :
    RaisesOnly [.notEnoughValuesForOperation, .invalidCmdArgument] (execPop a s) := by
  match a with
  | .direct (.reg r) | .direct (.regCst r _) => exact popToReg_raisesOnly hs r _
  | .direct (.cst _) => exact raisesOnly_raise s (by decide)
  | .memory e => exact popToMemory_raisesOnly hs e _

/-- Only the address of a RAM form can be refused (R165). -/
theorem exec_push_raisesOnly (a : Operand) : RaisesOnly [.invalidCmdArgument] (exec (.push a) s) := by
  match a with
  | .direct e =>
    rw [exec_push_direct]
    exact raisesOnly_of_running (by simp [hs])
  | .memory e =>
    cases hn : dataAddress s e with
    | none =>
      rw [exec_push_memory_of_no_address hn]
      exact raisesOnly_raise s (by decide)
    | some n =>
      rw [exec_push_memory hn]
      exact raisesOnly_of_running hs

theorem execIn_raisesOnly : RaisesOnly [.ioError] (execIn s) := by
  match hin : s.input with
  | .value v :: rest =>
    rw [execIn_of_value hin]
    exact raisesOnly_of_running hs
  | .fail :: rest =>
    rw [execIn_of_fail hin]
    exact raisesOnly_raise _ (by decide)
  | .silent :: rest =>
    rw [execIn, hin]
    exact fun _ _ h => nomatch h
  | [] =>
    rw [execIn_of_exhausted hin]
    exact raisesOnly_raise s (by decide)

theorem execOut_raisesOnly : RaisesOnly [.notEnoughValuesForOperation, .ioError] (execOut s) := by
  cases hv : s.vs with
  | nil =>
    rw [execOut_of_shallow (by simp [hv])]
    exact raisesOnly_raise s (by decide)
  | cons v rest =>
    cases ha : nextOutAnswer s with
    | ok =>
      rw [execOut_of_ok hv ha]
      exact raisesOnly_of_running hs
    | fail =>
      rw [execOut_of_fail hv ha]
      exact raisesOnly_raise s (by decide)

theorem exec_jmp_raisesOnly (x : F64) : RaisesOnly [.invalidCmdArgument] (exec (.jmp x) s) :=
  transfer_raisesOnly (fun _ h => ⟨_, exec_jmp_of_isNatural h, hs⟩) exec_jmp_of_not_isNatural

theorem exec_call_raisesOnly (x : F64) : RaisesOnly [.invalidCmdArgument] (exec (.call x) s) :=
  transfer_raisesOnly (fun _ h => ⟨_, exec_call_of_isNatural h, hs⟩) exec_call_of_not_isNatural

/-- Under the invariant a return address is a target, so `ret` fails on the empty call stack alone (R184). -/
theorem exec_ret_raisesOnly (hinv : Inv s) : RaisesOnly [.notEnoughValuesForOperation] (exec .ret s) := by
  cases hc : s.cs with
  | nil =>
    rw [exec_ret_of_empty hc]
    exact raisesOnly_raise s (by decide)
  | cons v rest =>
    obtain ⟨n, _, _, _, hret⟩ := returnTargetNeverFaults s v rest hinv hc
    rw [hret]
    exact raisesOnly_of_running hs

/-- The execute column of R221. -/
theorem exec_raisesOnly_executeKinds (hinv : Inv s) (i : Instr) : RaisesOnly (executeKinds i) (exec i s) := by
  cases i with
  | inp => exact execIn_raisesOnly hs
  | out => exact execOut_raisesOnly hs
  | add | sub | mul | pow => exact binary_raisesOnly hs _ (by decide) (by simp)
  | div => exact binary_raisesOnly hs _ (by decide) fun _ _ _ => by decide
  | sin | cos | abs | flr => exact unary_raisesOnly hs _ (by decide) (by simp)
  | sqrt => exact unary_raisesOnly hs _ (by decide) fun _ _ => by decide
  | push a => exact exec_push_raisesOnly hs a
  | pop a => exact execPop_raisesOnly hs a
  | call x => exact exec_call_raisesOnly hs x
  | ret => exact exec_ret_raisesOnly hs hinv
  | jmp x => exact exec_jmp_raisesOnly hs x
  | jae x | ja x | jb x | jbe x | je x | jne x => exact compareJump_raisesOnly hs _ x
  | upd | clr => exact raisesOnly_of_running hs
  | hlt => exact raisesOnly_next fun _ => nofun

end Kinds

/-- Settles O49: the kinds each instruction can raise are those of its row, `ret` by the invariant. -/
theorem faultKindsByInstruction : Obligations.FaultKindsByInstruction :=
  fun i _ t k hinv hs h hk => exec_raisesOnly_executeKinds hs hinv i t k h hk

end Machine

end Sys2Proof
end

section
/-!
PROOFS. Reset (`spec/70_reset_and_hazards.md`): the invariant every step keeps holds before the first one.
-/

namespace Sys2Proof

namespace Machine

/-- Reset lists no byte and no return address (R260), so all the invariant asks of it is the loader's bound
(R261). -/
theorem inv_boot {image : List Byte} (h : image.length ≤ 2 ^ 53 - 16) (input : List InAnswer)
    (outs : List OutAnswer) (p : Platform) : Inv (State.boot image input outs p) where
  mem_wf := wf_nil
  mem_bound := List.forall_mem_nil _
  return_addresses := List.forall_mem_nil _
  image_fits := h

/-- Settles O57: `State.reset` is a boot with the empty image. -/
theorem bootHasTheInvariant : Obligations.BootHasTheInvariant :=
  ⟨inv_boot (Nat.zero_le _) [] [] openPlatform, fun _ input outs p h => inv_boot h input outs p⟩

end Machine

end Sys2Proof
end
